-- ==== Sys2Proof/Word.lean ====
section
/-! DEFINITION. The machine's words: the 32-bit register width, the byte and the 4-bit register number
(00_scope.md R6, 30_encoding.md R84). -/

namespace Sys2Proof

/-- A register value, an address or an instruction word: 32 bits (R6 `XLEN`, `ALEN`, `ILEN`). -/
abbrev Word := BitVec 32

/-- A byte of memory: 8 bits (R6). -/
abbrev Byte := BitVec 8

/-- A register number, the 4-bit content of a register field (R84). `15#4` names the program counter (R21). -/
abbrev Reg := BitVec 4

end Sys2Proof
end

