-- ==== Sys2Proof/Config.lean ====
section
/-! DEFINITION. What an implementation fixes (00_scope.md R6, 92_eei_decisions.md section 3) and the free values. -/

namespace Sys2Proof

/-- `PROFILE` (R6, D1): the user-level machine, whose exceptions are terminal, or the ARMv4 system level. -/
inductive Profile where
  | U
  | S
  deriving DecidableEq, Repr

/-- `MISALIGNED_POLICY` (R6, D3): an alignment fault (R54), or what ARMv4 hardware does without checking (R55). -/
inductive MisalignedPolicy where
  | fault
  | armv4
  deriving DecidableEq, Repr

/-- `MUL_CV_POLICY` (R6, R211, D17): what a multiply with S = 1 does to C and V. -/
inductive MulCVPolicy where
  | unchanged
  | draw
  deriving DecidableEq, Repr

/-- `STORE_PC_OFFSET` (R6, D19, 93 U13): none, so that storing register 15 is refused, or the k of `pc + k`. -/
inductive StorePcOffset where
  | none
  | eight
  | twelve
  deriving DecidableEq, Repr

/-- A run of mapped addresses of `MEMMAP` (R6, R51): the byte addresses `base` to `base + size - 1`. -/
structure Region where
  base : Nat
  size : Nat
  deriving DecidableEq, Repr

/-- The parameters of the machine that have an alternative in the spec (R6). No step changes one.
`memRegBit4` is `MEM_REG_BIT4` (R92, D8), true for 1. -/
structure Params where
  profile : Profile
  misaligned : MisalignedPolicy
  mulCV : MulCVPolicy
  storePc : StorePcOffset
  memRegBit4 : Bool
  memMap : List Region
  deriving DecidableEq, Repr

/-- The values R6 fixes, `PROFILE = U` among them; `MEMMAP`, which R6 leaves open, is every address (entry 6). -/
def Params.default : Params where
  profile := .U
  misaligned := .fault
  mulCV := .unchanged
  storePc := .none
  memRegBit4 := false
  memMap := [⟨0, 2 ^ 32⟩]

/-- The same values with the system level, the profile that has a reset (10_state.md R36; entry 1). -/
def Params.systemLevel : Params := { Params.default with profile := .S }

/-- What a byte of memory that nothing has written reads as: no value (R35, R56; entry 5). -/
def Config.unlisted : Option Byte := none

/-- The unspecified word numbered `n`: what Reset leaves in a register (R348) or `draw` in a flag (R211). Free. -/
opaque Config.freeWord : Nat → Word

/-- What a read of banked register `r` gives in the instruction after a User-bank LDM (R373 (a)). Free; `n` numbers
the LDM. -/
opaque Config.staleBank : Nat → Reg → Word

end Sys2Proof
end

