-- ==== Sys2Proof/Syntax.lean ====
section
/-! DEFINITION. The abstract syntax: one constructor per name of spec/opcode_table.json. -/

namespace Sys2Proof

/-- The fifteen conditions an instruction may carry (45_condition_flags.md R302). The sixteenth value of the field is a
reserved word (30_encoding.md R112). -/
inductive Cond where
  | eq | ne | cs | cc | mi | pl | vs | vc | hi | ls | ge | lt | gt | le | al
  deriving DecidableEq, Repr

/-- The shift type field sh (R101). -/
inductive ShiftType where
  | lsl | lsr | asr | ror
  deriving DecidableEq, Repr

/-- The second source operand of a data-processing instruction (R86, R87, R88). -/
inductive Src2 where
  | imm (rot : BitVec 4) (imm8 : BitVec 8)
  | shiftImm (sh : ShiftType) (shamt5 : BitVec 5) (rm : Reg)
  | shiftReg (sh : ShiftType) (rs rm : Reg)
  deriving DecidableEq, Repr

/-- The operand of MOV: the Src2 forms that R103 names MOV. -/
inductive MovSrc where
  | imm (rot : BitVec 4) (imm8 : BitVec 8)
  | reg (rm : Reg)
  deriving DecidableEq, Repr

/-- "Rs/shamt5", the shift amount of LSL, LSR, ASR and ROR (R103). -/
inductive ShiftAmount where
  | imm (shamt5 : BitVec 5)
  | reg (rs : Reg)
  deriving DecidableEq, Repr

/-- The offset of a memory instruction (R91, R92). -/
inductive MemOffset where
  | imm (imm12 : BitVec 12)
  | reg (sh : ShiftType) (shamt5 : BitVec 5) (rm : Reg)
  deriving DecidableEq, Repr

/-- The offset of an extra memory instruction (R94); `sbz` is bits 11:8 of the register form (R111). -/
inductive ExtraOffset where
  | imm (imm8 : BitVec 8)
  | reg (sbz : BitVec 4) (rm : Reg)
  deriving DecidableEq, Repr

/-- The indexing modes with a meaning (42_memory_instructions.md R223). -/
inductive Index where
  | offset | pre | post
  deriving DecidableEq, Repr

/-- The P and W bits of an extra memory instruction: a mode of R223, or P = 0 with W = 1 (R221). -/
inductive ExtraIndex where
  | mode (idx : Index)
  | p0w1
  deriving DecidableEq, Repr

/-- The operand of MSR (44_miscellaneous.md R296); `sbz` is bits 11:8 of the register form (R111). -/
inductive MsrOperand where
  | reg (sbz : BitVec 4) (rm : Reg)
  | imm (rot : BitVec 4) (imm8 : BitVec 8)
  deriving DecidableEq, Repr

/-- The instructions. `c` is the condition, `s` the S bit, `u` the U bit (true = up). A field named `sbz` or `sbo` is one
that must hold zeros or ones (R111): the decoder keeps it and the machine checks it. A reserved word keeps its bits 27:0. -/
inductive Instr where
  | reservedCond1111 (w : BitVec 28)
  | nop (c : Cond)
  | mul (c : Cond) (s : Bool) (rd : Reg) (sbz : BitVec 4) (rm rn : Reg)
  | mla (c : Cond) (s : Bool) (rd ra rm rn : Reg)
  | umull (c : Cond) (s : Bool) (rd ra rm rn : Reg)
  | umlal (c : Cond) (s : Bool) (rd ra rm rn : Reg)
  | smull (c : Cond) (s : Bool) (rd ra rm rn : Reg)
  | smlal (c : Cond) (s : Bool) (rd ra rm rn : Reg)
  | reservedMultiplyCmd (c : Cond) (w : BitVec 28)
  | swp (c : Cond) (rn rd : Reg) (sbz : BitVec 4) (rm : Reg)
  | swpb (c : Cond) (rn rd : Reg) (sbz : BitVec 4) (rm : Reg)
  | reservedOp001001 (c : Cond) (w : BitVec 28)
  | strh (c : Cond) (idx : ExtraIndex) (u : Bool) (rn rd : Reg) (off : ExtraOffset)
  | ldrh (c : Cond) (idx : ExtraIndex) (u : Bool) (rn rd : Reg) (off : ExtraOffset)
  | ldrsb (c : Cond) (idx : ExtraIndex) (u : Bool) (rn rd : Reg) (off : ExtraOffset)
  | ldrsh (c : Cond) (idx : ExtraIndex) (u : Bool) (rn rd : Reg) (off : ExtraOffset)
  | reservedExtraStoreSigned (c : Cond) (w : BitVec 28)
  | mrs (c : Cond) (r : Bool) (sbo : BitVec 4) (rd : Reg) (sbzHi sbzLo : BitVec 4)
  | msr (c : Cond) (r : Bool) (fieldMask : BitVec 4) (sbo : BitVec 4) (operand : MsrOperand)
  | reservedDpCompareS0 (c : Cond) (w : BitVec 28)
  | and (c : Cond) (s : Bool) (rn rd : Reg) (op2 : Src2)
  | eor (c : Cond) (s : Bool) (rn rd : Reg) (op2 : Src2)
  | sub (c : Cond) (s : Bool) (rn rd : Reg) (op2 : Src2)
  | rsb (c : Cond) (s : Bool) (rn rd : Reg) (op2 : Src2)
  | add (c : Cond) (s : Bool) (rn rd : Reg) (op2 : Src2)
  | adc (c : Cond) (s : Bool) (rn rd : Reg) (op2 : Src2)
  | sbc (c : Cond) (s : Bool) (rn rd : Reg) (op2 : Src2)
  | rsc (c : Cond) (s : Bool) (rn rd : Reg) (op2 : Src2)
  | tst (c : Cond) (rn : Reg) (sbz : BitVec 4) (op2 : Src2)
  | teq (c : Cond) (rn : Reg) (sbz : BitVec 4) (op2 : Src2)
  | cmp (c : Cond) (rn : Reg) (sbz : BitVec 4) (op2 : Src2)
  | cmn (c : Cond) (rn : Reg) (sbz : BitVec 4) (op2 : Src2)
  | orr (c : Cond) (s : Bool) (rn rd : Reg) (op2 : Src2)
  | bic (c : Cond) (s : Bool) (rn rd : Reg) (op2 : Src2)
  | mvn (c : Cond) (s : Bool) (sbz : BitVec 4) (rd : Reg) (op2 : Src2)
  | mov (c : Cond) (s : Bool) (sbz : BitVec 4) (rd : Reg) (src : MovSrc)
  | lsl (c : Cond) (s : Bool) (sbz : BitVec 4) (rd : Reg) (amt : ShiftAmount) (rm : Reg)
  | lsr (c : Cond) (s : Bool) (sbz : BitVec 4) (rd : Reg) (amt : ShiftAmount) (rm : Reg)
  | asr (c : Cond) (s : Bool) (sbz : BitVec 4) (rd : Reg) (amt : ShiftAmount) (rm : Reg)
  | rrx (c : Cond) (s : Bool) (sbz : BitVec 4) (rd rm : Reg)
  | ror (c : Cond) (s : Bool) (sbz : BitVec 4) (rd : Reg) (amt : ShiftAmount) (rm : Reg)
  | reservedUndefinedSpace (c : Cond) (w : BitVec 28)
  | strt (c : Cond) (u : Bool) (rn rd : Reg) (off : MemOffset)
  | str (c : Cond) (idx : Index) (u : Bool) (rn rd : Reg) (off : MemOffset)
  | ldrt (c : Cond) (u : Bool) (rn rd : Reg) (off : MemOffset)
  | ldr (c : Cond) (idx : Index) (u : Bool) (rn rd : Reg) (off : MemOffset)
  | strbt (c : Cond) (u : Bool) (rn rd : Reg) (off : MemOffset)
  | strb (c : Cond) (idx : Index) (u : Bool) (rn rd : Reg) (off : MemOffset)
  | ldrbt (c : Cond) (u : Bool) (rn rd : Reg) (off : MemOffset)
  | ldrb (c : Cond) (idx : Index) (u : Bool) (rn rd : Reg) (off : MemOffset)
  | b (c : Cond) (imm24 : BitVec 24)
  | bl (c : Cond) (imm24 : BitVec 24)
  | stm (c : Cond) (p u s w : Bool) (rn : Reg) (list : BitVec 16)
  | ldm (c : Cond) (p u s w : Bool) (rn : Reg) (list : BitVec 16)
  | stc (c : Cond) (p u n w : Bool) (rn crd cp : BitVec 4) (imm8 : BitVec 8)
  | ldc (c : Cond) (p u n w : Bool) (rn crd cp : BitVec 4) (imm8 : BitVec 8)
  | cdp (c : Cond) (opc1 crn crd cp : BitVec 4) (opc2 : BitVec 3) (crm : BitVec 4)
  | mcr (c : Cond) (opc1 : BitVec 3) (crn : BitVec 4) (rd : Reg) (cp : BitVec 4) (opc2 : BitVec 3) (crm : BitVec 4)
  | mrc (c : Cond) (opc1 : BitVec 3) (crn : BitVec 4) (rd : Reg) (cp : BitVec 4) (opc2 : BitVec 3) (crm : BitVec 4)
  | swi (c : Cond) (imm24 : BitVec 24)
  deriving DecidableEq, Repr

end Sys2Proof
end

