-- ==== Sys2Proof/WellFormed.lean ====
section
/-! DEFINITION. Which terms are instructions as the spec spells them: a term that has an encoding of its own
(`Instr.canonical`) and whose should-be-zero and should-be-one fields hold what R111 requires (`Instr.fieldsOk`). -/

namespace Sys2Proof

/-- A constant shift amount that its name admits: LSL and ROR take 1 to 31, because the field 0 spells MOV or RRX (R103). -/
def ShiftAmount.nonzero : ShiftAmount → Bool
  | .imm n => n ≠ 0#5
  | .reg _ => true

/-- R110 row 3: the multiply format with cmd 010 or 011. -/
def isMultiplyCmdWord (w : BitVec 28) : Bool :=
  w.extractLsb' 22 6 = 0b000001#6 && w.extractLsb' 4 4 = 0b1001#4

/-- R110 row 4: op = 00, bits 7:4 = 1001, bit 24 = 1, and neither SWP nor SWPB (bit 23 = 0 and bits 21:20 = 00). -/
def isOp001001Word (w : BitVec 28) : Bool :=
  w.extractLsb' 24 4 = 0b0001#4 && w.extractLsb' 4 4 = 0b1001#4 && (w.getLsbD 23 || w.extractLsb' 20 2 ≠ 0b00#2)

/-- R110 row 5: the extra memory format, L = 0, op2 = 10 or 11. -/
def isExtraStoreSignedWord (w : BitVec 28) : Bool :=
  w.extractLsb' 25 3 = 0b000#3 && !w.getLsbD 20 && w.extractLsb' 6 2 = 0b11#2 && w.getLsbD 4

/-- R110 row 2: a Src2 form with cmd = 10xx and S = 0 that is neither MRS nor MSR (R100). -/
def isDpCompareS0Word (w : BitVec 28) : Bool :=
  w.extractLsb' 26 2 = 0b00#2 && w.extractLsb' 23 2 = 0b10#2 && !w.getLsbD 20 &&
  (w.getLsbD 25 || !w.getLsbD 7 || !w.getLsbD 4) &&
  !(!w.getLsbD 25 && !w.getLsbD 21 && w.extractLsb' 4 4 = 0b0000#4) &&
  !(w.getLsbD 21 && (w.getLsbD 25 || w.extractLsb' 4 4 = 0b0000#4))

/-- R110 row 6: op = 01, bit 25 = 1, bit 4 not `MEM_REG_BIT4`. -/
def isUndefinedSpaceWord (bit4 : Bool) (w : BitVec 28) : Bool :=
  w.extractLsb' 25 3 = 0b011#3 && w.getLsbD 4 ≠ bit4

/-- A term that some word decodes to: each spelling is the one the table's first matching row gives. -/
def Instr.canonical (bit4 : Bool) : Instr → Bool
  | .lsl _ _ _ _ amt _ => amt.nonzero
  | .ror _ _ _ _ amt _ => amt.nonzero
  | .mov _ s sbz rd src => !(!s && sbz = 0#4 && rd = 0#4 && src = .reg 0#4)
  | .reservedMultiplyCmd _ w => isMultiplyCmdWord w
  | .reservedOp001001 _ w => isOp001001Word w
  | .reservedExtraStoreSigned _ w => isExtraStoreSignedWord w
  | .reservedDpCompareS0 _ w => isDpCompareS0Word w
  | .reservedUndefinedSpace _ w => isUndefinedSpaceWord bit4 w
  | .reservedCond1111 .. | .nop .. | .mul .. | .mla .. | .umull .. | .umlal .. | .smull .. | .smlal .. | .swp .. |
    .swpb .. | .strh .. | .ldrh .. | .ldrsb .. | .ldrsh .. | .mrs .. | .msr .. | .and .. | .eor .. | .sub .. |
    .rsb .. | .add .. | .adc .. | .sbc .. | .rsc .. | .tst .. | .teq .. | .cmp .. | .cmn .. | .orr .. | .bic .. |
    .mvn .. | .lsr .. | .asr .. | .rrx .. | .strt .. | .str .. | .ldrt .. | .ldr .. | .strbt .. | .strb .. |
    .ldrbt .. | .ldrb .. | .b .. | .bl .. | .stm .. | .ldm .. | .stc .. | .ldc .. | .cdp .. | .mcr .. | .mrc .. |
    .swi .. => true

/-- Bits 11:8 of the register form of an extra memory offset (R111). -/
def ExtraOffset.sbzOk : ExtraOffset → Bool
  | .imm _ => true
  | .reg sbz _ => sbz = 0#4

/-- Bits 11:8 of the register form of MSR (R111). -/
def MsrOperand.sbzOk : MsrOperand → Bool
  | .reg sbz _ => sbz = 0#4
  | .imm _ _ => true

/-- The table of R111: every should-be-zero field holds zeros, every should-be-one field ones. -/
def Instr.fieldsOk : Instr → Bool
  | .mul _ _ _ sbz _ _ => sbz = 0#4
  | .swp _ _ _ sbz _ => sbz = 0#4
  | .swpb _ _ _ sbz _ => sbz = 0#4
  | .strh _ _ _ _ _ off => off.sbzOk
  | .ldrh _ _ _ _ _ off => off.sbzOk
  | .ldrsb _ _ _ _ _ off => off.sbzOk
  | .ldrsh _ _ _ _ _ off => off.sbzOk
  | .mrs _ _ sbo _ sbzHi sbzLo => sbo = 15#4 && sbzHi = 0#4 && sbzLo = 0#4
  | .msr _ _ _ sbo operand => sbo = 15#4 && operand.sbzOk
  | .tst _ _ sbz _ => sbz = 0#4
  | .teq _ _ sbz _ => sbz = 0#4
  | .cmp _ _ sbz _ => sbz = 0#4
  | .cmn _ _ sbz _ => sbz = 0#4
  | .mvn _ _ sbz _ _ => sbz = 0#4
  | .mov _ _ sbz _ _ => sbz = 0#4
  | .lsl _ _ sbz _ _ _ => sbz = 0#4
  | .lsr _ _ sbz _ _ _ => sbz = 0#4
  | .asr _ _ sbz _ _ _ => sbz = 0#4
  | .rrx _ _ sbz _ _ => sbz = 0#4
  | .ror _ _ sbz _ _ _ => sbz = 0#4
  | .reservedCond1111 .. | .nop .. | .mla .. | .umull .. | .umlal .. | .smull .. | .smlal .. |
    .reservedMultiplyCmd .. | .reservedOp001001 .. | .reservedExtraStoreSigned .. | .reservedDpCompareS0 .. |
    .and .. | .eor .. | .sub .. | .rsb .. | .add .. | .adc .. | .sbc .. | .rsc .. | .orr .. | .bic .. |
    .reservedUndefinedSpace .. | .strt .. | .str .. | .ldrt .. | .ldr .. | .strbt .. | .strb .. | .ldrbt .. |
    .ldrb .. | .b .. | .bl .. | .stm .. | .ldm .. | .stc .. | .ldc .. | .cdp .. | .mcr .. | .mrc .. | .swi .. => true

/-- A well-formed instruction under `MEM_REG_BIT4 = bit4`. -/
def Instr.wellFormed (bit4 : Bool) (i : Instr) : Bool :=
  i.canonical bit4 && i.fieldsOk

end Sys2Proof
end

