-- ==== Sys2Proof/Decode.lean ====
section
/-! DEFINITION. The decoder (30_encoding.md R100 and the format tables it rests on), total on any bytes, and the encoder
written from the same tables. Bits are numbered 31 to 0 (R80); the body of a word is its bits 27:0. -/

namespace Sys2Proof

/-! ## Fields -/

/-- The concatenation `{a, b}`, `a` the more significant (R9), at a stated width. -/
def cat {m n k : Nat} (a : BitVec m) (b : BitVec n) (h : m + n = k := by rfl) : BitVec k :=
  (a ++ b).cast h

/-- The condition a cond field names (R302); `none` for 1111 (R112). -/
def Cond.ofBits (v : BitVec 4) : Option Cond :=
  if v = 0b0000#4 then some .eq else if v = 0b0001#4 then some .ne
  else if v = 0b0010#4 then some .cs else if v = 0b0011#4 then some .cc
  else if v = 0b0100#4 then some .mi else if v = 0b0101#4 then some .pl
  else if v = 0b0110#4 then some .vs else if v = 0b0111#4 then some .vc
  else if v = 0b1000#4 then some .hi else if v = 0b1001#4 then some .ls
  else if v = 0b1010#4 then some .ge else if v = 0b1011#4 then some .lt
  else if v = 0b1100#4 then some .gt else if v = 0b1101#4 then some .le
  else if v = 0b1110#4 then some .al else none

/-- The cond field of a condition (R302). -/
def Cond.bits : Cond → BitVec 4
  | .eq => 0b0000 | .ne => 0b0001 | .cs => 0b0010 | .cc => 0b0011
  | .mi => 0b0100 | .pl => 0b0101 | .vs => 0b0110 | .vc => 0b0111
  | .hi => 0b1000 | .ls => 0b1001 | .ge => 0b1010 | .lt => 0b1011
  | .gt => 0b1100 | .le => 0b1101 | .al => 0b1110

/-- The shift type a field sh names (R101). -/
def ShiftType.ofBits (v : BitVec 2) : ShiftType :=
  if v = 0b00#2 then .lsl else if v = 0b01#2 then .lsr else if v = 0b10#2 then .asr else .ror

/-- The field sh of a shift type (R101). -/
def ShiftType.bits : ShiftType → BitVec 2
  | .lsl => 0b00 | .lsr => 0b01 | .asr => 0b10 | .ror => 0b11

/-! ## The decoder -/

/-- Src2 of the data-processing format, selected by I and bit 4 (R85 to R88). -/
def decodeSrc2 (b : BitVec 28) : Src2 :=
  if b.getLsbD 25 then .imm (b.extractLsb' 8 4) (b.extractLsb' 0 8)
  else if b.getLsbD 4 then .shiftReg (.ofBits (b.extractLsb' 5 2)) (b.extractLsb' 8 4) (b.extractLsb' 0 4)
  else .shiftImm (.ofBits (b.extractLsb' 5 2)) (b.extractLsb' 7 5) (b.extractLsb' 0 4)

/-- The sub-map of cmd 1101 (R103), with NOP's word named first (R113, R176). -/
def decodeMove (c : Cond) (b : BitVec 28) : Instr :=
  let s := b.getLsbD 20
  let sbz := b.extractLsb' 16 4
  let rd := b.extractLsb' 12 4
  let rm := b.extractLsb' 0 4
  if b = 0x1A00000#28 then .nop c
  else if b.getLsbD 25 then .mov c s sbz rd (.imm (b.extractLsb' 8 4) (b.extractLsb' 0 8))
  else if b.getLsbD 4 then
    let rs := b.extractLsb' 8 4
    match ShiftType.ofBits (b.extractLsb' 5 2) with
    | .lsl => .lsl c s sbz rd (.reg rs) rm
    | .lsr => .lsr c s sbz rd (.reg rs) rm
    | .asr => .asr c s sbz rd (.reg rs) rm
    | .ror => .ror c s sbz rd (.reg rs) rm
  else
    let n := b.extractLsb' 7 5
    match ShiftType.ofBits (b.extractLsb' 5 2) with
    | .lsl => if n = 0#5 then .mov c s sbz rd (.reg rm) else .lsl c s sbz rd (.imm n) rm
    | .lsr => .lsr c s sbz rd (.imm n) rm
    | .asr => .asr c s sbz rd (.imm n) rm
    | .ror => if n = 0#5 then .rrx c s sbz rd rm else .ror c s sbz rd (.imm n) rm

/-- The cmd map of the data-processing format (R102). -/
def decodeDataProcessing (c : Cond) (b : BitVec 28) : Instr :=
  let cmd := b.extractLsb' 21 4
  let s := b.getLsbD 20
  let rn := b.extractLsb' 16 4
  let rd := b.extractLsb' 12 4
  let op2 := decodeSrc2 b
  if cmd = 0b0000#4 then .and c s rn rd op2
  else if cmd = 0b0001#4 then .eor c s rn rd op2
  else if cmd = 0b0010#4 then .sub c s rn rd op2
  else if cmd = 0b0011#4 then .rsb c s rn rd op2
  else if cmd = 0b0100#4 then .add c s rn rd op2
  else if cmd = 0b0101#4 then .adc c s rn rd op2
  else if cmd = 0b0110#4 then .sbc c s rn rd op2
  else if cmd = 0b0111#4 then .rsc c s rn rd op2
  else if cmd = 0b1000#4 then .tst c rn rd op2
  else if cmd = 0b1001#4 then .teq c rn rd op2
  else if cmd = 0b1010#4 then .cmp c rn rd op2
  else if cmd = 0b1011#4 then .cmn c rn rd op2
  else if cmd = 0b1100#4 then .orr c s rn rd op2
  else if cmd = 0b1101#4 then decodeMove c b
  else if cmd = 0b1110#4 then .bic c s rn rd op2
  else .mvn c s rn rd op2

/-- cmd 10xx with S = 0: MRS, MSR or reserved (R97, R100, R110 row 2). -/
def decodeCompareS0 (c : Cond) (b : BitVec 28) : Instr :=
  let r := b.getLsbD 22
  if !b.getLsbD 25 && !b.getLsbD 21 && b.extractLsb' 4 4 = 0b0000#4 then
    .mrs c r (b.extractLsb' 16 4) (b.extractLsb' 12 4) (b.extractLsb' 8 4) (b.extractLsb' 0 4)
  else if b.getLsbD 21 && b.getLsbD 25 then
    .msr c r (b.extractLsb' 16 4) (b.extractLsb' 12 4) (.imm (b.extractLsb' 8 4) (b.extractLsb' 0 8))
  else if b.getLsbD 21 && b.extractLsb' 4 4 = 0b0000#4 then
    .msr c r (b.extractLsb' 16 4) (b.extractLsb' 12 4) (.reg (b.extractLsb' 8 4) (b.extractLsb' 0 4))
  else .reservedDpCompareS0 c b

/-- Bits 7:4 = 1001 with bit 25 = 0: the multiplies (R89, R104), the swaps (R97) or reserved (R110 rows 3, 4). -/
def decode1001 (c : Cond) (b : BitVec 28) : Instr :=
  let cmd := b.extractLsb' 21 3
  let s := b.getLsbD 20
  let f19 := b.extractLsb' 16 4
  let f15 := b.extractLsb' 12 4
  let f11 := b.extractLsb' 8 4
  let f3 := b.extractLsb' 0 4
  if !b.getLsbD 24 then
    if cmd = 0b000#3 then .mul c s f19 f15 f11 f3
    else if cmd = 0b001#3 then .mla c s f19 f15 f11 f3
    else if cmd = 0b100#3 then .umull c s f19 f15 f11 f3
    else if cmd = 0b101#3 then .umlal c s f19 f15 f11 f3
    else if cmd = 0b110#3 then .smull c s f19 f15 f11 f3
    else if cmd = 0b111#3 then .smlal c s f19 f15 f11 f3
    else .reservedMultiplyCmd c b
  else if !b.getLsbD 23 && b.extractLsb' 20 2 = 0b00#2 then
    if b.getLsbD 22 then .swpb c f19 f15 f11 f3 else .swp c f19 f15 f11 f3
  else .reservedOp001001 c b

/-- The extra memory format (R93, R94, R105), bits 7 and 4 set and op2 not 00. -/
def decodeExtra (c : Cond) (b : BitVec 28) : Instr :=
  let idx : ExtraIndex :=
    if b.getLsbD 24 then (if b.getLsbD 21 then .mode .pre else .mode .offset)
    else (if b.getLsbD 21 then .p0w1 else .mode .post)
  let u := b.getLsbD 23
  let rn := b.extractLsb' 16 4
  let rd := b.extractLsb' 12 4
  let off : ExtraOffset :=
    if b.getLsbD 22 then .imm (cat (b.extractLsb' 8 4) (b.extractLsb' 0 4))
    else .reg (b.extractLsb' 8 4) (b.extractLsb' 0 4)
  let op2 := b.extractLsb' 5 2
  if b.getLsbD 20 then
    if op2 = 0b01#2 then .ldrh c idx u rn rd off
    else if op2 = 0b10#2 then .ldrsb c idx u rn rd off
    else .ldrsh c idx u rn rd off
  else if op2 = 0b01#2 then .strh c idx u rn rd off
  else .reservedExtraStoreSigned c b

/-- The memory format (R90 to R92, R105), with the T variants (R97) and the reserved words of R110 row 6. -/
def decodeMemory (bit4 : Bool) (c : Cond) (b : BitVec 28) : Instr :=
  if b.getLsbD 25 && b.getLsbD 4 != bit4 then .reservedUndefinedSpace c b
  else
    let p := b.getLsbD 24
    let w := b.getLsbD 21
    let idx : Index := if p then (if w then .pre else .offset) else .post
    let u := b.getLsbD 23
    let rn := b.extractLsb' 16 4
    let rd := b.extractLsb' 12 4
    let off : MemOffset :=
      if b.getLsbD 25 then .reg (.ofBits (b.extractLsb' 5 2)) (b.extractLsb' 7 5) (b.extractLsb' 0 4)
      else .imm (b.extractLsb' 0 12)
    if !p && w then
      if b.getLsbD 22 then (if b.getLsbD 20 then .ldrbt c u rn rd off else .strbt c u rn rd off)
      else (if b.getLsbD 20 then .ldrt c u rn rd off else .strt c u rn rd off)
    else
      if b.getLsbD 22 then (if b.getLsbD 20 then .ldrb c idx u rn rd off else .strb c idx u rn rd off)
      else (if b.getLsbD 20 then .ldr c idx u rn rd off else .str c idx u rn rd off)

/-- op = 10: the branches (R95) and the block transfers (R97). -/
def decodeBranchOrBlock (c : Cond) (b : BitVec 28) : Instr :=
  if b.getLsbD 25 then
    if b.getLsbD 24 then .bl c (b.extractLsb' 0 24) else .b c (b.extractLsb' 0 24)
  else if b.getLsbD 20 then
    .ldm c (b.getLsbD 24) (b.getLsbD 23) (b.getLsbD 22) (b.getLsbD 21) (b.extractLsb' 16 4) (b.extractLsb' 0 16)
  else
    .stm c (b.getLsbD 24) (b.getLsbD 23) (b.getLsbD 22) (b.getLsbD 21) (b.extractLsb' 16 4) (b.extractLsb' 0 16)

/-- op = 11: SWI and the coprocessor instructions (R97, R100). -/
def decodeOp11 (c : Cond) (b : BitVec 28) : Instr :=
  let f19 := b.extractLsb' 16 4
  let f15 := b.extractLsb' 12 4
  let cp := b.extractLsb' 8 4
  let opc2 := b.extractLsb' 5 3
  let crm := b.extractLsb' 0 4
  if b.getLsbD 25 then
    if b.getLsbD 24 then .swi c (b.extractLsb' 0 24)
    else if !b.getLsbD 4 then .cdp c (b.extractLsb' 20 4) f19 f15 cp opc2 crm
    else if b.getLsbD 20 then .mrc c (b.extractLsb' 21 3) f19 f15 cp opc2 crm
    else .mcr c (b.extractLsb' 21 3) f19 f15 cp opc2 crm
  else if b.getLsbD 20 then
    .ldc c (b.getLsbD 24) (b.getLsbD 23) (b.getLsbD 22) (b.getLsbD 21) f19 f15 cp (b.extractLsb' 0 8)
  else
    .stc c (b.getLsbD 24) (b.getLsbD 23) (b.getLsbD 22) (b.getLsbD 21) f19 f15 cp (b.extractLsb' 0 8)

/-- R100 below its first line: the instruction of a body `b` under condition `c`. -/
def decodeBody (bit4 : Bool) (c : Cond) (b : BitVec 28) : Instr :=
  if b.getLsbD 27 then
    if b.getLsbD 26 then decodeOp11 c b else decodeBranchOrBlock c b
  else if b.getLsbD 26 then decodeMemory bit4 c b
  else if !b.getLsbD 25 && b.getLsbD 7 && b.getLsbD 4 then
    if b.extractLsb' 5 2 = 0b00#2 then decode1001 c b else decodeExtra c b
  else if b.extractLsb' 23 2 = 0b10#2 && !b.getLsbD 20 then decodeCompareS0 c b
  else decodeDataProcessing c b

/-- `Decode(instr)` of R100, under `MEM_REG_BIT4 = bit4`. -/
def decodeWord (bit4 : Bool) (w : Word) : Instr :=
  match Cond.ofBits (w.extractLsb' 28 4) with
  | none => .reservedCond1111 (w.extractLsb' 0 28)
  | some c => decodeBody bit4 c (w.extractLsb' 0 28)

/-- Why a list of bytes is no instruction. -/
inductive DecodeError where
  | truncated
  deriving DecidableEq, Repr

/-- The word whose bytes, least significant first, are `b0` to `b3` (R53, R58). -/
def wordOfBytes (b0 b1 b2 b3 : Byte) : Word :=
  cat (n := 24) b3 (cat (n := 16) b2 (cat b1 b0))

/-- The instruction at the front of a list of bytes, and the bytes after it. Every instruction is four bytes long (R80). -/
def decode (bit4 : Bool) : List Byte → Except DecodeError (Instr × List Byte)
  | b0 :: b1 :: b2 :: b3 :: rest => .ok (decodeWord bit4 (wordOfBytes b0 b1 b2 b3), rest)
  | _ => .error .truncated

/-- The four bytes of a word, in address order (R53). -/
def bytesOfWord (w : Word) : List Byte :=
  [w.extractLsb' 0 8, w.extractLsb' 8 8, w.extractLsb' 16 8, w.extractLsb' 24 8]

/-- The word the host's table row stands for: the low `nbits` bits of `w`, every bit above them 0. -/
def tableWord (nbits w : Nat) : Word :=
  BitVec.ofNat 32 (w % 2 ^ nbits)

/-- What the decoder reads from a word of the opcode table, laid out as the hardware stores it. -/
def decodeTableWord (nbits w : Nat) : Option Instr :=
  match decode Params.default.memRegBit4 (bytesOfWord (tableWord nbits w)) with
  | .ok (i, _) => some i
  | .error _ => none

/-! ## The encoder -/

/-- The I bit of a Src2 (R85). -/
def Src2.isImm : Src2 → Bool
  | .imm _ _ => true
  | .shiftImm _ _ _ => false
  | .shiftReg _ _ _ => false

/-- Bits 11:0 of a shift by a constant: shamt5, sh, bit 4, Rm (R87, R92). -/
def shiftImmBits (sh : ShiftType) (shamt5 : BitVec 5) (bit4 : Bool) (rm : Reg) : BitVec 12 :=
  cat (n := 7) shamt5 (cat (n := 5) sh.bits (cat (BitVec.ofBool bit4) rm))

/-- Bits 11:0 of a shift by a register: Rs, 0, sh, 1, Rm (R88). -/
def shiftRegBits (sh : ShiftType) (rs rm : Reg) : BitVec 12 :=
  cat (n := 8) rs (cat (n := 7) 0b0#1 (cat (n := 5) sh.bits (cat 0b1#1 rm)))

/-- Bits 11:0 of a Src2 (R86 to R88). -/
def Src2.bits : Src2 → BitVec 12
  | .imm rot imm8 => cat rot imm8
  | .shiftImm sh shamt5 rm => shiftImmBits sh shamt5 false rm
  | .shiftReg sh rs rm => shiftRegBits sh rs rm

/-- The data-processing format (R82). -/
def dataProcessingBody (i : Bool) (cmd : BitVec 4) (s : Bool) (rn rd : Reg) (src2 : BitVec 12) : BitVec 28 :=
  cat (n := 26) 0b00#2 (cat (n := 25) (BitVec.ofBool i) (cat (n := 21) cmd (cat (n := 20) (BitVec.ofBool s)
    (cat (n := 16) rn (cat rd src2)))))

/-- Src2 of the shift `sh` by an amount (R103). -/
def ShiftAmount.bits (sh : ShiftType) (rm : Reg) : ShiftAmount → BitVec 12
  | .imm n => shiftImmBits sh n false rm
  | .reg rs => shiftRegBits sh rs rm

/-- The multiply format (R89) and, with bit 24 set, the swaps (R97): bits 27:20, then the fields around 1001. -/
def format1001Body (top : BitVec 8) (f19 f15 f11 f3 : BitVec 4) : BitVec 28 :=
  cat (n := 20) top (cat (n := 16) f19 (cat (n := 12) f15 (cat (n := 8) f11 (cat 0b1001#4 f3))))

/-- Bits 27:20 of a multiply: 0000, cmd, S (R89). -/
def multiplyTop (cmd : BitVec 3) (s : Bool) : BitVec 8 :=
  cat (n := 4) 0b0000#4 (cat cmd (BitVec.ofBool s))

/-- The P bit (R221). -/
def ExtraIndex.p : ExtraIndex → Bool
  | .mode .offset => true
  | .mode .pre => true
  | .mode .post => false
  | .p0w1 => false

/-- The W bit (R221). -/
def ExtraIndex.w : ExtraIndex → Bool
  | .mode .offset => false
  | .mode .pre => true
  | .mode .post => false
  | .p0w1 => true

/-- The I bit of the extra memory format (R93). -/
def ExtraOffset.isImm : ExtraOffset → Bool
  | .imm _ => true
  | .reg _ _ => false

/-- Src2a, bits 11:8 (R94). -/
def ExtraOffset.hi : ExtraOffset → BitVec 4
  | .imm v => v.extractLsb' 4 4
  | .reg sbz _ => sbz

/-- Src2b, bits 3:0 (R94). -/
def ExtraOffset.lo : ExtraOffset → BitVec 4
  | .imm v => v.extractLsb' 0 4
  | .reg _ rm => rm

/-- The extra memory format (R93). -/
def extraBody (idx : ExtraIndex) (u l : Bool) (op2 : BitVec 2) (rn rd : Reg) (off : ExtraOffset) : BitVec 28 :=
  cat (n := 25) 0b000#3 (cat (n := 24) (BitVec.ofBool idx.p) (cat (n := 23) (BitVec.ofBool u)
    (cat (n := 22) (BitVec.ofBool off.isImm) (cat (n := 21) (BitVec.ofBool idx.w) (cat (n := 20) (BitVec.ofBool l)
      (cat (n := 16) rn (cat (n := 12) rd (cat (n := 8) off.hi (cat (n := 7) 0b1#1
        (cat (n := 5) op2 (cat 0b1#1 off.lo)))))))))))

/-- Bit 25 of the memory format, `Ibar` (R90). -/
def MemOffset.isReg : MemOffset → Bool
  | .imm _ => false
  | .reg _ _ _ => true

/-- Bits 11:0 of a memory offset (R91, R92). -/
def MemOffset.bits (bit4 : Bool) : MemOffset → BitVec 12
  | .imm v => v
  | .reg sh shamt5 rm => shiftImmBits sh shamt5 bit4 rm

/-- The memory format (R90). -/
def memoryBody (bit4 p w u b l : Bool) (rn rd : Reg) (off : MemOffset) : BitVec 28 :=
  cat (n := 26) 0b01#2 (cat (n := 25) (BitVec.ofBool off.isReg) (cat (n := 24) (BitVec.ofBool p)
    (cat (n := 23) (BitVec.ofBool u) (cat (n := 22) (BitVec.ofBool b) (cat (n := 21) (BitVec.ofBool w)
      (cat (n := 20) (BitVec.ofBool l) (cat (n := 16) rn (cat rd (off.bits bit4)))))))))

/-- The formats `100 P U S W L Rn list` and `110 P U N W L Rn CRd cp imm8` (R97): top three bits, five bits, Rn, 16 bits. -/
def blockBody (top : BitVec 3) (p u s w l : Bool) (rn : BitVec 4) (low : BitVec 16) : BitVec 28 :=
  cat (n := 25) top (cat (n := 24) (BitVec.ofBool p) (cat (n := 23) (BitVec.ofBool u) (cat (n := 22) (BitVec.ofBool s)
    (cat (n := 21) (BitVec.ofBool w) (cat (n := 20) (BitVec.ofBool l) (cat rn low))))))

/-- The format `1110 opc1 CRn CRd cp opc2 x CRm` (R97). -/
def coprocessorBody (opc1 crn crd cp : BitVec 4) (opc2 : BitVec 3) (x : Bool) (crm : BitVec 4) : BitVec 28 :=
  cat (n := 24) 0b1110#4 (cat (n := 20) opc1 (cat (n := 16) crn (cat (n := 12) crd (cat (n := 8) cp
    (cat (n := 5) opc2 (cat (BitVec.ofBool x) crm))))))

/-- MRS and MSR, register (R97): `0001 0 R x0`, then four fields with bits 7:4 zero. -/
def statusBody (r toStatus : Bool) (f19 f15 f11 f3 : BitVec 4) : BitVec 28 :=
  cat (n := 23) 0b00010#5 (cat (n := 22) (BitVec.ofBool r) (cat (n := 21) (BitVec.ofBool toStatus) (cat (n := 20) 0b0#1
    (cat (n := 16) f19 (cat (n := 12) f15 (cat (n := 8) f11 (cat 0b0000#4 f3)))))))

/-- MSR, immediate (R97): `0011 0 R 10 field_mask 1111 rot imm8`. -/
def statusImmBody (r : Bool) (fieldMask sbo rot : BitVec 4) (imm8 : BitVec 8) : BitVec 28 :=
  cat (n := 23) 0b00110#5 (cat (n := 22) (BitVec.ofBool r) (cat (n := 20) 0b10#2
    (cat (n := 16) fieldMask (cat (n := 12) sbo (cat rot imm8)))))

/-- The P bit of an indexing mode (R223). -/
def Index.p : Index → Bool
  | .offset => true
  | .pre => true
  | .post => false

/-- The W bit of an indexing mode (R223). -/
def Index.w : Index → Bool
  | .offset => false
  | .pre => true
  | .post => false

/-- The condition an instruction carries; a word with cond = 1111 has none. -/
def Instr.cond : Instr → Option Cond
  | .reservedCond1111 _ => none
  | .nop c | .mul c .. | .mla c .. | .umull c .. | .umlal c .. | .smull c .. | .smlal c .. | .reservedMultiplyCmd c ..
  | .swp c .. | .swpb c .. | .reservedOp001001 c .. | .strh c .. | .ldrh c .. | .ldrsb c .. | .ldrsh c ..
  | .reservedExtraStoreSigned c .. | .mrs c .. | .msr c .. | .reservedDpCompareS0 c .. | .and c .. | .eor c ..
  | .sub c .. | .rsb c .. | .add c .. | .adc c .. | .sbc c .. | .rsc c .. | .tst c .. | .teq c .. | .cmp c .. | .cmn c ..
  | .orr c .. | .bic c .. | .mvn c .. | .mov c .. | .lsl c .. | .lsr c .. | .asr c .. | .rrx c .. | .ror c ..
  | .reservedUndefinedSpace c .. | .strt c .. | .str c .. | .ldrt c .. | .ldr c .. | .strbt c .. | .strb c ..
  | .ldrbt c .. | .ldrb c .. | .b c .. | .bl c .. | .stm c .. | .ldm c .. | .stc c .. | .ldc c .. | .cdp c .. | .mcr c ..
  | .mrc c .. | .swi c .. => some c

/-- The cond field of an instruction, bits 31:28 (R80). -/
def Instr.condBits (i : Instr) : BitVec 4 :=
  match i.cond with
  | none => 0b1111
  | some c => c.bits

/-- Bits 27:0 of an instruction, under `MEM_REG_BIT4 = bit4`. -/
def Instr.body (bit4 : Bool) : Instr → BitVec 28
  | .reservedCond1111 w => w
  | .nop _ => 0x1A00000
  | .mul _ s rd sbz rm rn => format1001Body (multiplyTop 0b000 s) rd sbz rm rn
  | .mla _ s rd ra rm rn => format1001Body (multiplyTop 0b001 s) rd ra rm rn
  | .umull _ s rd ra rm rn => format1001Body (multiplyTop 0b100 s) rd ra rm rn
  | .umlal _ s rd ra rm rn => format1001Body (multiplyTop 0b101 s) rd ra rm rn
  | .smull _ s rd ra rm rn => format1001Body (multiplyTop 0b110 s) rd ra rm rn
  | .smlal _ s rd ra rm rn => format1001Body (multiplyTop 0b111 s) rd ra rm rn
  | .reservedMultiplyCmd _ w => w
  | .swp _ rn rd sbz rm => format1001Body 0b00010000 rn rd sbz rm
  | .swpb _ rn rd sbz rm => format1001Body 0b00010100 rn rd sbz rm
  | .reservedOp001001 _ w => w
  | .strh _ idx u rn rd off => extraBody idx u false 0b01 rn rd off
  | .ldrh _ idx u rn rd off => extraBody idx u true 0b01 rn rd off
  | .ldrsb _ idx u rn rd off => extraBody idx u true 0b10 rn rd off
  | .ldrsh _ idx u rn rd off => extraBody idx u true 0b11 rn rd off
  | .reservedExtraStoreSigned _ w => w
  | .mrs _ r sbo rd sbzHi sbzLo => statusBody r false sbo rd sbzHi sbzLo
  | .msr _ r mask sbo (.reg sbz rm) => statusBody r true mask sbo sbz rm
  | .msr _ r mask sbo (.imm rot imm8) => statusImmBody r mask sbo rot imm8
  | .reservedDpCompareS0 _ w => w
  | .and _ s rn rd op2 => dataProcessingBody op2.isImm 0b0000 s rn rd op2.bits
  | .eor _ s rn rd op2 => dataProcessingBody op2.isImm 0b0001 s rn rd op2.bits
  | .sub _ s rn rd op2 => dataProcessingBody op2.isImm 0b0010 s rn rd op2.bits
  | .rsb _ s rn rd op2 => dataProcessingBody op2.isImm 0b0011 s rn rd op2.bits
  | .add _ s rn rd op2 => dataProcessingBody op2.isImm 0b0100 s rn rd op2.bits
  | .adc _ s rn rd op2 => dataProcessingBody op2.isImm 0b0101 s rn rd op2.bits
  | .sbc _ s rn rd op2 => dataProcessingBody op2.isImm 0b0110 s rn rd op2.bits
  | .rsc _ s rn rd op2 => dataProcessingBody op2.isImm 0b0111 s rn rd op2.bits
  | .tst _ rn sbz op2 => dataProcessingBody op2.isImm 0b1000 true rn sbz op2.bits
  | .teq _ rn sbz op2 => dataProcessingBody op2.isImm 0b1001 true rn sbz op2.bits
  | .cmp _ rn sbz op2 => dataProcessingBody op2.isImm 0b1010 true rn sbz op2.bits
  | .cmn _ rn sbz op2 => dataProcessingBody op2.isImm 0b1011 true rn sbz op2.bits
  | .orr _ s rn rd op2 => dataProcessingBody op2.isImm 0b1100 s rn rd op2.bits
  | .bic _ s rn rd op2 => dataProcessingBody op2.isImm 0b1110 s rn rd op2.bits
  | .mvn _ s sbz rd op2 => dataProcessingBody op2.isImm 0b1111 s sbz rd op2.bits
  | .mov _ s sbz rd (.imm rot imm8) => dataProcessingBody true 0b1101 s sbz rd (cat rot imm8)
  | .mov _ s sbz rd (.reg rm) => dataProcessingBody false 0b1101 s sbz rd (shiftImmBits .lsl 0 false rm)
  | .lsl _ s sbz rd amt rm => dataProcessingBody false 0b1101 s sbz rd (amt.bits .lsl rm)
  | .lsr _ s sbz rd amt rm => dataProcessingBody false 0b1101 s sbz rd (amt.bits .lsr rm)
  | .asr _ s sbz rd amt rm => dataProcessingBody false 0b1101 s sbz rd (amt.bits .asr rm)
  | .rrx _ s sbz rd rm => dataProcessingBody false 0b1101 s sbz rd (shiftImmBits .ror 0 false rm)
  | .ror _ s sbz rd amt rm => dataProcessingBody false 0b1101 s sbz rd (amt.bits .ror rm)
  | .reservedUndefinedSpace _ w => w
  | .strt _ u rn rd off => memoryBody bit4 false true u false false rn rd off
  | .str _ idx u rn rd off => memoryBody bit4 idx.p idx.w u false false rn rd off
  | .ldrt _ u rn rd off => memoryBody bit4 false true u false true rn rd off
  | .ldr _ idx u rn rd off => memoryBody bit4 idx.p idx.w u false true rn rd off
  | .strbt _ u rn rd off => memoryBody bit4 false true u true false rn rd off
  | .strb _ idx u rn rd off => memoryBody bit4 idx.p idx.w u true false rn rd off
  | .ldrbt _ u rn rd off => memoryBody bit4 false true u true true rn rd off
  | .ldrb _ idx u rn rd off => memoryBody bit4 idx.p idx.w u true true rn rd off
  | .b _ imm24 => cat 0b1010#4 imm24
  | .bl _ imm24 => cat 0b1011#4 imm24
  | .stm _ p u s w rn list => blockBody 0b100 p u s w false rn list
  | .ldm _ p u s w rn list => blockBody 0b100 p u s w true rn list
  | .stc _ p u n w rn crd cp imm8 => blockBody 0b110 p u n w false rn (cat crd (cat cp imm8 : BitVec 12))
  | .ldc _ p u n w rn crd cp imm8 => blockBody 0b110 p u n w true rn (cat crd (cat cp imm8 : BitVec 12))
  | .cdp _ opc1 crn crd cp opc2 crm => coprocessorBody opc1 crn crd cp opc2 false crm
  | .mcr _ opc1 crn rd cp opc2 crm => coprocessorBody (cat opc1 0b0#1) crn rd cp opc2 true crm
  | .mrc _ opc1 crn rd cp opc2 crm => coprocessorBody (cat opc1 0b1#1) crn rd cp opc2 true crm
  | .swi _ imm24 => cat 0b1111#4 imm24

/-- The word of an instruction. -/
def encodeWord (bit4 : Bool) (i : Instr) : Word :=
  cat i.condBits (i.body bit4)

/-- The bytes of an instruction, in address order. -/
def encode (bit4 : Bool) (i : Instr) : List Byte :=
  bytesOfWord (encodeWord bit4 i)

end Sys2Proof
end

