-- ==== Sys2Proof/Machine/State.lean ====
section
/-! DEFINITION. Everything the spec gives the machine, as plain data (10_state.md, 60_exceptions.md R340 to R342), the
reasons a step can stop, and the state after reset (10_state.md R36, 60_exceptions.md R348). -/

namespace Sys2Proof.Machine

/-- The seven modes of R340. -/
inductive Mode where
  | usr | fiq | irq | svc | abt | und | sys
  deriving DecidableEq, Repr

/-- Whose copy of a banked register is meant (R341): System mode has no copies of its own. -/
inductive Bank where
  | usr | fiq | irq | svc | abt | und
  deriving DecidableEq, Repr

/-- The exceptions: the kinds of R321, and Reset, IRQ and FIQ of R343. -/
inductive Exc where
  | reset | undefinedInstruction | swi | prefetchAbort | dataAbort | alignmentFault | irq | fiq
  deriving DecidableEq, Repr

/-- The condition flags (R28). -/
structure Flags where
  n : Bool
  z : Bool
  c : Bool
  v : Bool
  deriving DecidableEq, Repr

/-- The CPSR (R340). Bit 5 (T) and bits 27:8 are always 0 and need no storage; the mode field is one of the seven. -/
structure Cpsr where
  flags : Flags
  i : Bool
  f : Bool
  mode : Mode
  deriving DecidableEq, Repr

/-- A saved status register (R342). MSR may leave any value in T and M (R347); bits 27:8 are always 0. -/
structure Psr where
  flags : Flags
  i : Bool
  f : Bool
  t : Bool
  m : BitVec 5
  deriving DecidableEq, Repr

/-- The five SPSRs (R342). -/
structure SpsrFile where
  fiq : Psr
  irq : Psr
  svc : Psr
  abt : Psr
  und : Psr
  deriving DecidableEq, Repr

/-- One sample of the processor's inputs, taken before an instruction (R335, R348); true = asserted. -/
structure Inputs where
  reset : Bool
  fiq : Bool
  irq : Bool
  deriving DecidableEq, Repr

/-- R373 (a): whether the last instruction loaded User-bank registers (`fresh`), or the one executing is the next one
(`live`), which must not read a banked register. -/
inductive BankHazard where
  | clear | fresh | live
  deriving DecidableEq, Repr

/-- The machine.
`params`: the parameters of R6; no step changes them.
`regs`: the general registers of R341 (R20) but R15: 16 + 5 + 2 x 5 less one; `slot` says where each stands.
`pc`: the address of the instruction being executed (R24).
`cpsr`, `spsr`: the status registers (R30, R340, R342).
`mem`: the bytes that hold a value, by rising address (R33, R50).
`stored`: the addresses stored to since launch, rising (R65).
`inputs`: the input samples still to come, the next one first; none asserted after the last (R335; the model's own).
`hazard`: the caution of R373 (a).
`freeCount`: how many free values have been drawn (the model's own). -/
structure State where
  params : Params
  regs : Vector Word 30
  pc : Word
  cpsr : Cpsr
  spsr : SpsrFile
  mem : List Host.Cell
  stored : List Nat
  inputs : List Inputs
  hazard : BankHazard
  freeCount : Nat
  deriving DecidableEq, Repr

/-- Why the machine stops with a fault. -/
inductive Fault where
  /-- Profile U: `raise E(info)` ended the run with `Trap(E, info)` (R322). Raised by `raise` alone, on the state before
  the instruction. Safe: it is the outcome the spec gives. -/
  | trap (e : Exc) (info : Word)
  deriving DecidableEq, Repr

/-- Why the spec gives an instruction no meaning (R325). Every one is safe: the hardware may do anything, the model
stops. -/
inductive Refusal where
  /-- An instruction that has no meaning in the model yet. Raised by no arm. -/
  | notModelled (mnemonic : String)
  /-- A byte of memory that nothing has written was read (R35, R56): loads, SWP, fetch. -/
  | readUnwritten
  /-- A value written to the pc has bits 1:0 not 00 (R26): data processing, LDR, LDM, exception return. -/
  | pcUnaligned
  /-- A step at 0xFFFFFFFC that does not branch (R27): every advance of the pc. -/
  | pcWrap
  /-- The instruction's bytes include one stored to since launch (R65): fetch. -/
  | fetchOfModifiedCode
  /-- A should-be-zero or should-be-one field holds another value (R111). -/
  | sbzViolation
  /-- Register 15 in a register-shifted-register form (R136): data processing. -/
  | r15InRegisterShift
  /-- S = 1 with Rd = 15 in a mode without SPSR (R137, R346): data processing. -/
  | sWithRdPc
  /-- Register 15 in a multiply (R212). -/
  | r15InMultiply
  /-- Rd = Rn in a multiply (R212). -/
  | mulRdEqRn
  /-- Ra = Rd or Ra = Rn in a long multiply (R212). -/
  | mullRegs
  /-- Write-back with base register 15 (R225): loads and stores. -/
  | wbPc
  /-- Write-back with Rn = Rd (R225): loads and stores. -/
  | wbRdEqRn
  /-- Write-back with a register offset Rm = Rn (R225): loads and stores. -/
  | wbRmEqRn
  /-- Rm = 15 as an offset (R222, R225): loads and stores. -/
  | rmPc
  /-- Rd = 15 in STRB or LDRB (R225). -/
  | bytePc
  /-- Rd = 15 in STRH, LDRH, LDRSB or LDRSH (R225). -/
  | extraRdPc
  /-- Rd = 15 in STR, with no `STORE_PC_OFFSET` (R227). -/
  | storePc
  /-- P = 0 with W = 1 in an extra memory instruction (R221, R225). -/
  | extraP0W1
  /-- An empty register list, or base register 15 (R273): LDM, STM. -/
  | ldmList
  /-- LDM with write-back and the base in the list (R274). -/
  | ldmWbBaseInList
  /-- STM with write-back and the base in the list but not lowest (R274). -/
  | stmWbBaseNotLowest
  /-- Register 15 in the list of STM, with no `STORE_PC_OFFSET` (R274). -/
  | stmPc
  /-- LDM or STM with S = 1 at user level, or an exception return by LDM in System mode (R275, R346). -/
  | ldmSProfileU
  /-- W = 1 in a User-bank LDM or STM (R275: "W must be 0"; the spec gives no name). -/
  | ldmUserBankWb
  /-- A forbidden register combination of SWP or SWPB (R282). -/
  | swpRegs
  /-- Rd = 15 in LDRT, LDRBT, STRT or STRBT (R283). -/
  | tRdPc
  /-- Rd = 15 in MRS (R295). -/
  | mrsRdPc
  /-- MRS or MSR naming the SPSR in a mode without one (R295, R296, R342). -/
  | spsrInUserMode
  /-- Rm = 15 in MSR (R296). -/
  | msrRmPc
  /-- An illegal mode number written to the CPSR (R340, R346, R347): MSR, exception return. -/
  | badMode
  /-- T = 1 written to the CPSR (R30, R347): MSR, exception return. -/
  | tBit
  /-- `MISALIGNED_POLICY = armv4`: a halfword access at an odd address (R55; the spec gives no name). -/
  | misalignedHalfword
  /-- `MISALIGNED_POLICY = armv4`: LDR of the pc from a misaligned address (R55; the spec gives no name). -/
  | misalignedPcLoad
  deriving DecidableEq, Repr

/-- The outcome of a step or of an instruction. -/
abbrev Result := Host.Outcome State Fault Refusal

/-- A saved status register with every bit 0, the value the model names for reset (entry 3). -/
def Psr.zero : Psr := ⟨⟨false, false, false, false⟩, false, false, false, 0⟩

/-- The machine right after reset (R36 column S, R348, R362): Supervisor mode, both interrupts disabled, pc at the Reset
vector. Registers, flags and SPSRs are unspecified there and hold zero here (entry 3); nothing is in memory (entries 5
and 7). -/
def State.reset : State where
  params := Params.systemLevel
  regs := Vector.replicate 30 0
  pc := 0
  cpsr := ⟨⟨false, false, false, false⟩, true, true, .svc⟩
  spsr := ⟨Psr.zero, Psr.zero, Psr.zero, Psr.zero, Psr.zero⟩
  mem := []
  stored := []
  inputs := []
  hazard := .clear
  freeCount := 0

end Sys2Proof.Machine
end

