-- ==== Sys2Proof/Machine/Flags.lean ====
section
/-! DEFINITION. The condition table (45_condition_flags.md R302), the computation of every flag (00_scope.md R11,
45_condition_flags.md R306, 41_multiply.md R211), and the status registers as words (60_exceptions.md R340). -/

namespace Sys2Proof.Machine

/-- `ConditionPassed` (R302, R303). -/
def condPassed (c : Cond) (f : Flags) : Bool :=
  match c with
  | .eq => f.z
  | .ne => !f.z
  | .cs => f.c
  | .cc => !f.c
  | .mi => f.n
  | .pl => !f.n
  | .vs => f.v
  | .vc => !f.v
  | .hi => f.c && !f.z
  | .ls => !f.c || f.z
  | .ge => f.n == f.v
  | .lt => f.n != f.v
  | .gt => !f.z && f.n == f.v
  | .le => f.z || f.n != f.v
  | .al => true

/-- What `AddWithCarry` returns (R11). -/
structure AddResult where
  value : Word
  carry : Bool
  overflow : Bool
  deriving DecidableEq, Repr

/-- `AddWithCarry(a, b, cin)` (R11): the sums are exact, then narrowed. -/
def addWithCarry (a b : Word) (cin : Bool) : AddResult :=
  let usum : Nat := a.toNat + b.toNat + cin.toNat
  let ssum : Int := a.toInt + b.toInt + (cin.toNat : Int)
  { value := BitVec.ofNat 32 usum
    carry := decide (2 ^ 32 ≤ usum)
    overflow := decide (ssum < -2 ^ 31) || decide (2 ^ 31 - 1 < ssum) }

/-- N, Z, C of the logical class; V is kept (R138). `sco` is the shifter carry-out. -/
def logicalFlags (old : Flags) (result : Word) (sco : Bool) : Flags :=
  ⟨result.msb, result = 0#32, sco, old.v⟩

/-- N, Z, C, V of the arithmetic class (R139). -/
def arithFlags (r : AddResult) : Flags :=
  ⟨r.value.msb, r.value = 0#32, r.carry, r.overflow⟩

/-- The M field of a mode (R340). -/
def Mode.bits : Mode → BitVec 5
  | .usr => 0b10000
  | .fiq => 0b10001
  | .irq => 0b10010
  | .svc => 0b10011
  | .abt => 0b10111
  | .und => 0b11011
  | .sys => 0b11111

/-- The mode an M field names; any other value is illegal (R340). -/
def Mode.ofBits (v : BitVec 5) : Option Mode :=
  if v = 0b10000#5 then some .usr
  else if v = 0b10001#5 then some .fiq
  else if v = 0b10010#5 then some .irq
  else if v = 0b10011#5 then some .svc
  else if v = 0b10111#5 then some .abt
  else if v = 0b11011#5 then some .und
  else if v = 0b11111#5 then some .sys
  else none

/-- The flags in bits 31:28 of a word (R340). -/
def Flags.ofWord (w : Word) : Flags :=
  ⟨w.getLsbD 31, w.getLsbD 30, w.getLsbD 29, w.getLsbD 28⟩

/-- The four flags as N, Z, C, V from the top (R340). -/
def Flags.bits (f : Flags) : BitVec 4 :=
  cat (n := 3) (BitVec.ofBool f.n) (cat (n := 2) (BitVec.ofBool f.z) (cat (BitVec.ofBool f.c) (BitVec.ofBool f.v)))

/-- A status register as a word: N Z C V, twenty zeros, I F T M (R340). -/
def Psr.toWord (p : Psr) : Word :=
  cat (n := 28) p.flags.bits (cat (n := 8) 0#20 (cat (n := 7) (BitVec.ofBool p.i) (cat (n := 6) (BitVec.ofBool p.f)
    (cat (BitVec.ofBool p.t) p.m))))

/-- The status register a word gives; bits 27:8 are ignored (R340). -/
def Psr.ofWord (w : Word) : Psr :=
  ⟨Flags.ofWord w, w.getLsbD 7, w.getLsbD 6, w.getLsbD 5, w.extractLsb' 0 5⟩

/-- The CPSR with its hard-wired T bit (R340). -/
def Cpsr.toPsr (c : Cpsr) : Psr :=
  ⟨c.flags, c.i, c.f, false, c.mode.bits⟩

/-- The bytes of a status register that `field_mask` selects (R296): f 31:24, s 23:16, x 15:8, c 7:0. -/
def fieldMaskWord (mask : BitVec 4) : Word :=
  let byte (b : Bool) : Byte := if b then 0xFF else 0
  cat (n := 24) (byte (mask.getLsbD 3)) (cat (n := 16) (byte (mask.getLsbD 2))
    (cat (byte (mask.getLsbD 1)) (byte (mask.getLsbD 0))))

/-- A status register with the selected bytes taken from `operand` (R347). -/
def Psr.writeFields (p : Psr) (mask : BitVec 4) (operand : Word) : Psr :=
  let m := fieldMaskWord mask
  Psr.ofWord ((p.toWord &&& ~~~m) ||| (operand &&& m))

end Sys2Proof.Machine
end

