-- ==== Sys2Proof/Machine/Ops.lean ====
section
/-! DEFINITION. The named operations over the state: registers (10_state.md R25, R26, 60_exceptions.md R341), the pc (R27),
memory (20_memory.md R50 to R58), taking an exception (60_exceptions.md R320, R343, R344), Reset (R348) and the return from
an exception (R346). -/

namespace Sys2Proof.Machine

/-! ## Mode and bank -/

/-- The mode the processor is in. Profile U has one level, which behaves as User mode (R328). -/
def State.mode (s : State) : Mode :=
  match s.params.profile with
  | .U => .usr
  | .S => s.cpsr.mode

/-- The bank a mode's registers are in; System mode uses the User registers (R341). -/
def Mode.bank : Mode → Bank
  | .usr => .usr
  | .fiq => .fiq
  | .irq => .irq
  | .svc => .svc
  | .abt => .abt
  | .und => .und
  | .sys => .usr

/-- The bank of the current mode. -/
def State.bank (s : State) : Bank := s.mode.bank

/-- The CPSR as an instruction sees it: in profile U, I = F = T = 0 and M = 10000 (R295, R30, D12). -/
def State.psr (s : State) : Psr :=
  match s.params.profile with
  | .U => ⟨s.cpsr.flags, false, false, false, Mode.usr.bits⟩
  | .S => s.cpsr.toPsr

/-- The SPSR of a bank; User and System mode have none (R342). -/
def SpsrFile.get (f : SpsrFile) : Bank → Option Psr
  | .usr => none
  | .fiq => some f.fiq
  | .irq => some f.irq
  | .svc => some f.svc
  | .abt => some f.abt
  | .und => some f.und

/-- Write the SPSR of a bank; the User bank has none to write (R342). -/
def SpsrFile.set (f : SpsrFile) (p : Psr) : Bank → SpsrFile
  | .usr => f
  | .fiq => { f with fiq := p }
  | .irq => { f with irq := p }
  | .svc => { f with svc := p }
  | .abt => { f with abt := p }
  | .und => { f with und := p }

/-- The SPSR of the current mode, if it has one (R342). -/
def State.spsrNow (s : State) : Option Psr := s.spsr.get s.bank

/-! ## General registers -/

/-- The place of a bank's R13 or R14 among six copies (R341). -/
def Bank.index : Bank → Fin 6
  | .usr => 0
  | .fiq => 1
  | .irq => 2
  | .svc => 3
  | .abt => 4
  | .und => 5

/-- Where `x[r]` of a bank stands among the 30 registers of `regs` (R341): R0 to R7 at 0 to 7; R8 to R12 at 8 to 12, those
of FIQ at 13 to 17; the six R13 from 18; the six R14 from 24. `x[15]` does not exist (R10): 15 shares 14's place and no
rule uses it. -/
def slot (b : Bank) (r : Reg) : Fin 30 :=
  if r.toNat < 8 then Fin.ofNat 30 r.toNat
  else if r.toNat < 13 then (if b = .fiq then Fin.ofNat 30 (r.toNat + 5) else Fin.ofNat 30 r.toNat)
  else if r.toNat = 13 then Fin.ofNat 30 (18 + b.index)
  else Fin.ofNat 30 (24 + b.index)

/-- `x[r]` of a bank (R20, R341). -/
def State.regIn (s : State) (b : Bank) (r : Reg) : Word := s.regs.get (slot b r)

/-- A bank's own copy of a register stands elsewhere than the User copy (R341). -/
def isBanked (b : Bank) (r : Reg) : Bool := slot b r ≠ slot .usr r

/-- `rd(r)`, the operand read (R25): `pc + 8` for 15, else `x[r]` of the current mode. In the instruction after a User-bank
LDM a banked register reads as a free value (R373 (a), entry 11). -/
def State.reg (s : State) (r : Reg) : Word :=
  if r = 15#4 then s.pc + 8#32
  else if s.hazard = .live && isBanked s.bank r then Config.staleBank s.freeCount r
  else s.regIn s.bank r

/-- What a User-bank transfer reads of register `r` (44_miscellaneous.md R275): the User copy, with the caution of R373 (a)
where the current mode has a copy of its own (entry 11). -/
def State.userReg (s : State) (r : Reg) : Word :=
  if s.hazard = .live && isBanked s.bank r then Config.staleBank s.freeCount r else s.regIn .usr r

/-- The caution of R373 (a) as the next instruction starts: it lasts for one instruction. -/
def BankHazard.tick : BankHazard → BankHazard
  | .fresh => .live
  | .live => .clear
  | .clear => .clear

/-- The state in which the next instruction executes (R373 (a)). -/
def State.ticked (s : State) : State := { s with hazard := s.hazard.tick }

/-- `x[r] <- v` in a bank; register 15 is not written here (R10). -/
def State.setRegIn (s : State) (b : Bank) (r : Reg) (v : Word) : State :=
  if r = 15#4 then s else { s with regs := s.regs.set (slot b r) v }

/-- `x[r] <- v` in the current mode. -/
def State.setReg (s : State) (r : Reg) (v : Word) : State := s.setRegIn s.bank r v

/-- Make `v` the address of the next instruction. -/
def State.setPc (s : State) (v : Word) : State := { s with pc := v }

/-- Write N, Z, C and V together (R306). -/
def State.setFlags (s : State) (f : Flags) : State := { s with cpsr := { s.cpsr with flags := f } }

/-- Write the flags when the S bit is 1 (R304). -/
def State.setFlagsWhen (s : State) (sBit : Bool) (f : Flags) : State := if sBit then s.setFlags f else s

/-- Write the whole CPSR. -/
def State.setCpsr (s : State) (c : Cpsr) : State := { s with cpsr := c }

/-- Write the SPSR of a bank (R342). -/
def State.setSpsr (s : State) (b : Bank) (p : Psr) : State := { s with spsr := s.spsr.set p b }

/-- Note that a free value was drawn. -/
def State.drawn (s : State) : State := { s with freeCount := s.freeCount + 1 }

/-! ## The end of an instruction -/

/-- `pc <- pc + 4` (R12, R27): refused at the top of the address space (D5). DESIGN CHOICE: R324 gives `pc_wrap` no place in
its order; here it comes last, so that every other outcome of a step there is taken first (entry 26). -/
def advance (s : State) : Result :=
  if s.pc = 0xFFFFFFFC#32 then .refused .pcWrap else .next (s.setPc (s.pc + 4#32))

/-- `BranchWritePC(v)` (R26). -/
def branchWritePC (v : Word) (s : State) : Result :=
  if v.extractLsb' 0 2 = 0#2 then .next (s.setPc v) else .refused .pcUnaligned

/-- `wr(r, v)` as an instruction's last write (R26, R12). -/
def writeResult (r : Reg) (v : Word) (s : State) : Result :=
  if r = 15#4 then branchWritePC v s else advance (s.setReg r v)

/-- An instruction under its condition: when it fails, only the pc advances (R301, R303). -/
def guarded (c : Cond) (s : State) (k : Result) : Result :=
  if condPassed c s.cpsr.flags then k else advance s

/-- A table of refusals: the first whose case holds stops the instruction before any effect (R324 (8), D10). -/
def checks : List (Bool × Refusal) → Result → Result
  | [], k => k
  | (bad, r) :: rest, k => if bad then .refused r else checks rest k

/-! ## Taking an exception -/

/-- The vector of an exception (R343; R321 for `AlignmentFault`). -/
def Exc.vector : Exc → Word
  | .reset => 0x00
  | .undefinedInstruction => 0x04
  | .swi => 0x08
  | .prefetchAbort => 0x0C
  | .dataAbort => 0x10
  | .alignmentFault => 0x10
  | .irq => 0x18
  | .fiq => 0x1C

/-- The mode an exception enters (R343). -/
def Exc.mode : Exc → Mode
  | .reset => .svc
  | .undefinedInstruction => .und
  | .swi => .svc
  | .prefetchAbort => .abt
  | .dataAbort => .abt
  | .alignmentFault => .abt
  | .irq => .irq
  | .fiq => .fiq

/-- The value an exception writes to `R14_<mode>` (R343); at an interrupt `pc` is the address of the next instruction to
execute. Reset writes an unspecified value. -/
def Exc.link (e : Exc) (s : State) : Word :=
  match e with
  | .reset => Config.freeWord s.freeCount
  | .undefinedInstruction => s.pc + 4#32
  | .swi => s.pc + 4#32
  | .prefetchAbort => s.pc + 4#32
  | .dataAbort => s.pc + 8#32
  | .alignmentFault => s.pc + 8#32
  | .irq => s.pc + 4#32
  | .fiq => s.pc + 4#32

/-- Whether an exception disables FIQ (R343, R344). -/
def Exc.masksFiq : Exc → Bool
  | .reset => true
  | .fiq => true
  | .undefinedInstruction | .swi | .prefetchAbort | .dataAbort | .alignmentFault | .irq => false

/-- Exception entry (R344): link and SPSR of the entered mode, the CPSR, the vector. Nothing else changes. -/
def enterException (e : Exc) (s : State) : State :=
  let b := e.mode.bank
  { s with
    regs := s.regs.set (slot b 14#4) (e.link s)
    spsr := s.spsr.set s.cpsr.toPsr b
    cpsr := { s.cpsr with i := true, f := s.cpsr.f || e.masksFiq, mode := e.mode }
    pc := e.vector }

/-- `raise E(info)` (R320): in profile U the terminal outcome `Trap(E, info)` (R322), in profile S the entry (R344). -/
def raise (e : Exc) (info : Word) (s : State) : Result :=
  match s.params.profile with
  | .U => .fault (.trap e info)
  | .S => .next (enterException e s)

/-- The registers, flags and SPSRs left unspecified: each a free value (R348, R36). DESIGN CHOICE: the caution of R373 (a)
ends here; the spec does not say whether it survives the reset input (entry 11). -/
def State.scrambled (s : State) : State :=
  let w (k : Nat) : Word := Config.freeWord (s.freeCount + k)
  { s with
    regs := Vector.ofFn fun j => w j.val
    cpsr := { s.cpsr with flags := Flags.ofWord (w 30) }
    spsr := ⟨Psr.ofWord (w 31), Psr.ofWord (w 32), Psr.ofWord (w 33), Psr.ofWord (w 34), Psr.ofWord (w 35)⟩
    hazard := .clear
    freeCount := s.freeCount + 36 }

/-- The Reset exception (R348): R344's entry, and every register unspecified. Memory stays (entry 9), the caution of R373 (a)
does not (entry 11). -/
def takeReset (s : State) : State := (enterException .reset s).scrambled

/-- The CPSR a status register restores: the mode must be legal and T must be 0 (R346, R30). -/
def Psr.toCpsr (p : Psr) : Except Refusal Cpsr :=
  if p.t then .error .tBit
  else
    match Mode.ofBits p.m with
    | none => .error .badMode
    | some m => .ok ⟨p.flags, p.i, p.f, m⟩

/-- Exception return (R346): `pc <- target` and the CPSR from the SPSR of the current mode, in one step. `noSpsr` is the
refusal in a mode that has none. -/
def exceptionReturn (noSpsr : Refusal) (target : Word) (s : State) : Result :=
  match s.spsrNow with
  | none => .refused noSpsr
  | some p =>
    if target.extractLsb' 0 2 = 0#2 then
      match p.toCpsr with
      | .error r => .refused r
      | .ok c => .next ((s.setCpsr c).setPc target)
    else .refused .pcUnaligned

/-! ## Memory -/

/-- The byte at an address, if one is listed (R33). -/
def Memory.read : List Host.Cell → Nat → Option Byte
  | [], _ => Config.unlisted
  | (k, v) :: rest, a => if k = a then some v else Memory.read rest a

/-- Put a byte at an address, keeping the addresses rising. -/
def Memory.write : List Host.Cell → Nat → Byte → List Host.Cell
  | [], a, v => [(a, v)]
  | (k, w) :: rest, a, v =>
    if a < k then (a, v) :: (k, w) :: rest
    else if a = k then (a, v) :: rest
    else (k, w) :: Memory.write rest a v

/-- The canonical form of a memory: addresses strictly rising and inside the address space (R50), and no entry that reads
as an unlisted address does. -/
def Memory.wf (m : List Host.Cell) : Bool :=
  decide ((m.map Prod.fst).Pairwise (· < ·)) && m.all fun c => decide (c.1 < 2 ^ 32) && (some c.2 != Config.unlisted)

/-- Put an address into a set of addresses, keeping them rising. -/
def AddrSet.insert : List Nat → Nat → List Nat
  | [], a => [a]
  | k :: rest, a => if a < k then a :: k :: rest else if a = k then k :: rest else k :: AddrSet.insert rest a

/-- The canonical form of a set of addresses. -/
def AddrSet.wf (l : List Nat) : Bool :=
  decide (l.Pairwise (· < ·)) && l.all fun a => decide (a < 2 ^ 32)

/-- The byte at an address (R50); none where nothing has written one (R35). -/
def State.byteAt (s : State) (a : Word) : Option Byte := Memory.read s.mem a.toNat

/-- Store one byte (R57), and note that the address has been stored to (R65). -/
def State.storeByte (s : State) (a : Word) (v : Byte) : State :=
  { s with mem := Memory.write s.mem a.toNat v, stored := AddrSet.insert s.stored a.toNat }

/-- Is an address in `MEMMAP` (R51)? -/
def mapped (p : Params) (a : Word) : Bool :=
  p.memMap.any fun r => decide (r.base ≤ a.toNat) && decide (a.toNat < r.base + r.size)

/-- The width of an access (R52). -/
inductive Width where
  | byte | half | word
  deriving DecidableEq, Repr

/-- The number of bytes of an access (R52). -/
def Width.bytes : Width → Nat
  | .byte => 1
  | .half => 2
  | .word => 4

/-- What an access gives: a value, an exception raised with its info (R321), or a refusal. -/
inductive Access (α : Type) where
  | ok (v : α)
  | raises (e : Exc) (info : Word)
  | refuses (r : Refusal)
  deriving DecidableEq, Repr

/-- One access after another: the first that gives no value decides. -/
def Access.bind {α β : Type} (x : Access α) (f : α → Access β) : Access β :=
  match x with
  | .ok v => f v
  | .raises e info => .raises e info
  | .refuses r => .refuses r

/-- Go on with the value of an access; otherwise the exception or the refusal on the unchanged state `s` (R320). -/
def Access.run {α : Type} (x : Access α) (s : State) (k : α → Result) : Result :=
  match x with
  | .ok v => k v
  | .raises e info => raise e info s
  | .refuses r => .refused r

/-- The address with bits 1:0 cleared (R55). -/
def alignDown (a : Word) : Word := a &&& 0xFFFFFFFC#32

/-- The address an access of a width goes to (R54, R55). -/
def alignedAddress (s : State) (w : Width) (a : Word) : Access Word :=
  match w with
  | .byte => .ok a
  | .half =>
    if a.getLsbD 0 then
      match s.params.misaligned with
      | .fault => .raises .alignmentFault a
      | .armv4 => .refuses .misalignedHalfword
    else .ok a
  | .word =>
    if a.extractLsb' 0 2 = 0#2 then .ok a
    else
      match s.params.misaligned with
      | .fault => .raises .alignmentFault a
      | .armv4 => .ok (alignDown a)

/-- Are all `n` bytes from `a` in `MEMMAP`? -/
def allMapped (p : Params) (a : Word) (n : Nat) : Bool :=
  (List.range n).all fun k => mapped p (a + BitVec.ofNat 32 k)

/-- Checks (1) and (2) of R56 and R57: alignment, then `MEMMAP`. Gives the address accessed. -/
def checkAccess (s : State) (w : Width) (a : Word) : Access Word :=
  (alignedAddress s w a).bind fun a' => if allMapped s.params a' w.bytes then .ok a' else .raises .dataAbort a'

/-- The bytes at `a`, little-endian (R53), zero-extended to a word; none if one of them is unwritten. -/
def State.loadBytes (s : State) (w : Width) (a : Word) : Option Word :=
  match w with
  | .byte => (s.byteAt a).map fun b0 => cat 0#24 b0
  | .half =>
    match s.byteAt a, s.byteAt (a + 1#32) with
    | some b0, some b1 => some (cat (n := 16) 0#16 (cat b1 b0))
    | _, _ => none
  | .word =>
    match s.byteAt a, s.byteAt (a + 1#32), s.byteAt (a + 2#32), s.byteAt (a + 3#32) with
    | some b0, some b1, some b2, some b3 => some (wordOfBytes b0 b1 b2 b3)
    | _, _, _, _ => none

/-- Store the low bytes of `v` at `a`, little-endian (R53, R57). -/
def State.storeBytes (s : State) (w : Width) (a : Word) (v : Word) : State :=
  match w with
  | .byte => s.storeByte a (v.extractLsb' 0 8)
  | .half => (s.storeByte a (v.extractLsb' 0 8)).storeByte (a + 1#32) (v.extractLsb' 8 8)
  | .word =>
    (((s.storeByte a (v.extractLsb' 0 8)).storeByte (a + 1#32) (v.extractLsb' 8 8)).storeByte (a + 2#32)
      (v.extractLsb' 16 8)).storeByte (a + 3#32) (v.extractLsb' 24 8)

/-- Read the bytes of a checked access; `refuse(read_unwritten)` (R56 (3)). -/
def loadChecked (s : State) (w : Width) (a : Word) : Access Word :=
  match s.loadBytes w a with
  | some v => .ok v
  | none => .refuses .readUnwritten

/-- `MemRead` (R56), zero-extended to a word. -/
def memRead (s : State) (w : Width) (a : Word) : Access Word :=
  (checkAccess s w a).bind (loadChecked s w)

/-- `MemWrite` (R57): the state with the low bytes of `v` stored. -/
def memWrite (s : State) (w : Width) (a : Word) (v : Word) : Access State :=
  (checkAccess s w a).bind fun a' => .ok (s.storeBytes w a' v)

/-- The value LDR or SWP of a word makes of the word read: rotated right by `8 * a[1:0]`, which is nothing when `a` is
aligned (R55). -/
def rotateLoaded (w : Width) (a v : Word) : Word :=
  match w with
  | .word => v.rotateRight (8 * (a.extractLsb' 0 2).toNat)
  | .half => v
  | .byte => v

/-- The value a single load puts in its register, before extension (R224, R55). -/
def loadValue (s : State) (w : Width) (a : Word) : Access Word :=
  (memRead s w a).bind fun v => .ok (rotateLoaded w a v)

/-- The k of `STORE_PC_OFFSET` (93 U13). -/
def storePcValue : StorePcOffset → Word
  | .none => 0
  | .eight => 8
  | .twelve => 12

/-- The value a store of register `r` takes: `pc + k` for 15 (R227, 93 U13), else `x[r]`. -/
def State.storeReg (s : State) (r : Reg) : Word :=
  if r = 15#4 then s.pc + storePcValue s.params.storePc else s.reg r

/-! ## Launch and placement -/

/-- The launch state of profile U (R361): `pc = ENTRY`, memory the image, registers and flags what the launch supplies.
A theorem about a program quantifies over the values nothing supplies (D14). -/
def State.launch (params : Params) (entry : Word) (image : List Host.Cell) (regs : Vector Word 30) (flags : Flags) :
    State where
  params := { params with profile := .U }
  regs := regs
  pc := entry
  cpsr := ⟨flags, false, false, .usr⟩
  spsr := ⟨Psr.zero, Psr.zero, Psr.zero, Psr.zero, Psr.zero⟩
  mem := image.foldl (fun m c => Memory.write m c.1 c.2) []
  stored := []
  inputs := []
  hazard := .clear
  freeCount := 0

/-- The bytes of `w` put at `pc` from outside, as a loader does: not stored by the program, mapped, and no input asserted
in the step that fetches them. -/
def State.placeWord (s : State) (w : Word) : State :=
  let at_ (k : Nat) : Nat := (s.pc + BitVec.ofNat 32 k).toNat
  let m := Memory.write s.mem (at_ 0) (w.extractLsb' 0 8)
  let m := Memory.write m (at_ 1) (w.extractLsb' 8 8)
  let m := Memory.write m (at_ 2) (w.extractLsb' 16 8)
  let m := Memory.write m (at_ 3) (w.extractLsb' 24 8)
  { s with
    mem := m
    stored := s.stored.filter fun a => !decide (a = at_ 0 ∨ a = at_ 1 ∨ a = at_ 2 ∨ a = at_ 3)
    params :=
      if allMapped s.params s.pc 4 then s.params
      else { s.params with memMap := ⟨s.pc.toNat, 4⟩ :: s.params.memMap }
    inputs := [] }

end Sys2Proof.Machine
end

