-- ==== Sys2Proof/Machine/Operands.lean ====
section
/-! DEFINITION. Every operand form: the shifter (40_data_processing.md R132 to R134), the memory offsets and indexing modes
(42_memory_instructions.md R222, R223), the register list (44_miscellaneous.md R273). -/

namespace Sys2Proof.Machine

/-- A value of the shifter and its carry-out (R132). -/
structure Shifted where
  value : Word
  carry : Bool
  deriving DecidableEq, Repr

/-- The word with every bit equal to bit 31 of `m` (R133, R134). -/
def signFill (m : Word) : Word := if m.msb then 0xFFFFFFFF else 0

/-- `ShiftImm(m, sh, shamt5)` (R133); `c` is the flag C. -/
def shiftByImm (sh : ShiftType) (shamt5 : BitVec 5) (m : Word) (c : Bool) : Shifted :=
  let n := shamt5.toNat
  match sh with
  | .lsl => if n = 0 then ⟨m, c⟩ else ⟨m <<< n, m.getLsbD (32 - n)⟩
  | .lsr => if n = 0 then ⟨0, m.msb⟩ else ⟨m >>> n, m.getLsbD (n - 1)⟩
  | .asr => if n = 0 then ⟨signFill m, m.msb⟩ else ⟨m.sshiftRight n, m.getLsbD (n - 1)⟩
  | .ror => if n = 0 then ⟨cat (BitVec.ofBool c) (m.extractLsb' 1 31), m.getLsbD 0⟩
            else ⟨m.rotateRight n, m.getLsbD (n - 1)⟩

/-- `ShiftReg(m, sh, amount)` (R134); `amount` is 0 to 255 and `c` the flag C. -/
def shiftByReg (sh : ShiftType) (amount : Nat) (m : Word) (c : Bool) : Shifted :=
  if amount = 0 then ⟨m, c⟩
  else
    match sh with
    | .lsl =>
      if amount < 32 then ⟨m <<< amount, m.getLsbD (32 - amount)⟩
      else if amount = 32 then ⟨0, m.getLsbD 0⟩ else ⟨0, false⟩
    | .lsr =>
      if amount < 32 then ⟨m >>> amount, m.getLsbD (amount - 1)⟩
      else if amount = 32 then ⟨0, m.msb⟩ else ⟨0, false⟩
    | .asr =>
      if amount < 32 then ⟨m.sshiftRight amount, m.getLsbD (amount - 1)⟩ else ⟨signFill m, m.msb⟩
    | .ror =>
      let k := amount % 32
      if k = 0 then ⟨m, m.msb⟩ else ⟨m.rotateRight k, m.getLsbD (k - 1)⟩

/-- The rotated immediate and its carry-out (R86). -/
def rotatedImm (rot : BitVec 4) (imm8 : BitVec 8) (c : Bool) : Shifted :=
  let v : Word := (cat 0#24 imm8 : Word).rotateRight (2 * rot.toNat)
  ⟨v, if rot = 0#4 then c else v.msb⟩

/-- `Shifter(instr)` (R132). -/
def evalSrc2 (op2 : Src2) (s : State) : Shifted :=
  match op2 with
  | .imm rot imm8 => rotatedImm rot imm8 s.cpsr.flags.c
  | .shiftImm sh shamt5 rm => shiftByImm sh shamt5 (s.reg rm) s.cpsr.flags.c
  | .shiftReg sh rs rm => shiftByReg sh ((s.reg rs).extractLsb' 0 8).toNat (s.reg rm) s.cpsr.flags.c

/-- The register-shifted-register form with a 15 in any of its register fields (R136); `named` are Rd and Rn. -/
def r15InShift (op2 : Src2) (named : List Reg) : Bool :=
  match op2 with
  | .imm _ _ => false
  | .shiftImm _ _ _ => false
  | .shiftReg _ rs rm => (rs :: rm :: named).any (· = 15#4)

/-- The Src2 of a MOV (R103). -/
def movSrc2 : MovSrc → Src2
  | .imm rot imm8 => .imm rot imm8
  | .reg rm => .shiftImm .lsl 0#5 rm

/-- The Src2 of LSL, LSR, ASR or ROR (R103). -/
def amountSrc2 (sh : ShiftType) (rm : Reg) : ShiftAmount → Src2
  | .imm n => .shiftImm sh n rm
  | .reg rs => .shiftReg sh rs rm

/-- The offset of a memory instruction (R222); a shifted register uses the value only. -/
def memOffset (off : MemOffset) (s : State) : Word :=
  match off with
  | .imm imm12 => cat 0#20 imm12
  | .reg sh shamt5 rm => (shiftByImm sh shamt5 (s.reg rm) s.cpsr.flags.c).value

/-- The offset register of a memory instruction, if it has one. -/
def memOffsetReg : MemOffset → Option Reg
  | .imm _ => none
  | .reg _ _ rm => some rm

/-- The offset of an extra memory instruction (R94, R222). -/
def extraOffset (off : ExtraOffset) (s : State) : Word :=
  match off with
  | .imm imm8 => cat 0#24 imm8
  | .reg _ rm => s.reg rm

/-- The offset register of an extra memory instruction, if it has one. -/
def extraOffsetReg : ExtraOffset → Option Reg
  | .imm _ => none
  | .reg _ rm => some rm

/-- The address of an access and the base written back, if any (R223). -/
structure Addressing where
  adr : Word
  writeBack : Option Word
  deriving DecidableEq, Repr

/-- The indexing modes (R223): up or down by U, modulo 2^32 (R222). -/
def addressing (idx : Index) (u : Bool) (base offset : Word) : Addressing :=
  let offAddr := if u then base + offset else base - offset
  match idx with
  | .offset => ⟨offAddr, none⟩
  | .pre => ⟨offAddr, some offAddr⟩
  | .post => ⟨base, some offAddr⟩

/-- Does an indexing mode write the base back (R223)? -/
def writesBack : Index → Bool
  | .offset => false
  | .pre => true
  | .post => true

/-- Write the base back, if the mode asks for it (R224). -/
def State.writeBack (s : State) (rn : Reg) (m : Addressing) : State :=
  match m.writeBack with
  | none => s
  | some v => s.setReg rn v

/-- The indexing mode of an extra memory instruction. P = 0 with W = 1 is refused before it is used (R225). -/
def extraMode : ExtraIndex → Index
  | .mode idx => idx
  | .p0w1 => .post

/-- The registers of a list, ascending (R273). -/
def blockRegs (list : BitVec 16) : List Reg :=
  ((List.range 16).filter fun k => list.getLsbD k).map (BitVec.ofNat 4)

/-- Four times the number of registers in a list. -/
def blockSize (list : BitVec 16) : Word := BitVec.ofNat 32 (4 * (blockRegs list).length)

/-- The lowest address of a block transfer (R273). -/
def blockStart (p u : Bool) (base : Word) (list : BitVec 16) : Word :=
  match p, u with
  | false, true => base
  | true, true => base + 4#32
  | false, false => base - blockSize list + 4#32
  | true, false => base - blockSize list

/-- The base a block transfer writes back (R273). -/
def blockWriteBack (u : Bool) (base : Word) (list : BitVec 16) : Word :=
  if u then base + blockSize list else base - blockSize list

/-- Each register of a list with its address, ascending (R273). -/
def blockTransfers (start : Word) : List Reg → List (Reg × Word)
  | [] => []
  | r :: rest => (r, start) :: blockTransfers (start + 4#32) rest

end Sys2Proof.Machine
end

