-- ==== Sys2Proof/Machine/Block.lean ====
section
/-! DEFINITION. Load and store multiple (44_miscellaneous.md R271 to R275) and swap (R280 to R282). -/

namespace Sys2Proof.Machine

/-! ## Shared operations of the block transfers -/

/-- What is refused of LDM (R273, R274, R275, R346). -/
def ldmChecks (s w : Bool) (rn : Reg) (list : BitVec 16) (st : State) : List (Bool × Refusal) :=
  [(list = 0#16 || rn = 15#4, .ldmList),
   (s && (st.mode = .usr || (list.getLsbD 15 && st.mode = .sys)), .ldmSProfileU),
   (s && !list.getLsbD 15 && w, .ldmUserBankWb),
   (w && list.getLsbD rn.toNat, .ldmWbBaseInList)]

/-- What is refused of STM (R273, R274, R275; 93 U13). -/
def stmChecks (s w : Bool) (rn : Reg) (list : BitVec 16) (st : State) : List (Bool × Refusal) :=
  [(list = 0#16 || rn = 15#4, .ldmList),
   (s && st.mode = .usr, .ldmSProfileU),
   (s && w, .ldmUserBankWb),
   (w && list.getLsbD rn.toNat && (blockRegs list).head? ≠ some rn, .stmWbBaseNotLowest),
   (list.getLsbD 15 && st.params.storePc = .none, .stmPc)]

/-- Each register of a transfer with its address (R273). -/
def blockPlan (p u : Bool) (rn : Reg) (list : BitVec 16) (st : State) : List (Reg × Word) :=
  blockTransfers (blockStart p u (st.reg rn) list) (blockRegs list)

/-- The checks of every access come before any transfer (R274, D31): the registers with the addresses accessed. -/
def checkBlock (st : State) : List (Reg × Word) → Access (List (Reg × Word))
  | [] => .ok []
  | (r, a) :: rest =>
    (checkAccess st .word a).bind fun a' => (checkBlock st rest).bind fun l => .ok ((r, a') :: l)

/-- Each register with the word loaded for it. -/
def loadBlock (st : State) : List (Reg × Word) → Access (List (Reg × Word))
  | [] => .ok []
  | (r, a) :: rest =>
    (loadChecked st .word a).bind fun v => (loadBlock st rest).bind fun l => .ok ((r, v) :: l)

/-- Write each register of a bank; register 15 is left to the end of the instruction. -/
def setRegsIn (b : Bank) : List (Reg × Word) → State → State
  | [], st => st
  | (r, v) :: rest, st => setRegsIn b rest (st.setRegIn b r v)

/-- Store each register's value, given by `value` from the state before the first store (R274: the original value of the base). -/
def storeBlock (value : Reg → Word) : List (Reg × Word) → State → State
  | [], st => st
  | (r, a) :: rest, st => storeBlock value rest (st.storeBytes .word a (value r))

/-- The value a block store takes of a register: the User copy with S = 1 (R275), `pc + k` for 15 (93 U13). -/
def blockValue (s : Bool) (st : State) (r : Reg) : Word :=
  if s && r ≠ 15#4 then st.userReg r else st.storeReg r

/-- Write the base back in the current mode (R273). -/
def blockBase (u w : Bool) (rn : Reg) (list : BitVec 16) (base : Word) (st : State) : State :=
  if w then st.setReg rn (blockWriteBack u base list) else st

/-- The word loaded for register 15. -/
def loadedPc : List (Reg × Word) → Word
  | [] => 0
  | (r, v) :: rest => if r = 15#4 then v else loadedPc rest

/-- The end of LDM once the words are read: registers, base, then the pc (R274), the exception return (R275 (a), R346), or
the User bank with its caution (R275 (b), R373 (a)). -/
def ldmWrite (u s w : Bool) (rn : Reg) (list : BitVec 16) (vals : List (Reg × Word)) (st : State) : Result :=
  if list.getLsbD 15 then
    let st' := blockBase u w rn list (st.reg rn) (setRegsIn st.bank vals st)
    if s then exceptionReturn .ldmSProfileU (loadedPc vals) st' else branchWritePC (loadedPc vals) st'
  else if s then
    let st' := (setRegsIn .usr vals st).drawn
    advance { st' with hazard := .fresh }
  else advance (blockBase u w rn list (st.reg rn) (setRegsIn st.bank vals st))

/-! ## The block transfers -/

/-- LDM (R271). -/
def execLdm (c : Cond) (p u s w : Bool) (rn : Reg) (list : BitVec 16) (st : State) : Result :=
  guarded c st <| checks (ldmChecks s w rn list st) <|
    ((checkBlock st (blockPlan p u rn list st)).bind (loadBlock st)).run st fun vals =>
      ldmWrite u s w rn list vals st

/-- STM (R272). -/
def execStm (c : Cond) (p u s w : Bool) (rn : Reg) (list : BitVec 16) (st : State) : Result :=
  guarded c st <| checks (stmChecks s w rn list st) <|
    (checkBlock st (blockPlan p u rn list st)).run st fun plan =>
      advance (blockBase u w rn list (st.reg rn) (storeBlock (blockValue s st) plan st))

/-! ## Swap -/

/-- What is refused of SWP and SWPB (R282). -/
def swapChecks (rn rd : Reg) (sbz : BitVec 4) (rm : Reg) : List (Bool × Refusal) :=
  [([rn, rd, rm].any (· = 15#4) || rn = rm || rn = rd, .swpRegs), (sbz ≠ 0#4, .sbzViolation)]

/-- Read and write one address, then Rd (R282); both accesses have passed their checks before the write. -/
def swap (w : Width) (rn rd rm : Reg) (st : State) : Result :=
  (loadValue st w (st.reg rn)).run st fun old =>
    (memWrite st w (st.reg rn) (st.reg rm)).run st fun st' => advance (st'.setReg rd old)

/-- SWP (R280). -/
def execSwp (c : Cond) (rn rd : Reg) (sbz : BitVec 4) (rm : Reg) (st : State) : Result :=
  guarded c st <| checks (swapChecks rn rd sbz rm) <| swap .word rn rd rm st

/-- SWPB (R281). -/
def execSwpb (c : Cond) (rn rd : Reg) (sbz : BitVec 4) (rm : Reg) (st : State) : Result :=
  guarded c st <| checks (swapChecks rn rd sbz rm) <| swap .byte rn rd rm st

end Sys2Proof.Machine
end

