-- ==== Sys2Proof/Machine/Branch.lean ====
section
/-! DEFINITION. The branches (43_branch.md). -/

namespace Sys2Proof.Machine

/-- The target of a branch (R261). -/
def branchTarget (imm24 : BitVec 24) (st : State) : Word :=
  st.pc + 8#32 + (cat imm24 0b00#2 : BitVec 26).signExtend 32

/-- B (R262). -/
def execB (c : Cond) (imm24 : BitVec 24) (st : State) : Result :=
  guarded c st <| .next (st.setPc (branchTarget imm24 st))

/-- BL (R263). -/
def execBl (c : Cond) (imm24 : BitVec 24) (st : State) : Result :=
  guarded c st <| .next ((st.setReg 14#4 (st.pc + 4#32)).setPc (branchTarget imm24 st))

end Sys2Proof.Machine
end

