-- ==== Sys2Proof/Machine/DataProcessing.lean ====
section
/-! DEFINITION. The data-processing instructions (40_data_processing.md). Each meaning says its flag class, its operands and
its write over the five shared operations below. -/

namespace Sys2Proof.Machine

/-! ## Shared operations -/

/-- What is refused before a data-processing instruction has an effect: the unused register field, `unused`, not zero
(R111), and register 15 in a register-shifted-register form whose register fields are `named` and those of Src2 (R136). -/
def dpChecks (unused : BitVec 4) (op2 : Src2) (named : List Reg) : List (Bool × Refusal) :=
  [(unused ≠ 0#4, .sbzViolation), (r15InShift op2 named, .r15InRegisterShift)]

/-- The write of a result: a register and, with S = 1, the flags (R130); for Rd = 15 a branch or, with S = 1, the
exception return (R137, R346). -/
def dpWrite (s : Bool) (rd : Reg) (result : Word) (f : Flags) (st : State) : Result :=
  if rd = 15#4 then
    if s then exceptionReturn .sWithRdPc result st else branchWritePC result st
  else advance ((st.setReg rd result).setFlagsWhen s f)

/-- The end of an instruction of the logical class: `result` with the shifter carry-out `sco` (R138). -/
def dpLogical (s : Bool) (rd : Reg) (result : Word) (sco : Bool) (st : State) : Result :=
  dpWrite s rd result (logicalFlags st.cpsr.flags result sco) st

/-- The end of an instruction of the arithmetic class: `AddWithCarry(p, q, cin)` (R139). -/
def dpArith (s : Bool) (rd : Reg) (p q : Word) (cin : Bool) (st : State) : Result :=
  dpWrite s rd (addWithCarry p q cin).value (arithFlags (addWithCarry p q cin)) st

/-- The end of TST and TEQ: flags only (R138). -/
def dpTest (result : Word) (sco : Bool) (st : State) : Result :=
  advance (st.setFlags (logicalFlags st.cpsr.flags result sco))

/-- The end of CMP and CMN: flags only (R139). -/
def dpCompare (p q : Word) (cin : Bool) (st : State) : Result :=
  advance (st.setFlags (arithFlags (addWithCarry p q cin)))

/-! ## Logical instructions -/

/-- AND (R141). -/
def execAnd (c : Cond) (s : Bool) (rn rd : Reg) (op2 : Src2) (st : State) : Result :=
  guarded c st <| checks (dpChecks 0#4 op2 [rd, rn]) <|
    dpLogical s rd (st.reg rn &&& (evalSrc2 op2 st).value) (evalSrc2 op2 st).carry st

/-- EOR (R142). -/
def execEor (c : Cond) (s : Bool) (rn rd : Reg) (op2 : Src2) (st : State) : Result :=
  guarded c st <| checks (dpChecks 0#4 op2 [rd, rn]) <|
    dpLogical s rd (st.reg rn ^^^ (evalSrc2 op2 st).value) (evalSrc2 op2 st).carry st

/-- ORR (R143). -/
def execOrr (c : Cond) (s : Bool) (rn rd : Reg) (op2 : Src2) (st : State) : Result :=
  guarded c st <| checks (dpChecks 0#4 op2 [rd, rn]) <|
    dpLogical s rd (st.reg rn ||| (evalSrc2 op2 st).value) (evalSrc2 op2 st).carry st

/-- BIC (R144). -/
def execBic (c : Cond) (s : Bool) (rn rd : Reg) (op2 : Src2) (st : State) : Result :=
  guarded c st <| checks (dpChecks 0#4 op2 [rd, rn]) <|
    dpLogical s rd (st.reg rn &&& ~~~(evalSrc2 op2 st).value) (evalSrc2 op2 st).carry st

/-- MVN (R145, D7): the complement of Src2. -/
def execMvn (c : Cond) (s : Bool) (sbz : BitVec 4) (rd : Reg) (op2 : Src2) (st : State) : Result :=
  guarded c st <| checks (dpChecks sbz op2 [rd]) <|
    dpLogical s rd (~~~(evalSrc2 op2 st).value) (evalSrc2 op2 st).carry st

/-! ## Arithmetic instructions -/

/-- SUB (R150). -/
def execSub (c : Cond) (s : Bool) (rn rd : Reg) (op2 : Src2) (st : State) : Result :=
  guarded c st <| checks (dpChecks 0#4 op2 [rd, rn]) <|
    dpArith s rd (st.reg rn) (~~~(evalSrc2 op2 st).value) true st

/-- RSB (R151). -/
def execRsb (c : Cond) (s : Bool) (rn rd : Reg) (op2 : Src2) (st : State) : Result :=
  guarded c st <| checks (dpChecks 0#4 op2 [rd, rn]) <|
    dpArith s rd (evalSrc2 op2 st).value (~~~(st.reg rn)) true st

/-- ADD (R152). -/
def execAdd (c : Cond) (s : Bool) (rn rd : Reg) (op2 : Src2) (st : State) : Result :=
  guarded c st <| checks (dpChecks 0#4 op2 [rd, rn]) <|
    dpArith s rd (st.reg rn) (evalSrc2 op2 st).value false st

/-- ADC (R153). -/
def execAdc (c : Cond) (s : Bool) (rn rd : Reg) (op2 : Src2) (st : State) : Result :=
  guarded c st <| checks (dpChecks 0#4 op2 [rd, rn]) <|
    dpArith s rd (st.reg rn) (evalSrc2 op2 st).value st.cpsr.flags.c st

/-- SBC (R154, D27). -/
def execSbc (c : Cond) (s : Bool) (rn rd : Reg) (op2 : Src2) (st : State) : Result :=
  guarded c st <| checks (dpChecks 0#4 op2 [rd, rn]) <|
    dpArith s rd (st.reg rn) (~~~(evalSrc2 op2 st).value) st.cpsr.flags.c st

/-- RSC (R155, D27). -/
def execRsc (c : Cond) (s : Bool) (rn rd : Reg) (op2 : Src2) (st : State) : Result :=
  guarded c st <| checks (dpChecks 0#4 op2 [rd, rn]) <|
    dpArith s rd (evalSrc2 op2 st).value (~~~(st.reg rn)) st.cpsr.flags.c st

/-! ## Tests and comparisons -/

/-- TST (R160). -/
def execTst (c : Cond) (rn : Reg) (sbz : BitVec 4) (op2 : Src2) (st : State) : Result :=
  guarded c st <| checks (dpChecks sbz op2 [rn]) <|
    dpTest (st.reg rn &&& (evalSrc2 op2 st).value) (evalSrc2 op2 st).carry st

/-- TEQ (R161). -/
def execTeq (c : Cond) (rn : Reg) (sbz : BitVec 4) (op2 : Src2) (st : State) : Result :=
  guarded c st <| checks (dpChecks sbz op2 [rn]) <|
    dpTest (st.reg rn ^^^ (evalSrc2 op2 st).value) (evalSrc2 op2 st).carry st

/-- CMP (R162). -/
def execCmp (c : Cond) (rn : Reg) (sbz : BitVec 4) (op2 : Src2) (st : State) : Result :=
  guarded c st <| checks (dpChecks sbz op2 [rn]) <|
    dpCompare (st.reg rn) (~~~(evalSrc2 op2 st).value) true st

/-- CMN (R163). -/
def execCmn (c : Cond) (rn : Reg) (sbz : BitVec 4) (op2 : Src2) (st : State) : Result :=
  guarded c st <| checks (dpChecks sbz op2 [rn]) <|
    dpCompare (st.reg rn) (evalSrc2 op2 st).value false st

/-! ## Moves and shifts (cmd 1101): each writes its Src2 -/

/-- MOV (R170). -/
def execMov (c : Cond) (s : Bool) (sbz : BitVec 4) (rd : Reg) (src : MovSrc) (st : State) : Result :=
  guarded c st <| checks (dpChecks sbz (movSrc2 src) [rd]) <|
    dpLogical s rd (evalSrc2 (movSrc2 src) st).value (evalSrc2 (movSrc2 src) st).carry st

/-- LSL (R171). -/
def execLsl (c : Cond) (s : Bool) (sbz : BitVec 4) (rd : Reg) (amt : ShiftAmount) (rm : Reg) (st : State) : Result :=
  guarded c st <| checks (dpChecks sbz (amountSrc2 .lsl rm amt) [rd]) <|
    dpLogical s rd (evalSrc2 (amountSrc2 .lsl rm amt) st).value (evalSrc2 (amountSrc2 .lsl rm amt) st).carry st

/-- LSR (R172). -/
def execLsr (c : Cond) (s : Bool) (sbz : BitVec 4) (rd : Reg) (amt : ShiftAmount) (rm : Reg) (st : State) : Result :=
  guarded c st <| checks (dpChecks sbz (amountSrc2 .lsr rm amt) [rd]) <|
    dpLogical s rd (evalSrc2 (amountSrc2 .lsr rm amt) st).value (evalSrc2 (amountSrc2 .lsr rm amt) st).carry st

/-- ASR (R173). -/
def execAsr (c : Cond) (s : Bool) (sbz : BitVec 4) (rd : Reg) (amt : ShiftAmount) (rm : Reg) (st : State) : Result :=
  guarded c st <| checks (dpChecks sbz (amountSrc2 .asr rm amt) [rd]) <|
    dpLogical s rd (evalSrc2 (amountSrc2 .asr rm amt) st).value (evalSrc2 (amountSrc2 .asr rm amt) st).carry st

/-- RRX (R174): the rotation by one through C. -/
def execRrx (c : Cond) (s : Bool) (sbz : BitVec 4) (rd rm : Reg) (st : State) : Result :=
  guarded c st <| checks (dpChecks sbz (.shiftImm .ror 0#5 rm) [rd]) <|
    dpLogical s rd (evalSrc2 (.shiftImm .ror 0#5 rm) st).value (evalSrc2 (.shiftImm .ror 0#5 rm) st).carry st

/-- ROR (R175). -/
def execRor (c : Cond) (s : Bool) (sbz : BitVec 4) (rd : Reg) (amt : ShiftAmount) (rm : Reg) (st : State) : Result :=
  guarded c st <| checks (dpChecks sbz (amountSrc2 .ror rm amt) [rd]) <|
    dpLogical s rd (evalSrc2 (amountSrc2 .ror rm amt) st).value (evalSrc2 (amountSrc2 .ror rm amt) st).carry st

/-- NOP (R176, D14): the word that reads and writes nothing (entry 22). -/
def execNop (c : Cond) (st : State) : Result :=
  guarded c st <| advance st

end Sys2Proof.Machine
end

