-- ==== Sys2Proof/Machine/Memory.lean ====
section
/-! DEFINITION. The single loads and stores (42_memory_instructions.md) and their forms with translation
(44_miscellaneous.md R283 to R288). -/

namespace Sys2Proof.Machine

/-! ## Shared operations -/

/-- The address of a word or byte access and the base after it (R222, R223). -/
def memAddressing (idx : Index) (u : Bool) (rn : Reg) (off : MemOffset) (st : State) : Addressing :=
  addressing idx u (st.reg rn) (memOffset off st)

/-- The address of an extra memory access and the base after it (R222, R223). -/
def extraAddressing (idx : ExtraIndex) (u : Bool) (rn : Reg) (off : ExtraOffset) (st : State) : Addressing :=
  addressing (extraMode idx) u (st.reg rn) (extraOffset off st)

/-- The restrictions all single accesses share (R225); `wb` for write-back, `rm` the offset register. -/
def baseChecks (wb : Bool) (rn rd : Reg) (rm : Option Reg) : List (Bool × Refusal) :=
  [(wb && rn = 15#4, .wbPc), (wb && rn = rd, .wbRdEqRn), (wb && rm = some rn, .wbRmEqRn), (rm = some 15#4, .rmPc)]

/-- The restrictions of a word or byte access (R225) and its own, `more`. -/
def memChecks (idx : Index) (rn rd : Reg) (off : MemOffset) (more : List (Bool × Refusal)) : List (Bool × Refusal) :=
  baseChecks (writesBack idx) rn rd (memOffsetReg off) ++ more

/-- The restrictions of an extra memory access (R225): bits 11:8 of the register form, P = 0 with W = 1, Rd = 15. -/
def extraChecks (idx : ExtraIndex) (rn rd : Reg) (off : ExtraOffset) : List (Bool × Refusal) :=
  [(!off.sbzOk, .sbzViolation), (idx = .p0w1, .extraP0W1)] ++
    baseChecks (writesBack (extraMode idx)) rn rd (extraOffsetReg off) ++ [(decide (rd = 15#4), .extraRdPc)]

/-- LDR of the pc from a misaligned address, which `MISALIGNED_POLICY = armv4` leaves without a meaning (R55). -/
def pcLoadMisaligned (rd : Reg) (adr : Word) (st : State) : Bool :=
  rd = 15#4 && st.params.misaligned = .armv4 && adr.extractLsb' 0 2 ≠ 0#2

/-- The load of R224: read, write the base back, write the extended value. -/
def loadReg (w : Width) (ext : Word → Word) (rn rd : Reg) (m : Addressing) (st : State) : Result :=
  (loadValue st w m.adr).run st fun v => writeResult rd (ext v) (st.writeBack rn m)

/-- The store of R224: write memory, write the base back. -/
def storeValue (w : Width) (rn : Reg) (v : Word) (m : Addressing) (st : State) : Result :=
  (memWrite st w m.adr v).run st fun st' => advance (st'.writeBack rn m)

/-- A loaded byte or halfword that stays as it is: zero-extended (R233, R235), or a word (R231). -/
def extendZero (v : Word) : Word := v

/-- The sign extension of a loaded byte (R236). -/
def extendByte (v : Word) : Word := (v.extractLsb' 0 8).signExtend 32

/-- The sign extension of a loaded halfword (R237). -/
def extendHalf (v : Word) : Word := (v.extractLsb' 0 16).signExtend 32

/-! ## Word and unsigned byte -/

/-- STR (R230, R227). -/
def execStr (c : Cond) (idx : Index) (u : Bool) (rn rd : Reg) (off : MemOffset) (st : State) : Result :=
  guarded c st <| checks (memChecks idx rn rd off [(rd = 15#4 && st.params.storePc = .none, .storePc)]) <|
    storeValue .word rn (st.storeReg rd) (memAddressing idx u rn off st) st

/-- LDR (R231, R227). -/
def execLdr (c : Cond) (idx : Index) (u : Bool) (rn rd : Reg) (off : MemOffset) (st : State) : Result :=
  guarded c st <|
    checks (memChecks idx rn rd off
      [(pcLoadMisaligned rd (memAddressing idx u rn off st).adr st, .misalignedPcLoad)]) <|
    loadReg .word extendZero rn rd (memAddressing idx u rn off st) st

/-- STRB (R232). -/
def execStrb (c : Cond) (idx : Index) (u : Bool) (rn rd : Reg) (off : MemOffset) (st : State) : Result :=
  guarded c st <| checks (memChecks idx rn rd off [(rd = 15#4, .bytePc)]) <|
    storeValue .byte rn (st.reg rd) (memAddressing idx u rn off st) st

/-- LDRB (R233). -/
def execLdrb (c : Cond) (idx : Index) (u : Bool) (rn rd : Reg) (off : MemOffset) (st : State) : Result :=
  guarded c st <| checks (memChecks idx rn rd off [(rd = 15#4, .bytePc)]) <|
    loadReg .byte extendZero rn rd (memAddressing idx u rn off st) st

/-! ## Halfword and signed -/

/-- STRH (R234). -/
def execStrh (c : Cond) (idx : ExtraIndex) (u : Bool) (rn rd : Reg) (off : ExtraOffset) (st : State) : Result :=
  guarded c st <| checks (extraChecks idx rn rd off) <|
    storeValue .half rn (st.reg rd) (extraAddressing idx u rn off st) st

/-- LDRH (R235). -/
def execLdrh (c : Cond) (idx : ExtraIndex) (u : Bool) (rn rd : Reg) (off : ExtraOffset) (st : State) : Result :=
  guarded c st <| checks (extraChecks idx rn rd off) <|
    loadReg .half extendZero rn rd (extraAddressing idx u rn off st) st

/-- LDRSB (R236). -/
def execLdrsb (c : Cond) (idx : ExtraIndex) (u : Bool) (rn rd : Reg) (off : ExtraOffset) (st : State) : Result :=
  guarded c st <| checks (extraChecks idx rn rd off) <|
    loadReg .byte extendByte rn rd (extraAddressing idx u rn off st) st

/-- LDRSH (R237). -/
def execLdrsh (c : Cond) (idx : ExtraIndex) (u : Bool) (rn rd : Reg) (off : ExtraOffset) (st : State) : Result :=
  guarded c st <| checks (extraChecks idx rn rd off) <|
    loadReg .half extendHalf rn rd (extraAddressing idx u rn off st) st

/-! ## With translation: the post-indexed plain access, with Rd = 15 refused (R283, D22) -/

/-- STRT (R287). -/
def execStrt (c : Cond) (u : Bool) (rn rd : Reg) (off : MemOffset) (st : State) : Result :=
  guarded c st <| checks (memChecks .post rn rd off [(rd = 15#4, .tRdPc)]) <|
    storeValue .word rn (st.reg rd) (memAddressing .post u rn off st) st

/-- LDRT (R284). -/
def execLdrt (c : Cond) (u : Bool) (rn rd : Reg) (off : MemOffset) (st : State) : Result :=
  guarded c st <| checks (memChecks .post rn rd off [(rd = 15#4, .tRdPc)]) <|
    loadReg .word extendZero rn rd (memAddressing .post u rn off st) st

/-- STRBT (R288). -/
def execStrbt (c : Cond) (u : Bool) (rn rd : Reg) (off : MemOffset) (st : State) : Result :=
  guarded c st <| checks (memChecks .post rn rd off [(rd = 15#4, .tRdPc)]) <|
    storeValue .byte rn (st.reg rd) (memAddressing .post u rn off st) st

/-- LDRBT (R286). -/
def execLdrbt (c : Cond) (u : Bool) (rn rd : Reg) (off : MemOffset) (st : State) : Result :=
  guarded c st <| checks (memChecks .post rn rd off [(rd = 15#4, .tRdPc)]) <|
    loadReg .byte extendZero rn rd (memAddressing .post u rn off st) st

end Sys2Proof.Machine
end

