-- ==== Sys2Proof/Machine/Multiply.lean ====
section
/-! DEFINITION. The multiply instructions (41_multiply.md). -/

namespace Sys2Proof.Machine

/-! ## Shared operations -/

/-- What is refused of MUL and MLA (R212): MUL's unused field, register 15, Rd = Rn. -/
def mulChecks (unused : BitVec 4) (rd rn : Reg) (named : List Reg) : List (Bool × Refusal) :=
  [(unused ≠ 0#4, .sbzViolation), (named.any (· = 15#4), .r15InMultiply), (rd = rn, .mulRdEqRn)]

/-- What is refused of a long multiply (R212). -/
def mullChecks (rd ra rm rn : Reg) : List (Bool × Refusal) :=
  [([rd, ra, rm, rn].any (· = 15#4), .r15InMultiply), (rd = rn, .mulRdEqRn), (ra = rd || ra = rn, .mullRegs)]

/-- The flags of a multiply (R211): N and Z of the result; C and V kept or, under `draw`, C free and V free in the long
forms (entry 10). -/
def mulFlags (long : Bool) (n z : Bool) (st : State) : Flags :=
  match st.params.mulCV with
  | .unchanged => ⟨n, z, st.cpsr.flags.c, st.cpsr.flags.v⟩
  | .draw =>
    ⟨n, z, (Config.freeWord st.freeCount).getLsbD 0,
      if long then (Config.freeWord st.freeCount).getLsbD 1 else st.cpsr.flags.v⟩

/-- The counter after a multiply: a value was drawn under `draw` with S = 1 (R211). -/
def mulDrawn (s : Bool) (st : State) : State :=
  match st.params.mulCV with
  | .unchanged => st
  | .draw => if s then st.drawn else st

/-- The end of MUL and MLA (R210, R211). -/
def mulWrite (s : Bool) (rd : Reg) (result : Word) (st : State) : Result :=
  advance (mulDrawn s ((st.setReg rd result).setFlagsWhen s (mulFlags false result.msb (result = 0#32) st)))

/-- The end of a long multiply (R211, R213): bits 63:32 to Rd, bits 31:0 to Ra. -/
def mullWrite (s : Bool) (rd ra : Reg) (p : BitVec 64) (st : State) : Result :=
  advance (mulDrawn s (((st.setReg rd (p.extractLsb' 32 32)).setReg ra (p.extractLsb' 0 32)).setFlagsWhen s
    (mulFlags true p.msb (p = 0#64) st)))

/-- The unsigned product (R202). -/
def unsignedProduct (a b : Word) : BitVec 64 := BitVec.ofNat 64 (a.toNat * b.toNat)

/-- The signed product (R204). -/
def signedProduct (a b : Word) : BitVec 64 := BitVec.ofInt 64 (a.toInt * b.toInt)

/-- The accumulator `{x[Rd], x[Ra]}` (R213). -/
def accumulator (rd ra : Reg) (st : State) : BitVec 64 := cat (st.reg rd) (st.reg ra)

/-! ## The instructions -/

/-- MUL (R200). -/
def execMul (c : Cond) (s : Bool) (rd : Reg) (sbz : BitVec 4) (rm rn : Reg) (st : State) : Result :=
  guarded c st <| checks (mulChecks sbz rd rn [rd, rm, rn]) <|
    mulWrite s rd (st.reg rn * st.reg rm) st

/-- MLA (R201). -/
def execMla (c : Cond) (s : Bool) (rd ra rm rn : Reg) (st : State) : Result :=
  guarded c st <| checks (mulChecks 0#4 rd rn [rd, ra, rm, rn]) <|
    mulWrite s rd (st.reg rn * st.reg rm + st.reg ra) st

/-- UMULL (R202). -/
def execUmull (c : Cond) (s : Bool) (rd ra rm rn : Reg) (st : State) : Result :=
  guarded c st <| checks (mullChecks rd ra rm rn) <|
    mullWrite s rd ra (unsignedProduct (st.reg rn) (st.reg rm)) st

/-- UMLAL (R203). -/
def execUmlal (c : Cond) (s : Bool) (rd ra rm rn : Reg) (st : State) : Result :=
  guarded c st <| checks (mullChecks rd ra rm rn) <|
    mullWrite s rd ra (unsignedProduct (st.reg rn) (st.reg rm) + accumulator rd ra st) st

/-- SMULL (R204). -/
def execSmull (c : Cond) (s : Bool) (rd ra rm rn : Reg) (st : State) : Result :=
  guarded c st <| checks (mullChecks rd ra rm rn) <|
    mullWrite s rd ra (signedProduct (st.reg rn) (st.reg rm)) st

/-- SMLAL (R205). -/
def execSmlal (c : Cond) (s : Bool) (rd ra rm rn : Reg) (st : State) : Result :=
  guarded c st <| checks (mullChecks rd ra rm rn) <|
    mullWrite s rd ra (signedProduct (st.reg rn) (st.reg rm) + accumulator rd ra st) st

end Sys2Proof.Machine
end

