-- ==== Sys2Proof/Machine/System.lean ====
section
/-! DEFINITION. The status register moves (44_miscellaneous.md R295, R296, 60_exceptions.md R347), SWI (R285), the
coprocessor instructions of a machine that has no coprocessor (R290), and the reserved words (30_encoding.md R110, R112). -/

namespace Sys2Proof.Machine

/-! ## Status register moves -/

/-- MRS (R295, R342). -/
def execMrs (c : Cond) (r : Bool) (sbo : BitVec 4) (rd : Reg) (sbzHi sbzLo : BitVec 4) (st : State) : Result :=
  guarded c st <|
    checks [(sbo ≠ 15#4 || sbzHi ≠ 0#4 || sbzLo ≠ 0#4, .sbzViolation), (rd = 15#4, .mrsRdPc)] <|
    if r then
      match st.spsrNow with
      | none => .refused .spsrInUserMode
      | some p => advance (st.setReg rd p.toWord)
    else advance (st.setReg rd st.psr.toWord)

/-- The value MSR moves (R296). -/
def msrValue (operand : MsrOperand) (st : State) : Word :=
  match operand with
  | .reg _ rm => st.reg rm
  | .imm rot imm8 => (rotatedImm rot imm8 false).value

/-- Rm = 15 in MSR (R296). -/
def msrRmIsPc : MsrOperand → Bool
  | .reg _ rm => rm = 15#4
  | .imm _ _ => false

/-- The flags byte of the CPSR (R296, R347). -/
def msrFlags (mask : BitVec 4) (v : Word) (st : State) : State :=
  st.setFlagsWhen (mask.getLsbD 3) (Flags.ofWord v)

/-- MSR to the CPSR (R296, R347): the flags byte; in a privileged mode the control byte, T and mode checked first. -/
def msrCpsr (mask : BitVec 4) (v : Word) (st : State) : Result :=
  if mask.getLsbD 0 && st.mode ≠ .usr then
    match (Psr.ofWord v).toCpsr with
    | .error r => .refused r
    | .ok p => advance (st.setCpsr { p with flags := (msrFlags mask v st).cpsr.flags })
  else advance (msrFlags mask v st)

/-- MSR to the SPSR of the current mode (R347, R342). -/
def msrSpsr (mask : BitVec 4) (v : Word) (st : State) : Result :=
  match st.spsrNow with
  | none => .refused .spsrInUserMode
  | some p => advance (st.setSpsr st.bank (p.writeFields mask v))

/-- MSR (R296, R347). -/
def execMsr (c : Cond) (r : Bool) (mask sbo : BitVec 4) (operand : MsrOperand) (st : State) : Result :=
  guarded c st <|
    checks [(sbo ≠ 15#4 || !operand.sbzOk, .sbzViolation), (msrRmIsPc operand, .msrRmPc)] <|
    if r then msrSpsr mask (msrValue operand st) st else msrCpsr mask (msrValue operand st) st

/-! ## Software interrupt -/

/-- SWI (R285): the exception, with imm24 for the host of profile U. -/
def execSwi (c : Cond) (imm24 : BitVec 24) (st : State) : Result :=
  guarded c st <| raise .swi (cat 0#8 imm24) st

/-! ## Coprocessor instructions (R290): nothing accepts them -/

/-- CDP (R291). -/
def execCdp (c : Cond) (opc1 crn crd cp : BitVec 4) (opc2 : BitVec 3) (crm : BitVec 4) (st : State) : Result :=
  guarded c st <| raise .undefinedInstruction (encodeWord st.params.memRegBit4 (.cdp c opc1 crn crd cp opc2 crm)) st

/-- LDC (R292). -/
def execLdc (c : Cond) (p u n w : Bool) (rn crd cp : BitVec 4) (imm8 : BitVec 8) (st : State) : Result :=
  guarded c st <| raise .undefinedInstruction (encodeWord st.params.memRegBit4 (.ldc c p u n w rn crd cp imm8)) st

/-- STC (R293). -/
def execStc (c : Cond) (p u n w : Bool) (rn crd cp : BitVec 4) (imm8 : BitVec 8) (st : State) : Result :=
  guarded c st <| raise .undefinedInstruction (encodeWord st.params.memRegBit4 (.stc c p u n w rn crd cp imm8)) st

/-- MCR (R294). -/
def execMcr (c : Cond) (opc1 : BitVec 3) (crn : BitVec 4) (rd : Reg) (cp : BitVec 4) (opc2 : BitVec 3) (crm : BitVec 4)
    (st : State) : Result :=
  guarded c st <| raise .undefinedInstruction (encodeWord st.params.memRegBit4 (.mcr c opc1 crn rd cp opc2 crm)) st

/-- MRC (R297). -/
def execMrc (c : Cond) (opc1 : BitVec 3) (crn : BitVec 4) (rd : Reg) (cp : BitVec 4) (opc2 : BitVec 3) (crm : BitVec 4)
    (st : State) : Result :=
  guarded c st <| raise .undefinedInstruction (encodeWord st.params.memRegBit4 (.mrc c opc1 crn rd cp opc2 crm)) st

/-! ## Reserved words -/

/-- The word of a reserved instruction that has a condition (R110). -/
def reservedWord (c : Cond) (w : BitVec 28) : Word := cat c.bits w

/-- cond = 1111 (R112): Undefined Instruction whatever the flags. -/
def execReservedCond1111 (w : BitVec 28) (st : State) : Result :=
  raise .undefinedInstruction (cat 0b1111#4 w) st

/-- R110 row 2. -/
def execReservedDpCompareS0 (c : Cond) (w : BitVec 28) (st : State) : Result :=
  guarded c st <| raise .undefinedInstruction (reservedWord c w) st

/-- R110 row 3. -/
def execReservedMultiplyCmd (c : Cond) (w : BitVec 28) (st : State) : Result :=
  guarded c st <| raise .undefinedInstruction (reservedWord c w) st

/-- R110 row 4. -/
def execReservedOp001001 (c : Cond) (w : BitVec 28) (st : State) : Result :=
  guarded c st <| raise .undefinedInstruction (reservedWord c w) st

/-- R110 row 5. -/
def execReservedExtraStoreSigned (c : Cond) (w : BitVec 28) (st : State) : Result :=
  guarded c st <| raise .undefinedInstruction (reservedWord c w) st

/-- R110 row 6. -/
def execReservedUndefinedSpace (c : Cond) (w : BitVec 28) (st : State) : Result :=
  guarded c st <| raise .undefinedInstruction (reservedWord c w) st

end Sys2Proof.Machine
end

