-- ==== Sys2Proof/Machine/Dispatch.lean ====
section
/-! DEFINITION. The meaning of every instruction, one arm per constructor. -/

namespace Sys2Proof.Machine

def exec (i : Instr) (s : State) : Host.Outcome State Fault Refusal :=
  match i with
  | .reservedCond1111 w => Sys2Proof.Machine.execReservedCond1111 w s
  | .nop c => Sys2Proof.Machine.execNop c s
  | .mul c sBit rd sbz rm rn => Sys2Proof.Machine.execMul c sBit rd sbz rm rn s
  | .mla c sBit rd ra rm rn => Sys2Proof.Machine.execMla c sBit rd ra rm rn s
  | .umull c sBit rd ra rm rn => Sys2Proof.Machine.execUmull c sBit rd ra rm rn s
  | .umlal c sBit rd ra rm rn => Sys2Proof.Machine.execUmlal c sBit rd ra rm rn s
  | .smull c sBit rd ra rm rn => Sys2Proof.Machine.execSmull c sBit rd ra rm rn s
  | .smlal c sBit rd ra rm rn => Sys2Proof.Machine.execSmlal c sBit rd ra rm rn s
  | .reservedMultiplyCmd c w => Sys2Proof.Machine.execReservedMultiplyCmd c w s
  | .swp c rn rd sbz rm => Sys2Proof.Machine.execSwp c rn rd sbz rm s
  | .swpb c rn rd sbz rm => Sys2Proof.Machine.execSwpb c rn rd sbz rm s
  | .reservedOp001001 c w => Sys2Proof.Machine.execReservedOp001001 c w s
  | .strh c idx u rn rd off => Sys2Proof.Machine.execStrh c idx u rn rd off s
  | .ldrh c idx u rn rd off => Sys2Proof.Machine.execLdrh c idx u rn rd off s
  | .ldrsb c idx u rn rd off => Sys2Proof.Machine.execLdrsb c idx u rn rd off s
  | .ldrsh c idx u rn rd off => Sys2Proof.Machine.execLdrsh c idx u rn rd off s
  | .reservedExtraStoreSigned c w => Sys2Proof.Machine.execReservedExtraStoreSigned c w s
  | .mrs c r sbo rd sbzHi sbzLo => Sys2Proof.Machine.execMrs c r sbo rd sbzHi sbzLo s
  | .msr c r fieldMask sbo operand => Sys2Proof.Machine.execMsr c r fieldMask sbo operand s
  | .reservedDpCompareS0 c w => Sys2Proof.Machine.execReservedDpCompareS0 c w s
  | .and c sBit rn rd op2 => Sys2Proof.Machine.execAnd c sBit rn rd op2 s
  | .eor c sBit rn rd op2 => Sys2Proof.Machine.execEor c sBit rn rd op2 s
  | .sub c sBit rn rd op2 => Sys2Proof.Machine.execSub c sBit rn rd op2 s
  | .rsb c sBit rn rd op2 => Sys2Proof.Machine.execRsb c sBit rn rd op2 s
  | .add c sBit rn rd op2 => Sys2Proof.Machine.execAdd c sBit rn rd op2 s
  | .adc c sBit rn rd op2 => Sys2Proof.Machine.execAdc c sBit rn rd op2 s
  | .sbc c sBit rn rd op2 => Sys2Proof.Machine.execSbc c sBit rn rd op2 s
  | .rsc c sBit rn rd op2 => Sys2Proof.Machine.execRsc c sBit rn rd op2 s
  | .tst c rn sbz op2 => Sys2Proof.Machine.execTst c rn sbz op2 s
  | .teq c rn sbz op2 => Sys2Proof.Machine.execTeq c rn sbz op2 s
  | .cmp c rn sbz op2 => Sys2Proof.Machine.execCmp c rn sbz op2 s
  | .cmn c rn sbz op2 => Sys2Proof.Machine.execCmn c rn sbz op2 s
  | .orr c sBit rn rd op2 => Sys2Proof.Machine.execOrr c sBit rn rd op2 s
  | .bic c sBit rn rd op2 => Sys2Proof.Machine.execBic c sBit rn rd op2 s
  | .mvn c sBit sbz rd op2 => Sys2Proof.Machine.execMvn c sBit sbz rd op2 s
  | .mov c sBit sbz rd src => Sys2Proof.Machine.execMov c sBit sbz rd src s
  | .lsl c sBit sbz rd amt rm => Sys2Proof.Machine.execLsl c sBit sbz rd amt rm s
  | .lsr c sBit sbz rd amt rm => Sys2Proof.Machine.execLsr c sBit sbz rd amt rm s
  | .asr c sBit sbz rd amt rm => Sys2Proof.Machine.execAsr c sBit sbz rd amt rm s
  | .rrx c sBit sbz rd rm => Sys2Proof.Machine.execRrx c sBit sbz rd rm s
  | .ror c sBit sbz rd amt rm => Sys2Proof.Machine.execRor c sBit sbz rd amt rm s
  | .reservedUndefinedSpace c w => Sys2Proof.Machine.execReservedUndefinedSpace c w s
  | .strt c u rn rd off => Sys2Proof.Machine.execStrt c u rn rd off s
  | .str c idx u rn rd off => Sys2Proof.Machine.execStr c idx u rn rd off s
  | .ldrt c u rn rd off => Sys2Proof.Machine.execLdrt c u rn rd off s
  | .ldr c idx u rn rd off => Sys2Proof.Machine.execLdr c idx u rn rd off s
  | .strbt c u rn rd off => Sys2Proof.Machine.execStrbt c u rn rd off s
  | .strb c idx u rn rd off => Sys2Proof.Machine.execStrb c idx u rn rd off s
  | .ldrbt c u rn rd off => Sys2Proof.Machine.execLdrbt c u rn rd off s
  | .ldrb c idx u rn rd off => Sys2Proof.Machine.execLdrb c idx u rn rd off s
  | .b c imm24 => Sys2Proof.Machine.execB c imm24 s
  | .bl c imm24 => Sys2Proof.Machine.execBl c imm24 s
  | .stm c p u sBit w rn list => Sys2Proof.Machine.execStm c p u sBit w rn list s
  | .ldm c p u sBit w rn list => Sys2Proof.Machine.execLdm c p u sBit w rn list s
  | .stc c p u n w rn crd cp imm8 => Sys2Proof.Machine.execStc c p u n w rn crd cp imm8 s
  | .ldc c p u n w rn crd cp imm8 => Sys2Proof.Machine.execLdc c p u n w rn crd cp imm8 s
  | .cdp c opc1 crn crd cp opc2 crm => Sys2Proof.Machine.execCdp c opc1 crn crd cp opc2 crm s
  | .mcr c opc1 crn rd cp opc2 crm => Sys2Proof.Machine.execMcr c opc1 crn rd cp opc2 crm s
  | .mrc c opc1 crn rd cp opc2 crm => Sys2Proof.Machine.execMrc c opc1 crn rd cp opc2 crm s
  | .swi c imm24 => Sys2Proof.Machine.execSwi c imm24 s

end Sys2Proof.Machine
end

