-- ==== Sys2Proof/Machine/Fetch.lean ====
section
/-! DEFINITION. What happens before an instruction executes: the inputs sampled (60_exceptions.md R335, R345, R348), and the
fetch (20_memory.md R58, R65). -/

namespace Sys2Proof.Machine

/-- The sample of the inputs before this instruction; nothing is asserted after the last one listed (entry 8). -/
def State.sample (s : State) : Inputs := s.inputs.headD ⟨false, false, false⟩

/-- The state once that sample is taken. -/
def State.sampled (s : State) : State := { s with inputs := s.inputs.tail }

/-- The event that replaces the next instruction: Reset, then an enabled FIQ, then an enabled IRQ (R335, R345, R348).
Profile U has none (R326). -/
def event (s : State) : Option Exc :=
  match s.params.profile with
  | .U => none
  | .S =>
    if s.sample.reset then some .reset
    else if s.sample.fiq && !s.cpsr.f then some .fiq
    else if s.sample.irq && !s.cpsr.i then some .irq
    else none

/-- Take an event between two instructions (R335, R344, R348). -/
def takeEvent (e : Exc) (s : State) : State :=
  match e with
  | .reset => takeReset s
  | .fiq => enterException .fiq s
  | .irq => enterException .irq s
  | .undefinedInstruction => enterException .undefinedInstruction s
  | .swi => enterException .swi s
  | .prefetchAbort => enterException .prefetchAbort s
  | .dataAbort => enterException .dataAbort s
  | .alignmentFault => enterException .alignmentFault s

/-- Has the program stored to a byte of the instruction at the pc since launch (R65)? -/
def codeModified (s : State) : Bool :=
  (List.range 4).any fun k => decide ((s.pc + BitVec.ofNat 32 k).toNat ∈ s.stored)

/-- Instruction fetch (R58), in the order of R324: modified code, then the aborts, then an unwritten byte. -/
def fetchWord (s : State) : Access Word :=
  if codeModified s then .refuses .fetchOfModifiedCode
  else if s.pc.extractLsb' 0 2 ≠ 0#2 then .raises .alignmentFault s.pc
  else if allMapped s.params s.pc 4 then loadChecked s .word s.pc
  else .raises .prefetchAbort s.pc

end Sys2Proof.Machine
end

