-- ==== Sys2Proof/Machine/Step.lean ====
section
/-! DEFINITION. One step (00_scope.md R12, 45_condition_flags.md R303): an event (60_exceptions.md R335, R345, R348), or
fetch, decode and execute. -/

namespace Sys2Proof.Machine

/-- One step. -/
def step (s : State) : Host.Outcome State Fault Refusal :=
  match event s with
  | some e => .next (takeEvent e s.sampled)
  | none => (fetchWord s).run s.sampled fun w => exec (decodeWord s.params.memRegBit4 w) s.sampled.ticked

/-- The word of a table row, stored where the next step fetches (entry 7). -/
def State.withFetchWord (s : State) (nbits w : Nat) : State := s.placeWord (tableWord nbits w)

end Sys2Proof.Machine
end

