-- ==== Sys2Proof/Safety.lean ====
section
/-! DEFINITION. The terms claims are stated in: the canonical form of a state, safe steps and runs, the ends of a run (70 R365)
and the host's resumption of a system call (70 R366, 60_exceptions.md R323); then what an instruction leaves unchanged, and
what its operands must meet. -/

namespace Sys2Proof.Machine

/-! ## Runs -/

/-- The data of a state is in its canonical form, and the pc is word-aligned (10_state.md R27). -/
def State.wf (s : State) : Prop :=
  s.pc.extractLsb' 0 2 = 0#2 ∧ Memory.wf s.mem = true ∧ AddrSet.wf s.stored = true

/-- A step that has a next state: no trap and no refusal. -/
def stepsOk (s : State) : Prop := ∃ t, step s = .next t

/-- The open parameter `EXIT` (R6, R365): a predicate on states and step outcomes, chosen with each theorem. -/
abbrev Exit := State → Result → Prop

/-- A run ends at `s` (R365): the step there traps or is refused, or `EXIT` says so. -/
def runEnds (exit : Exit) (s : State) : Prop := exit s (step s) ∨ ¬stepsOk s

/-- The run goes from `s` to `t` in `n` steps, and ends before none of them. -/
def runsTo (exit : Exit) : Nat → State → State → Prop
  | 0, s, t => s = t
  | n + 1, s, t => ¬exit s (step s) ∧ ∃ u, step s = .next u ∧ runsTo exit n u t

/-- `n` steps, or fewer if `EXIT` ends the run, none of which traps or is refused before that (R325: a proof about a program
shows that none is reached). -/
def runsOk (exit : Exit) : Nat → State → Prop
  | 0, _ => True
  | n + 1, s => exit s (step s) ∨ ∃ t, step s = .next t ∧ runsOk exit n t

/-- A launch address that R361 allows: a multiple of 4 inside `MEMMAP`. -/
def entryOk (p : Params) (entry : Word) : Bool := entry.extractLsb' 0 2 = 0#2 && allMapped p entry 4

/-- `EXIT` (a): the return address of the launch is reached (R365). -/
def exitAtAddress (exitAddr : Word) : Exit := fun s _ => s.pc = exitAddr

/-- `EXIT` (b): the outcome is `Trap(SWI, n)` (R365). -/
def exitBySwi (n : BitVec 24) : Exit := fun _ o => o = .fault (.trap .swi (cat 0#8 n))

/-- `EXIT` (c): the pc holds `B .` (R365). -/
def exitBySelfBranch : Exit := fun s _ => s.loadBytes .word s.pc = some 0xEAFFFFFE

/-- The host resumes after `Trap(SWI, n)` (R366): `pc + 4`, then what its service writes. -/
def State.resumeAfterSwi (service : State → State) (s : State) : State := service (s.setPc (s.pc + 4#32))

/-! ## What stays as it was -/

/-- The condition passes, and the address after this one exists (R301, R27). -/
def State.runs (s : State) (c : Cond) : Prop := condPassed c s.cpsr.flags = true ∧ s.pc ≠ 0xFFFFFFFC#32

/-- Instruction `i` executes and ends with the advance of the pc (R12, R27): below the top of the address space there is a next
state, of which `left` holds; at the top it is `refuse(pc_wrap)`. -/
def State.completes (s : State) (i : Instr) (left : State → Prop) : Prop :=
  (s.pc ≠ 0xFFFFFFFC#32 → ∃ t, exec i s = .next t ∧ left t) ∧ (s.pc = 0xFFFFFFFC#32 → exec i s = .refused .pcWrap)

/-- The registers of the current mode in `w` hold the values given there; every other general register of any mode is as before. -/
def State.wroteRegs (s t : State) (w : List (Reg × Word)) : Prop :=
  (∀ x ∈ w, t.regs.get (slot s.bank x.1) = x.2) ∧
  ∀ j, (∀ x ∈ w, j ≠ slot s.bank x.1) → t.regs.get j = s.regs.get j

/-- The status flags are as before. -/
def State.keepsFlags (s t : State) : Prop := t.cpsr.flags = s.cpsr.flags

/-- Everything at system level is as before: parameters, I, F and mode, every SPSR, the input samples still to come, and the
caution of R373 (a). -/
def State.keepsSystem (s t : State) : Prop :=
  t.params = s.params ∧ t.cpsr.i = s.cpsr.i ∧ t.cpsr.f = s.cpsr.f ∧ t.cpsr.mode = s.cpsr.mode ∧ t.spsr = s.spsr ∧
  t.inputs = s.inputs ∧ t.hazard = s.hazard

/-- Every byte of memory reads as before, and no address was stored to. -/
def State.keepsMemory (s t : State) : Prop := (∀ a, t.byteAt a = s.byteAt a) ∧ t.stored = s.stored

/-- Is `b` one of the bytes of an access of width `w` at `a`? -/
def inAccess (w : Width) (a b : Word) : Bool :=
  match w with
  | .byte => b = a
  | .half => b = a || b = a + 1#32
  | .word => b = a || b = a + 1#32 || b = a + 2#32 || b = a + 3#32

/-- Every byte of memory outside an access reads as before and counts as stored to as before. -/
def State.keepsMemoryOutside (s t : State) (w : Width) (a : Word) : Prop :=
  ∀ b, inAccess w a b = false → t.byteAt b = s.byteAt b ∧ (b.toNat ∈ t.stored ↔ b.toNat ∈ s.stored)

/-- Every byte of an access counts as stored to since launch (R65). -/
def State.countsStored (t : State) (w : Width) (a : Word) : Prop := ∀ b, inAccess w a b = true → b.toNat ∈ t.stored

/-- What a store of a width followed by a load of it gives (R53, R56, R57): the low bytes of the value, zero-extended. -/
def narrow (w : Width) (v : Word) : Word :=
  match w with
  | .byte => cat 0#24 (v.extractLsb' 0 8)
  | .half => cat (n := 16) 0#16 (cat (v.extractLsb' 8 8) (v.extractLsb' 0 8))
  | .word => wordOfBytes (v.extractLsb' 0 8) (v.extractLsb' 8 8) (v.extractLsb' 16 8) (v.extractLsb' 24 8)

/-- The state `t` that exception entry gives from `s` (R344): mode `m`, address `vector`, link value `link`; `masksFiq` for the
exceptions that set F. The input samples are left out: an interrupt has used one. -/
def State.entered (s t : State) (m : Mode) (vector link : Word) (masksFiq : Bool) : Prop :=
  t.pc = vector ∧
  t.regs.get (slot m.bank 14#4) = link ∧ (∀ j, j ≠ slot m.bank 14#4 → t.regs.get j = s.regs.get j) ∧
  t.spsr.get m.bank = some s.cpsr.toPsr ∧ (∀ b, b ≠ m.bank → t.spsr.get b = s.spsr.get b) ∧
  t.cpsr = { flags := s.cpsr.flags, i := true, f := s.cpsr.f || masksFiq, mode := m } ∧
  t.params = s.params ∧ s.keepsMemory t

/-- `raise E(info)` as R320, R322 and R344 describe it: profile U ends the run, profile S enters the exception. -/
def State.takes (s : State) (o : Result) (e : Exc) (info : Word) (m : Mode) (vector link : Word) : Prop :=
  (s.params.profile = .U → o = .fault (.trap e info)) ∧
  (s.params.profile = .S → ∃ t, o = .next t ∧ s.entered t m vector link false ∧ t.inputs = s.inputs)

/-! ## Operands of the data-processing instructions that write a register -/

/-- The fields such an instruction has: condition, S bit, the register field it does not use, destination, the register
fields Rd and Rn it uses, and Src2. -/
structure DpForm where
  cond : Cond
  s : Bool
  unused : BitVec 4
  rd : Reg
  named : List Reg
  op2 : Src2
  deriving DecidableEq, Repr

/-- The form of a data-processing instruction that writes a register; none for any other instruction. -/
def dpForm : Instr → Option DpForm
  | .and c s rn rd op2 => some ⟨c, s, 0#4, rd, [rd, rn], op2⟩
  | .eor c s rn rd op2 => some ⟨c, s, 0#4, rd, [rd, rn], op2⟩
  | .sub c s rn rd op2 => some ⟨c, s, 0#4, rd, [rd, rn], op2⟩
  | .rsb c s rn rd op2 => some ⟨c, s, 0#4, rd, [rd, rn], op2⟩
  | .add c s rn rd op2 => some ⟨c, s, 0#4, rd, [rd, rn], op2⟩
  | .adc c s rn rd op2 => some ⟨c, s, 0#4, rd, [rd, rn], op2⟩
  | .sbc c s rn rd op2 => some ⟨c, s, 0#4, rd, [rd, rn], op2⟩
  | .rsc c s rn rd op2 => some ⟨c, s, 0#4, rd, [rd, rn], op2⟩
  | .orr c s rn rd op2 => some ⟨c, s, 0#4, rd, [rd, rn], op2⟩
  | .bic c s rn rd op2 => some ⟨c, s, 0#4, rd, [rd, rn], op2⟩
  | .mvn c s sbz rd op2 => some ⟨c, s, sbz, rd, [rd], op2⟩
  | .mov c s sbz rd src => some ⟨c, s, sbz, rd, [rd], movSrc2 src⟩
  | .lsl c s sbz rd amt rm => some ⟨c, s, sbz, rd, [rd], amountSrc2 .lsl rm amt⟩
  | .lsr c s sbz rd amt rm => some ⟨c, s, sbz, rd, [rd], amountSrc2 .lsr rm amt⟩
  | .asr c s sbz rd amt rm => some ⟨c, s, sbz, rd, [rd], amountSrc2 .asr rm amt⟩
  | .rrx c s sbz rd rm => some ⟨c, s, sbz, rd, [rd], .shiftImm .ror 0#5 rm⟩
  | .ror c s sbz rd amt rm => some ⟨c, s, sbz, rd, [rd], amountSrc2 .ror rm amt⟩
  | _ => none

/-- The result such an instruction computes (R141 to R155, R170 to R175); 0 for any other instruction. -/
def dpValue (i : Instr) (st : State) : Word :=
  let c : Word := if st.cpsr.flags.c then 1#32 else 0#32
  match i with
  | .and _ _ rn _ op2 => st.reg rn &&& (evalSrc2 op2 st).value
  | .eor _ _ rn _ op2 => st.reg rn ^^^ (evalSrc2 op2 st).value
  | .sub _ _ rn _ op2 => st.reg rn - (evalSrc2 op2 st).value
  | .rsb _ _ rn _ op2 => (evalSrc2 op2 st).value - st.reg rn
  | .add _ _ rn _ op2 => st.reg rn + (evalSrc2 op2 st).value
  | .adc _ _ rn _ op2 => st.reg rn + (evalSrc2 op2 st).value + c
  | .sbc _ _ rn _ op2 => st.reg rn - (evalSrc2 op2 st).value - 1#32 + c
  | .rsc _ _ rn _ op2 => (evalSrc2 op2 st).value - st.reg rn - 1#32 + c
  | .orr _ _ rn _ op2 => st.reg rn ||| (evalSrc2 op2 st).value
  | .bic _ _ rn _ op2 => st.reg rn &&& ~~~(evalSrc2 op2 st).value
  | .mvn _ _ _ _ op2 => ~~~(evalSrc2 op2 st).value
  | .mov _ _ _ _ src => (evalSrc2 (movSrc2 src) st).value
  | .lsl _ _ _ _ amt rm => (evalSrc2 (amountSrc2 .lsl rm amt) st).value
  | .lsr _ _ _ _ amt rm => (evalSrc2 (amountSrc2 .lsr rm amt) st).value
  | .asr _ _ _ _ amt rm => (evalSrc2 (amountSrc2 .asr rm amt) st).value
  | .rrx _ _ _ _ rm => (evalSrc2 (.shiftImm .ror 0#5 rm) st).value
  | .ror _ _ _ _ amt rm => (evalSrc2 (amountSrc2 .ror rm amt) st).value
  | _ => 0#32

/-- What a data-processing instruction leaves when Rd is not 15 (R130): the result in Rd, the flags if S = 1, the pc four
further on, and nothing else. -/
def State.dpDone (s t : State) (sBit : Bool) (rd : Reg) (result : Word) (f : Flags) : Prop :=
  t.pc = s.pc + 4#32 ∧ s.wroteRegs t [(rd, result)] ∧ t.cpsr.flags = (if sBit then f else s.cpsr.flags) ∧
  s.keepsSystem t ∧ s.keepsMemory t

/-- Does an integer fit 32 bits as a signed number (R11)? -/
def fitsSigned (z : Int) : Bool := decide (-2 ^ 31 ≤ z) && decide (z < 2 ^ 31)

/-! ## Operands of the memory instructions -/

/-- An address that a word, halfword or byte access is aligned at (R54). -/
def alignedFor (w : Width) (a : Word) : Bool :=
  match w with
  | .byte => true
  | .half => !a.getLsbD 0
  | .word => a.extractLsb' 0 2 = 0#2

/-- An access that raises nothing: aligned and inside `MEMMAP` (R56 (1), (2)). -/
def State.canAccess (s : State) (w : Width) (a : Word) : Bool := alignedFor w a && allMapped s.params a w.bytes

/-- The address a data access goes to: a word's with bits 1:0 cleared, which is the same address when it is aligned (R55). -/
def accessed (w : Width) (a : Word) : Word :=
  match w with
  | .byte => a
  | .half => a
  | .word => a &&& 0xFFFFFFFC#32

/-- A data access that raises nothing: aligned, or a word under `MISALIGNED_POLICY = armv4` (R54, R55), and inside `MEMMAP`. -/
def State.reaches (s : State) (w : Width) (a : Word) : Bool :=
  (alignedFor w a || (w = .word && s.params.misaligned = .armv4)) && allMapped s.params (accessed w a) w.bytes

/-- What LDR and SWP make of the word `v` read for address `a`: rotated right by `8 * a[1:0]`, nothing when `a` is aligned
(R55). -/
def rotatedLoad (a v : Word) : Word := v.rotateRight (8 * (a.extractLsb' 0 2).toNat)

/-- The restrictions of R225 that all single accesses share are met. -/
def baseOk (wb : Bool) (rn rd : Reg) (rm : Option Reg) : Prop :=
  (wb = true → rn ≠ 15#4 ∧ rn ≠ rd ∧ rm ≠ some rn) ∧ rm ≠ some 15#4

/-- The first of those restrictions that is broken, in the order of R225's table. -/
def baseBroken (wb : Bool) (rn rd : Reg) (rm : Option Reg) : Option Refusal :=
  if wb = true ∧ rn = 15#4 then some .wbPc
  else if wb = true ∧ rn = rd then some .wbRdEqRn
  else if wb = true ∧ rm = some rn then some .wbRmEqRn
  else if rm = some 15#4 then some .rmPc
  else none

/-- What a load leaves (R224): the value in Rd, the base written back if the mode asks for it, and nothing else. -/
def State.loadDone (s t : State) (rn rd : Reg) (m : Addressing) (v : Word) : Prop :=
  t.pc = s.pc + 4#32 ∧ s.wroteRegs t ((rd, v) :: (m.writeBack.map fun b => (rn, b)).toList) ∧
  s.keepsFlags t ∧ s.keepsSystem t ∧ s.keepsMemory t

/-- What a store leaves (R224): the low bytes of the value at the address, those bytes counted as stored to (R65), the base
written back, and nothing else. -/
def State.storeDone (s t : State) (w : Width) (rn : Reg) (v : Word) (m : Addressing) : Prop :=
  t.pc = s.pc + 4#32 ∧ s.wroteRegs t (m.writeBack.map fun b => (rn, b)).toList ∧
  s.keepsFlags t ∧ s.keepsSystem t ∧ t.loadBytes w (accessed w m.adr) = some (narrow w v) ∧
  t.countsStored w (accessed w m.adr) ∧ s.keepsMemoryOutside t w (accessed w m.adr)

/-! ## Block transfers -/

/-- How many registers of the list come before `r`. -/
def blockRank (list : BitVec 16) (r : Reg) : Nat :=
  ((List.range r.toNat).filter fun k => list.getLsbD k).length

/-- Is `r` in the list (R273)? -/
def inList (list : BitVec 16) (r : Reg) : Bool := list.getLsbD r.toNat

/-- The address of the word of register `r` in a block transfer (R273). -/
def blockAddress (p u : Bool) (base : Word) (list : BitVec 16) (r : Reg) : Word :=
  blockStart p u base list + BitVec.ofNat 32 (4 * blockRank list r)

/-- No access of a block transfer raises anything. -/
def State.canAccessBlock (s : State) (p u : Bool) (base : Word) (list : BitVec 16) : Prop :=
  ∀ r, inList list r = true → s.reaches .word (blockAddress p u base list r) = true

/-- `v` gives the word in memory for each register of the list. -/
def State.blockHolds (s : State) (p u : Bool) (base : Word) (list : BitVec 16) (v : Reg → Word) : Prop :=
  ∀ r, inList list r = true → s.loadBytes .word (accessed .word (blockAddress p u base list r)) = some (v r)

/-- The restrictions of R273 to R275 and R346 on an LDM are met (a User-bank transfer in System mode: entry 18). -/
def State.ldmAllowed (st : State) (s w : Bool) (rn : Reg) (list : BitVec 16) : Prop :=
  list ≠ 0#16 ∧ rn ≠ 15#4 ∧ (w = true → inList list rn = false) ∧
  (s = true → st.mode ≠ .usr ∧ (inList list 15#4 = true → st.mode ≠ .sys) ∧ (inList list 15#4 = false → w = false))

/-- The restrictions of R273 to R275 on an STM are met (a User-bank transfer in System mode: entry 18). -/
def State.stmAllowed (st : State) (s w : Bool) (rn : Reg) (list : BitVec 16) : Prop :=
  list ≠ 0#16 ∧ rn ≠ 15#4 ∧ (s = true → st.mode ≠ .usr ∧ w = false) ∧
  (w = true → inList list rn = true → blockRank list rn = 0) ∧ (inList list 15#4 = true → st.params.storePc ≠ .none)

/-- The registers of bank `b` that an LDM leaves (R271, R273): the listed ones hold their words, the base of the current mode
its new value if W = 1, and every other register is as before. -/
def State.ldmWroteRegs (s t : State) (b : Bank) (w : Bool) (rn : Reg) (list : BitVec 16) (v : Reg → Word) (base : Word) :
    Prop :=
  (∀ r, r ≠ 15#4 → inList list r = true → t.regs.get (slot b r) = v r) ∧
  (w = true → t.regs.get (slot s.bank rn) = base) ∧
  ∀ j, (∀ r, r ≠ 15#4 → inList list r = true → j ≠ slot b r) → (w = true → j ≠ slot s.bank rn) →
    t.regs.get j = s.regs.get j

/-! ## Which instructions may do what -/

/-- The instructions that store to memory (R52). -/
def isStore : Instr → Bool
  | .swp .. | .swpb .. | .strh .. | .strt .. | .str .. | .strbt .. | .strb .. | .stm .. => true
  | _ => false

/-- The instructions that may write a flag (R29, R304): S = 1, the comparisons, MSR, and an LDM that returns from an
exception. -/
def mayWriteFlags : Instr → Bool
  | .mul _ s _ _ _ _ => s
  | .mla _ s _ _ _ _ => s
  | .umull _ s _ _ _ _ => s
  | .umlal _ s _ _ _ _ => s
  | .smull _ s _ _ _ _ => s
  | .smlal _ s _ _ _ _ => s
  | .tst .. | .teq .. | .cmp .. | .cmn .. | .msr .. => true
  | .ldm _ _ _ s _ _ list => s && list.getLsbD 15
  | i =>
    match dpForm i with
    | some f => f.s
    | none => false

end Sys2Proof.Machine
end

