-- ==== Sys2Proof/Certificates/Slice0/Obligations.lean ====
section
/-! DEFINITION. The statements for the provers. -/

open Sys2Proof Sys2Proof.Machine

/-! ## Decoding and encoding -/

/-- Every canonical instruction is decoded from its own bytes, whatever follows them (30_encoding.md R100). -/
def Obligations.EncodeThenDecode : Prop :=
  ∀ (bit4 : Bool) (i : Instr) (rest : List Byte),
    i.canonical bit4 = true → decode bit4 (encode bit4 i ++ rest) = .ok (i, rest)

/-- No bit of a word is lost by decoding it: encoding what it decodes to gives the word back, and what it decodes to is
canonical, the name of the first row that matches it (R100, R103, R110). -/
def Obligations.DecodeThenEncode : Prop :=
  ∀ (bit4 : Bool) (w : Word),
    encodeWord bit4 (decodeWord bit4 w) = w ∧ (decodeWord bit4 w).canonical bit4 = true

/-- Words written out from the encodings decode to what they stand for (95_test_vectors.md V1, V135, V180, V184, V203, V118,
V262, V265, V217, in this order). -/
def Obligations.SpecWordsDecode : Prop :=
  decodeWord false 0xE0010002 = .and .al false 1 0 (.shiftImm .lsl 0 2) ∧
  decodeWord false 0xE5910004 = .ldr .al .offset true 1 0 (.imm 4) ∧
  decodeWord false 0xEB0003FE = .bl .al 0x3FE ∧
  decodeWord false 0xE890000E = .ldm .al false true false false 0 0xE ∧
  decodeWord false 0xE1420091 = .swpb .al 2 0 0 1 ∧
  decodeWord false 0xE0810392 = .umull .al false 1 0 3 2 ∧
  decodeWord false 0xE328F20F = .msr .al false 8 15 (.imm 2 15) ∧
  decodeWord false 0xE12FFF1E = .reservedDpCompareS0 .al 0x12FFF1E ∧
  decodeWord false 0xED911000 = .ldc .al true true false false 1 1 0 0

/-! ## The step -/

/-- When no event is pending and the four bytes at the pc, mapped and never stored to, decode to `i`, the step is `exec i`, in
the state whose input sample is used up and whose caution of R373 (a) is one instruction older (R12, R58, R303). -/
def Obligations.StepRunsDecoded : Prop :=
  ∀ (s : State) (i : Instr) (b0 b1 b2 b3 : Byte),
    event s = none → codeModified s = false → s.canAccess .word s.pc = true →
    s.byteAt s.pc = some b0 → s.byteAt (s.pc + 1#32) = some b1 → s.byteAt (s.pc + 2#32) = some b2 →
    s.byteAt (s.pc + 3#32) = some b3 → decode s.params.memRegBit4 [b0, b1, b2, b3] = .ok (i, []) →
    step s = exec i s.sampled.ticked

/-- A fetch that cannot be made, in the order of R324: a byte stored to since launch, an address outside `MEMMAP`, a byte that
nothing has written (R35, R58, R65; entry 5). That the abort does not use up the caution of R373 (a) is the model's choice
(entry 11). -/
def Obligations.FetchStops : Prop :=
  ∀ s : State, event s = none → s.pc.extractLsb' 0 2 = 0#2 →
    (codeModified s = true → step s = .refused .fetchOfModifiedCode) ∧
    (codeModified s = false → allMapped s.params s.pc 4 = false →
      (s.params.profile = .U → step s = .fault (.trap .prefetchAbort s.pc)) ∧
      (s.params.profile = .S → ∃ t, step s = .next t ∧ s.entered t .abt 0x0C#32 (s.pc + 4#32) false ∧
        t.inputs = s.inputs.tail ∧ t.hazard = s.hazard)) ∧
    (codeModified s = false → allMapped s.params s.pc 4 = true → s.loadBytes .word s.pc = none →
      step s = .refused .readUnwritten)

/-- A store makes the fetch of any byte it wrote a refusal (R65, R57). -/
def Obligations.StoredBytesAreNotFetched : Prop :=
  ∀ (s : State) (w : Width) (a v : Word), event s = none →
    inAccess w a s.pc = true ∨ inAccess w a (s.pc + 1#32) = true ∨ inAccess w a (s.pc + 2#32) = true ∨
      inAccess w a (s.pc + 3#32) = true →
    step (s.storeBytes w a v) = .refused .fetchOfModifiedCode

/-- An enabled interrupt replaces the next instruction, FIQ before IRQ (R335, R343, R344, R345); a masked one does not; profile
U has no event, whatever the inputs (R326). That an interrupt does not use up the caution of R373 (a) is the model's choice
(entry 11). -/
def Obligations.InterruptEntry : Prop :=
  ∀ s : State,
    (s.params.profile = .U → event s = none) ∧
    ∀ (fiq irq : Bool) (rest : List Inputs), s.params.profile = .S → s.inputs = ⟨false, fiq, irq⟩ :: rest →
      (fiq = true → s.cpsr.f = false →
        ∃ t, step s = .next t ∧ s.entered t .fiq 0x1C#32 (s.pc + 4#32) true ∧ t.inputs = rest ∧ t.hazard = s.hazard) ∧
      ((fiq = false ∨ s.cpsr.f = true) → irq = true → s.cpsr.i = false →
        ∃ t, step s = .next t ∧ s.entered t .irq 0x18#32 (s.pc + 4#32) false ∧ t.inputs = rest ∧ t.hazard = s.hazard) ∧
      ((fiq = false ∨ s.cpsr.f = true) → (irq = false ∨ s.cpsr.i = true) → event s = none)

/-- The reset input gives the reset state of R348 and R36 whatever the processor was doing: Supervisor mode, both interrupts
disabled, the pc at the Reset vector. Nothing is said of a register or a flag. Memory stays (entry 9). -/
def Obligations.ResetEntry : Prop :=
  ∀ (s : State) (x : Inputs) (rest : List Inputs),
    s.params.profile = .S → s.inputs = x :: rest → x.reset = true →
    ∃ t, step s = .next t ∧ t.pc = 0#32 ∧ t.cpsr.mode = .svc ∧ t.cpsr.i = true ∧ t.cpsr.f = true ∧
      s.keepsMemory t ∧ t.params = s.params ∧ t.inputs = rest

/-- The state after reset, as far as the spec gives it (R36, R348). -/
def Obligations.ResetState : Prop :=
  core.reset.pc = 0#32 ∧ core.reset.cpsr.mode = .svc ∧ core.reset.cpsr.i = true ∧ core.reset.cpsr.f = true ∧
  core.reset.psr.toWord.extractLsb' 0 8 = 0b11010011#8 ∧ core.reset.psr.toWord.extractLsb' 8 20 = 0#20

/-! ## Invariants and rules of the whole machine -/

/-- The state after reset is in canonical form. -/
def Obligations.ResetIsWellFormed : Prop := State.reset.wf

/-- Every step keeps the pc word-aligned (R27), the memory canonical and the set of addresses stored to canonical. -/
def Obligations.StepKeepsWellFormed : Prop :=
  ∀ s t : State, s.wf → step s = .next t → t.wf

/-- No step changes a parameter of the machine (R6), every step uses up one input sample (R335; the list of samples is entry 8),
and no step takes an address out of those stored to since launch (R65; entry 24). -/
def Obligations.StepKeepsParameters : Prop :=
  ∀ s t : State, step s = .next t → t.params = s.params ∧ t.inputs = s.inputs.tail ∧ ∀ a ∈ s.stored, a ∈ t.stored

/-- "The only way from User mode to a privileged mode is an exception" (R340): a step from User mode stays there, with I, F,
every SPSR and every register of another bank as it was, or it enters an exception at its vector with its mode, IRQ disabled and
(but for Reset) the old CPSR saved. -/
def Obligations.UserModeIsConfined : Prop :=
  ∀ s t : State, s.params.profile = .S → s.cpsr.mode = .usr → step s = .next t →
    (t.cpsr.mode = .usr ∧ t.cpsr.i = s.cpsr.i ∧ t.cpsr.f = s.cpsr.f ∧ t.spsr = s.spsr ∧
      ∀ j, (∀ r, r ≠ 15#4 → j ≠ slot .usr r) → t.regs.get j = s.regs.get j) ∨
    ∃ e : Exc, t.pc = e.vector ∧ t.cpsr.mode = e.mode ∧ t.cpsr.i = true ∧
      (e ≠ .reset → t.spsr.get e.mode.bank = some s.cpsr.toPsr)

/-- Only the instructions that store change memory (R52, R130, R210, R260), not even taking an exception does (R344). -/
def Obligations.OnlyStoresWriteMemory : Prop :=
  ∀ (i : Instr) (s t : State), isStore i = false → exec i s = .next t → s.keepsMemory t

/-- Only an instruction with S = 1, a comparison, MSR or an exception return writes a flag (R29, R304). -/
def Obligations.OnlyFlagWritersWriteFlags : Prop :=
  ∀ (i : Instr) (s t : State), mayWriteFlags i = false → exec i s = .next t → s.keepsFlags t

/-- An instruction whose condition fails only advances the pc, whatever it is (R301); at the top of the address space that is
refused (R27; that a failed condition is refused there is entry 12). -/
def Obligations.FailedConditionAdvances : Prop :=
  ∀ (i : Instr) (c : Cond) (s : State), i.cond = some c → condPassed c s.cpsr.flags = false →
    (s.pc ≠ 0xFFFFFFFC#32 → exec i s = .next (s.setPc (s.pc + 4#32))) ∧
    (s.pc = 0xFFFFFFFC#32 → exec i s = .refused .pcWrap)

/-! ## Arithmetic, conditions, shifter -/

/-- `AddWithCarry` (R11): the exact sums decide the carry and the overflow. -/
def Obligations.AddWithCarryMeaning : Prop :=
  ∀ (a b : Word) (cin : Bool),
    (addWithCarry a b cin).value = a + b + (if cin then 1#32 else 0#32) ∧
    ((addWithCarry a b cin).carry = true ↔ 2 ^ 32 ≤ a.toNat + b.toNat + cin.toNat) ∧
    ((addWithCarry a b cin).overflow = true ↔
      ¬(-2 ^ 31 ≤ a.toInt + b.toInt + (cin.toNat : Int) ∧ a.toInt + b.toInt + (cin.toNat : Int) ≤ 2 ^ 31 - 1))

/-- The same flags as R306 words them: V when the operands agree in sign and the result does not; after a subtraction C means
that there was no borrow (R139). -/
def Obligations.OverflowAndBorrow : Prop :=
  ∀ (p q : Word) (cin : Bool),
    (addWithCarry p q cin).overflow = (p.msb == q.msb && (addWithCarry p q cin).value.msb != p.msb) ∧
    (addWithCarry p (~~~q) true).value = p - q ∧
    (addWithCarry p (~~~q) true).carry = decide (q.toNat ≤ p.toNat) ∧
    (addWithCarry p (~~~q) cin).value = p - q - (if cin then 0#32 else 1#32)

/-- The condition table (R302), by the bits of the cond field; 1111 names no condition. -/
def Obligations.ConditionTable : Prop :=
  ∀ (f : Flags) (v : BitVec 4),
    (Cond.ofBits v).map (fun c => condPassed c f) =
      (if v = 0b0000#4 then some (decide (f.z = true)) else if v = 0b0001#4 then some (decide (f.z = false))
      else if v = 0b0010#4 then some (decide (f.c = true)) else if v = 0b0011#4 then some (decide (f.c = false))
      else if v = 0b0100#4 then some (decide (f.n = true)) else if v = 0b0101#4 then some (decide (f.n = false))
      else if v = 0b0110#4 then some (decide (f.v = true)) else if v = 0b0111#4 then some (decide (f.v = false))
      else if v = 0b1000#4 then some (decide (f.c = true ∧ f.z = false))
      else if v = 0b1001#4 then some (decide (f.c = false ∨ f.z = true))
      else if v = 0b1010#4 then some (decide (f.n = f.v)) else if v = 0b1011#4 then some (decide (f.n ≠ f.v))
      else if v = 0b1100#4 then some (decide (f.z = false ∧ f.n = f.v))
      else if v = 0b1101#4 then some (decide (f.z = true ∨ f.n ≠ f.v))
      else if v = 0b1110#4 then some true else none)

/-- `ShiftImm` bit by bit (R133): each bit of the value comes from the bit that the shift moves there, and the carry-out is the
last bit shifted out. -/
def Obligations.ShiftByConstant : Prop :=
  ∀ (n : BitVec 5) (m : Word) (c : Bool),
    (shiftByImm .lsl 0 m c = ⟨m, c⟩) ∧
    (n ≠ 0#5 → (∀ k, k < 32 → (shiftByImm .lsl n m c).value.getLsbD k = (decide (n.toNat ≤ k) && m.getLsbD (k - n.toNat))) ∧
      (shiftByImm .lsl n m c).carry = m.getLsbD (32 - n.toNat)) ∧
    (shiftByImm .lsr 0 m c = ⟨0#32, m.getLsbD 31⟩) ∧
    (n ≠ 0#5 → (∀ k, k < 32 → (shiftByImm .lsr n m c).value.getLsbD k = m.getLsbD (k + n.toNat)) ∧
      (shiftByImm .lsr n m c).carry = m.getLsbD (n.toNat - 1)) ∧
    ((∀ k, k < 32 → (shiftByImm .asr 0 m c).value.getLsbD k = m.getLsbD 31) ∧
      (shiftByImm .asr 0 m c).carry = m.getLsbD 31) ∧
    (n ≠ 0#5 → (∀ k, k < 32 → (shiftByImm .asr n m c).value.getLsbD k = m.getLsbD (min (k + n.toNat) 31)) ∧
      (shiftByImm .asr n m c).carry = m.getLsbD (n.toNat - 1)) ∧
    ((∀ k, k < 32 → (shiftByImm .ror 0 m c).value.getLsbD k = if k = 31 then c else m.getLsbD (k + 1)) ∧
      (shiftByImm .ror 0 m c).carry = m.getLsbD 0) ∧
    (n ≠ 0#5 → (∀ k, k < 32 → (shiftByImm .ror n m c).value.getLsbD k = m.getLsbD ((k + n.toNat) % 32)) ∧
      (shiftByImm .ror n m c).carry = m.getLsbD (n.toNat - 1) ∧
      (shiftByImm .ror n m c).carry = (shiftByImm .ror n m c).value.getLsbD 31)

/-- `ShiftReg` (R134), bit by bit: the amount is the low byte of Rs, 0 to 255. -/
def Obligations.ShiftByRegister : Prop :=
  ∀ (sh : ShiftType) (amount : Nat) (m : Word) (c : Bool) (rs rm : Reg) (st : State),
    evalSrc2 (.shiftReg sh rs rm) st = shiftByReg sh ((st.reg rs).toNat % 256) (st.reg rm) st.cpsr.flags.c ∧
    (amount = 0 → shiftByReg sh amount m c = ⟨m, c⟩) ∧
    (1 ≤ amount → amount ≤ 255 →
      (∀ k, k < 32 → (shiftByReg .lsl amount m c).value.getLsbD k = (decide (amount ≤ k) && m.getLsbD (k - amount))) ∧
      (shiftByReg .lsl amount m c).carry = (decide (amount ≤ 32) && m.getLsbD (32 - amount)) ∧
      (∀ k, k < 32 → (shiftByReg .lsr amount m c).value.getLsbD k = m.getLsbD (k + amount)) ∧
      (shiftByReg .lsr amount m c).carry = m.getLsbD (amount - 1) ∧
      (∀ k, k < 32 → (shiftByReg .asr amount m c).value.getLsbD k = m.getLsbD (min (k + amount) 31)) ∧
      (shiftByReg .asr amount m c).carry = m.getLsbD (min (amount - 1) 31) ∧
      (∀ k, k < 32 → (shiftByReg .ror amount m c).value.getLsbD k = m.getLsbD ((k + amount) % 32)) ∧
      (shiftByReg .ror amount m c).carry = m.getLsbD ((amount + 31) % 32))

/-- The shifter (R132): an immediate is imm8 rotated right by twice rot, with carry-out C for rot = 0 and else bit 31; the two
register forms go to `ShiftImm` and `ShiftReg`, the last with the low byte of Rs. -/
def Obligations.ShifterResults : Prop :=
  ∀ (rot : BitVec 4) (imm8 : BitVec 8) (sh : ShiftType) (n : BitVec 5) (rs rm : Reg) (st : State),
    let x := evalSrc2 (.imm rot imm8) st
    (∀ k, k < 32 → x.value.getLsbD k = imm8.getLsbD ((k + 2 * rot.toNat) % 32)) ∧
    (rot = 0#4 → x.carry = st.cpsr.flags.c) ∧ (rot ≠ 0#4 → x.carry = x.value.getLsbD 31) ∧
    evalSrc2 (.shiftImm sh n rm) st = shiftByImm sh n (st.reg rm) st.cpsr.flags.c ∧
    evalSrc2 (.shiftReg sh rs rm) st = shiftByReg sh ((st.reg rs).toNat % 256) (st.reg rm) st.cpsr.flags.c

/-! ## Memory and registers -/

/-- `MemWrite` and `MemRead` (R53, R56, R57): byte `k` of the value goes to address `a + k`, nothing else changes, and reading
the same width at the same address gives the low bytes of the value back. -/
def Obligations.StoreThenLoad : Prop :=
  ∀ (s : State) (w : Width) (a v : Word),
    (∀ k, k < w.bytes → (s.storeBytes w a v).byteAt (a + BitVec.ofNat 32 k) = some (v.extractLsb' (8 * k) 8)) ∧
    s.keepsMemoryOutside (s.storeBytes w a v) w a ∧
    ∃ u, (s.storeBytes w a v).loadBytes w a = some u ∧ ∀ k, k < 32 → u.getLsbD k = (decide (k < 8 * w.bytes) && v.getLsbD k)

/-- The outcome of a read (R54, R55, R56), in the order of its checks. Under `armv4` a misaligned word is the aligned word
rotated right by eight times the two low bits (LDR, SWP); the name of the halfword refusal is the model's (entry 15). -/
def Obligations.ReadOutcomes : Prop :=
  ∀ (s : State) (w : Width) (a : Word),
    (s.canAccess w a = true → ∀ v, s.loadBytes w a = some v → loadValue s w a = .ok v) ∧
    (s.canAccess w a = true → s.loadBytes w a = none → loadValue s w a = .refuses .readUnwritten) ∧
    (alignedFor w a = true → allMapped s.params a w.bytes = false → loadValue s w a = .raises .dataAbort a) ∧
    (alignedFor w a = false → s.params.misaligned = .fault → loadValue s w a = .raises .alignmentFault a) ∧
    (alignedFor .half a = false → s.params.misaligned = .armv4 → loadValue s .half a = .refuses .misalignedHalfword) ∧
    (alignedFor .word a = false → s.params.misaligned = .armv4 → allMapped s.params (alignDown a) 4 = true →
      ∀ v, s.loadBytes .word (alignDown a) = some v →
        ∃ u, loadValue s .word a = .ok u ∧ ∀ k, k < 32 → u.getLsbD k = v.getLsbD ((k + 8 * (a.toNat % 4)) % 32))

/-- Which register numbers name one register in two modes (R341): R0 to R7 always, R8 to R12 unless one mode is FIQ, R13 and R14
only within a mode, User and System being one. The operand read (R25, R10): `pc + 8` for 15, else the register of the current
mode; `userReg` reads the User copy (R275); under the caution of R373 (a) nothing is said of a register with a copy of its own
(entry 11). The SPSR named is the current mode's (R342); profile U is always at user level (R328). -/
def Obligations.RegisterBanks : Prop :=
  (∀ (b d : Bank) (r q : Reg), r ≠ 15#4 → q ≠ 15#4 →
    (slot b r = slot d q ↔
      r = q ∧ (r.toNat < 8 ∨ (r.toNat < 13 ∧ (b = .fiq ↔ d = .fiq)) ∨ b = d))) ∧
  (∀ (m n : Mode) (r q : Reg), r ≠ 15#4 → q ≠ 15#4 →
    (slot m.bank r = slot n.bank q ↔
      r = q ∧ (r.toNat < 8 ∨ (r.toNat < 13 ∧ (m = .fiq ↔ n = .fiq)) ∨ m = n ∨
        ((m = .usr ∨ m = .sys) ∧ (n = .usr ∨ n = .sys))))) ∧
  (Mode.usr.bank = .usr ∧ Mode.fiq.bank = .fiq ∧ Mode.irq.bank = .irq ∧ Mode.svc.bank = .svc ∧ Mode.abt.bank = .abt ∧
    Mode.und.bank = .und ∧ Mode.sys.bank = .usr) ∧
  ∀ (st : State) (r : Reg),
    (st.params.profile = .S → st.mode = st.cpsr.mode) ∧ (st.params.profile = .U → st.mode = .usr) ∧
    st.bank = st.mode.bank ∧
    st.reg 15#4 = st.pc + 8#32 ∧
    (r ≠ 15#4 → st.hazard ≠ .live ∨ slot st.bank r = slot .usr r →
      st.reg r = st.regs.get (slot st.bank r) ∧ st.userReg r = st.regs.get (slot .usr r)) ∧
    st.spsrNow = st.spsr.get st.bank ∧ (st.spsrNow = none ↔ st.bank = .usr)

/-- The memory offsets and the indexing modes (R222, R223, R94): the address accessed and the base written back, for each
instruction format in every mode. The four address ranges of a block transfer of `n` registers and the base it writes back
(R273). -/
def Obligations.AddressingModes : Prop :=
  ∀ (st : State) (idx : Index) (u : Bool) (rn rm : Reg) (imm12 : BitVec 12) (imm8 : BitVec 8) (sh : ShiftType) (n : BitVec 5)
    (sbz : BitVec 4) (base offset : Word) (list : BitVec 16),
    let bytes : Word := BitVec.ofNat 32 (4 * (List.range 16).countP fun k => list.getLsbD k)
    addressing .offset u base offset = ⟨if u then base + offset else base - offset, none⟩ ∧
    addressing .pre u base offset =
      ⟨if u then base + offset else base - offset, some (if u then base + offset else base - offset)⟩ ∧
    addressing .post u base offset = ⟨base, some (if u then base + offset else base - offset)⟩ ∧
    (memAddressing .offset u rn (.imm imm12) st).adr.toNat =
      (if u then (st.reg rn).toNat + imm12.toNat else (st.reg rn).toNat + (2 ^ 32 - imm12.toNat)) % 2 ^ 32 ∧
    (memAddressing .offset u rn (.reg sh n rm) st).adr =
      (if u then st.reg rn + (shiftByImm sh n (st.reg rm) st.cpsr.flags.c).value
        else st.reg rn - (shiftByImm sh n (st.reg rm) st.cpsr.flags.c).value) ∧
    (extraAddressing (.mode .offset) u rn (.imm imm8) st).adr.toNat =
      (if u then (st.reg rn).toNat + imm8.toNat else (st.reg rn).toNat + (2 ^ 32 - imm8.toNat)) % 2 ^ 32 ∧
    (extraAddressing (.mode .offset) u rn (.reg sbz rm) st).adr =
      (if u then st.reg rn + st.reg rm else st.reg rn - st.reg rm) ∧
    memAddressing idx u rn (.imm imm12) st = addressing idx u (st.reg rn) (BitVec.ofNat 32 imm12.toNat) ∧
    memAddressing idx u rn (.reg sh n rm) st =
      addressing idx u (st.reg rn) (shiftByImm sh n (st.reg rm) st.cpsr.flags.c).value ∧
    extraAddressing (.mode idx) u rn (.imm imm8) st = addressing idx u (st.reg rn) (BitVec.ofNat 32 imm8.toNat) ∧
    extraAddressing (.mode idx) u rn (.reg sbz rm) st = addressing idx u (st.reg rn) (st.reg rm) ∧
    blockStart false true base list = base ∧ blockStart true true base list = base + 4#32 ∧
    blockStart false false base list = base - bytes + 4#32 ∧ blockStart true false base list = base - bytes ∧
    blockWriteBack true base list = base + bytes ∧ blockWriteBack false base list = base - bytes

/-! ## Data processing -/

/-- AND, EOR, ORR and BIC (R141 to R144, R138): result, flags, and what stays. -/
def Obligations.LogicalResults : Prop :=
  ∀ (c : Cond) (s : Bool) (rn rd : Reg) (op2 : Src2) (st : State),
    st.runs c → rd ≠ 15#4 → r15InShift op2 [rd, rn] = false →
    let a := st.reg rn
    let x := evalSrc2 op2 st
    let done (i : Instr) (r : Word) : Prop :=
      ∃ t, exec i st = .next t ∧ st.dpDone t s rd r ⟨r.msb, decide (r = 0#32), x.carry, st.cpsr.flags.v⟩
    done (.and c s rn rd op2) (a &&& x.value) ∧ done (.eor c s rn rd op2) (a ^^^ x.value) ∧
    done (.orr c s rn rd op2) (a ||| x.value) ∧ done (.bic c s rn rd op2) (a &&& ~~~x.value)

/-- MVN, MOV, LSL, LSR, ASR, RRX and ROR (R145, R170 to R175, R138). What MOV and the shifts make of their operand fields
(R103): a MOV operand is the rotated immediate or Rm itself with carry-out C; a shift is by the constant, or by the low byte of
Rs. -/
def Obligations.MoveResults : Prop :=
  ∀ (c : Cond) (s : Bool) (rd rm rs : Reg) (op2 : Src2) (src : MovSrc) (amt : ShiftAmount) (st : State),
    st.runs c → rd ≠ 15#4 →
    let done (i : Instr) (r : Word) (sco : Bool) : Prop :=
      ∃ t, exec i st = .next t ∧ st.dpDone t s rd r ⟨r.msb, decide (r = 0#32), sco, st.cpsr.flags.v⟩
    let shift (sh : ShiftType) : Shifted := evalSrc2 (amountSrc2 sh rm amt) st
    let x := evalSrc2 op2 st
    let y := evalSrc2 (movSrc2 src) st
    (r15InShift op2 [rd] = false → done (.mvn c s 0#4 rd op2) (~~~x.value) x.carry) ∧
    done (.mov c s 0#4 rd src) y.value y.carry ∧
    done (.rrx c s 0#4 rd rm) (cat (BitVec.ofBool st.cpsr.flags.c) ((st.reg rm).extractLsb' 1 31)) ((st.reg rm).getLsbD 0) ∧
    (r15InShift (amountSrc2 .lsl rm amt) [rd] = false →
      done (.lsl c s 0#4 rd amt rm) (shift .lsl).value (shift .lsl).carry ∧
      done (.lsr c s 0#4 rd amt rm) (shift .lsr).value (shift .lsr).carry ∧
      done (.asr c s 0#4 rd amt rm) (shift .asr).value (shift .asr).carry ∧
      done (.ror c s 0#4 rd amt rm) (shift .ror).value (shift .ror).carry) ∧
    (∀ (rot : BitVec 4) (imm8 : BitVec 8), src = .imm rot imm8 →
      (∀ k, k < 32 → y.value.getLsbD k = imm8.getLsbD ((k + 2 * rot.toNat) % 32)) ∧
      y.carry = if rot = 0#4 then st.cpsr.flags.c else y.value.getLsbD 31) ∧
    (src = .reg rm → y = ⟨st.reg rm, st.cpsr.flags.c⟩) ∧
    (∀ (sh : ShiftType) (n : BitVec 5), amt = .imm n → shift sh = shiftByImm sh n (st.reg rm) st.cpsr.flags.c) ∧
    (∀ sh : ShiftType, amt = .reg rs →
      shift sh = shiftByReg sh ((st.reg rs).toNat % 256) (st.reg rm) st.cpsr.flags.c)

/-- SUB, RSB, ADD, ADC, SBC and RSC (R150 to R155, R139): result, the four flags as the rules word them (carry out of the
unsigned sum, no borrow, a signed result that does not fit), and what stays. -/
def Obligations.ArithmeticResults : Prop :=
  ∀ (c : Cond) (s : Bool) (rn rd : Reg) (op2 : Src2) (st : State),
    st.runs c → rd ≠ 15#4 → r15InShift op2 [rd, rn] = false →
    let a := st.reg rn
    let b := (evalSrc2 op2 st).value
    let one : Nat := st.cpsr.flags.c.toNat
    let low : Nat := 1 - one
    let done (i : Instr) (r : Word) (cf vf : Bool) : Prop :=
      ∃ t, exec i st = .next t ∧ st.dpDone t s rd r ⟨r.msb, decide (r = 0#32), cf, vf⟩
    done (.sub c s rn rd op2) (a - b) (decide (b.toNat ≤ a.toNat)) (!fitsSigned (a.toInt - b.toInt)) ∧
    done (.rsb c s rn rd op2) (b - a) (decide (a.toNat ≤ b.toNat)) (!fitsSigned (b.toInt - a.toInt)) ∧
    done (.add c s rn rd op2) (a + b) (decide (2 ^ 32 ≤ a.toNat + b.toNat)) (!fitsSigned (a.toInt + b.toInt)) ∧
    done (.adc c s rn rd op2) (a + b + BitVec.ofNat 32 one) (decide (2 ^ 32 ≤ a.toNat + b.toNat + one))
      (!fitsSigned (a.toInt + b.toInt + one)) ∧
    done (.sbc c s rn rd op2) (a - b - BitVec.ofNat 32 low) (decide (b.toNat + low ≤ a.toNat))
      (!fitsSigned (a.toInt - b.toInt - low)) ∧
    done (.rsc c s rn rd op2) (b - a - BitVec.ofNat 32 low) (decide (a.toNat + low ≤ b.toNat))
      (!fitsSigned (b.toInt - a.toInt - low))

/-- TST, TEQ, CMP and CMN (R160 to R163): the flags, and nothing else but the pc. NOP (R176): the pc only (that NOP reads
nothing is entry 22). -/
def Obligations.CompareAndNopResults : Prop :=
  ∀ (c : Cond) (rn : Reg) (op2 : Src2) (st : State), st.runs c →
    let a := st.reg rn
    let x := evalSrc2 op2 st
    let b := x.value
    let done (i : Instr) (f : Flags) : Prop :=
      ∃ t, exec i st = .next t ∧ t.pc = st.pc + 4#32 ∧ st.wroteRegs t [] ∧ t.cpsr.flags = f ∧ st.keepsSystem t ∧
        st.keepsMemory t
    (r15InShift op2 [rn] = false →
      done (.tst c rn 0#4 op2) ⟨(a &&& b).msb, decide (a &&& b = 0#32), x.carry, st.cpsr.flags.v⟩ ∧
      done (.teq c rn 0#4 op2) ⟨(a ^^^ b).msb, decide (a = b), x.carry, st.cpsr.flags.v⟩ ∧
      done (.cmp c rn 0#4 op2)
        ⟨(a - b).msb, decide (a = b), decide (b.toNat ≤ a.toNat), !fitsSigned (a.toInt - b.toInt)⟩ ∧
      done (.cmn c rn 0#4 op2)
        ⟨(a + b).msb, decide (a + b = 0#32), decide (2 ^ 32 ≤ a.toNat + b.toNat), !fitsSigned (a.toInt + b.toInt)⟩) ∧
    done (.nop c) st.cpsr.flags

/-- A data-processing instruction with Rd = 15 and S = 0 branches to its result and changes nothing else (R137, R26); a result
that is not word-aligned is refused. -/
def Obligations.DpWritesPc : Prop :=
  ∀ (i : Instr) (f : DpForm) (st : State), dpForm i = some f → condPassed f.cond st.cpsr.flags = true →
    f.unused = 0#4 → r15InShift f.op2 f.named = false → f.rd = 15#4 → f.s = false →
    ((dpValue i st).extractLsb' 0 2 = 0#2 →
      ∃ t, exec i st = .next t ∧ t.pc = dpValue i st ∧ st.wroteRegs t [] ∧ st.keepsFlags t ∧ st.keepsSystem t ∧
        st.keepsMemory t) ∧
    ((dpValue i st).extractLsb' 0 2 ≠ 0#2 → exec i st = .refused .pcUnaligned)

/-- A data-processing instruction with Rd = 15 and S = 1 returns from an exception (R346): the pc and the whole CPSR in one
step; refused without an SPSR, for an unaligned pc, for T = 1 (entry 17) and for an illegal mode. -/
def Obligations.DpReturnsFromException : Prop :=
  ∀ (i : Instr) (f : DpForm) (st : State), dpForm i = some f → condPassed f.cond st.cpsr.flags = true →
    f.unused = 0#4 → r15InShift f.op2 f.named = false → f.rd = 15#4 → f.s = true →
    (st.mode = .usr ∨ st.mode = .sys → exec i st = .refused .sWithRdPc) ∧
    (∀ p, st.spsrNow = some p →
      ((dpValue i st).extractLsb' 0 2 ≠ 0#2 → exec i st = .refused .pcUnaligned) ∧
      ((dpValue i st).extractLsb' 0 2 = 0#2 → p.t = true → exec i st = .refused .tBit) ∧
      ((dpValue i st).extractLsb' 0 2 = 0#2 → p.t = false → Mode.ofBits p.m = none → exec i st = .refused .badMode) ∧
      (∀ m, (dpValue i st).extractLsb' 0 2 = 0#2 → p.t = false → Mode.ofBits p.m = some m →
        ∃ t, exec i st = .next t ∧ t.pc = dpValue i st ∧ t.cpsr = ⟨p.flags, p.i, p.f, m⟩ ∧
          (∀ j, t.regs.get j = st.regs.get j) ∧ t.spsr = st.spsr ∧ t.params = st.params ∧ st.keepsMemory t))

/-- What stops a data-processing instruction (R111, R136, R27): the unused field not zero, then register 15 in a
register-shifted form, then an advance at the top of the address space; of NOP only the last. The order is entry 13. -/
def Obligations.DpStops : Prop :=
  ∀ (c : Cond) (rn : Reg) (sbz : BitVec 4) (op2 : Src2) (i : Instr) (f : DpForm) (st : State),
    (dpForm i = some f → condPassed f.cond st.cpsr.flags = true →
      (f.unused ≠ 0#4 → exec i st = .refused .sbzViolation) ∧
      (f.unused = 0#4 → r15InShift f.op2 f.named = true → exec i st = .refused .r15InRegisterShift) ∧
      (f.unused = 0#4 → r15InShift f.op2 f.named = false → f.rd ≠ 15#4 → st.pc = 0xFFFFFFFC#32 →
        exec i st = .refused .pcWrap)) ∧
    (i = .tst c rn sbz op2 ∨ i = .teq c rn sbz op2 ∨ i = .cmp c rn sbz op2 ∨ i = .cmn c rn sbz op2 →
      condPassed c st.cpsr.flags = true →
      (sbz ≠ 0#4 → exec i st = .refused .sbzViolation) ∧
      (sbz = 0#4 → r15InShift op2 [rn] = true → exec i st = .refused .r15InRegisterShift) ∧
      (sbz = 0#4 → r15InShift op2 [rn] = false → st.pc = 0xFFFFFFFC#32 → exec i st = .refused .pcWrap)) ∧
    (condPassed c st.cpsr.flags = true → st.pc = 0xFFFFFFFC#32 → exec (.nop c) st = .refused .pcWrap)

/-! ## Multiply -/

/-- MUL and MLA (R200, R201, R211): the low 32 bits, N and Z; C under `MUL_CV_POLICY = unchanged`, V always, as before. At the
top of the address space: refused (R27). -/
def Obligations.MultiplyResults : Prop :=
  ∀ (c : Cond) (s : Bool) (rd ra rm rn : Reg) (st : State),
    condPassed c st.cpsr.flags = true → rd ≠ 15#4 → rm ≠ 15#4 → rn ≠ 15#4 → rd ≠ rn →
    let done (i : Instr) (r : Word) : Prop :=
      st.completes i fun t => t.pc = st.pc + 4#32 ∧ st.wroteRegs t [(rd, r)] ∧
        (s = true → t.cpsr.flags.n = r.msb ∧ t.cpsr.flags.z = decide (r = 0#32) ∧ t.cpsr.flags.v = st.cpsr.flags.v ∧
          (st.params.mulCV = .unchanged → t.cpsr.flags.c = st.cpsr.flags.c)) ∧
        (s = false → st.keepsFlags t) ∧ st.keepsSystem t ∧ st.keepsMemory t
    done (.mul c s rd 0#4 rm rn) (BitVec.ofNat 32 ((st.reg rn).toNat * (st.reg rm).toNat)) ∧
    (ra ≠ 15#4 →
      done (.mla c s rd ra rm rn) (BitVec.ofNat 32 ((st.reg rn).toNat * (st.reg rm).toNat + (st.reg ra).toNat)))

/-- UMULL, UMLAL, SMULL and SMLAL (R202 to R205, R211, R213): all 64 bits, the high word to Rd and the low word to Ra.
At the top of the address space: refused (R27). -/
def Obligations.LongMultiplyResults : Prop :=
  ∀ (c : Cond) (s : Bool) (rd ra rm rn : Reg) (st : State),
    condPassed c st.cpsr.flags = true → rd ≠ 15#4 → ra ≠ 15#4 → rm ≠ 15#4 → rn ≠ 15#4 → rd ≠ rn → ra ≠ rd → ra ≠ rn →
    let acc : Nat := (st.reg rd).toNat * 2 ^ 32 + (st.reg ra).toNat
    let done (i : Instr) (p : BitVec 64) : Prop :=
      st.completes i fun t => t.pc = st.pc + 4#32 ∧
        st.wroteRegs t [(rd, p.extractLsb' 32 32), (ra, p.extractLsb' 0 32)] ∧
        (s = true → t.cpsr.flags.n = p.msb ∧ t.cpsr.flags.z = decide (p = 0#64) ∧
          (st.params.mulCV = .unchanged → t.cpsr.flags.c = st.cpsr.flags.c ∧ t.cpsr.flags.v = st.cpsr.flags.v)) ∧
        (s = false → st.keepsFlags t) ∧ st.keepsSystem t ∧ st.keepsMemory t
    done (.umull c s rd ra rm rn) (BitVec.ofNat 64 ((st.reg rn).toNat * (st.reg rm).toNat)) ∧
    done (.umlal c s rd ra rm rn) (BitVec.ofNat 64 ((st.reg rn).toNat * (st.reg rm).toNat + acc)) ∧
    done (.smull c s rd ra rm rn) (BitVec.ofInt 64 ((st.reg rn).toInt * (st.reg rm).toInt)) ∧
    done (.smlal c s rd ra rm rn) (BitVec.ofInt 64 ((st.reg rn).toInt * (st.reg rm).toInt + (acc : Int)))

/-- What stops a multiply (R212, R111), in the order of the model (entry 13). -/
def Obligations.MultiplyStops : Prop :=
  ∀ (c : Cond) (s : Bool) (sbz : BitVec 4) (rd ra rm rn : Reg) (st : State) (i : Instr),
    condPassed c st.cpsr.flags = true →
    (sbz ≠ 0#4 → exec (.mul c s rd sbz rm rn) st = .refused .sbzViolation) ∧
    (rd = 15#4 ∨ rm = 15#4 ∨ rn = 15#4 → exec (.mul c s rd 0#4 rm rn) st = .refused .r15InMultiply) ∧
    (rd ≠ 15#4 → rm ≠ 15#4 → rd = rn → exec (.mul c s rd 0#4 rm rn) st = .refused .mulRdEqRn) ∧
    (i = .mla c s rd ra rm rn ∨ i = .umull c s rd ra rm rn ∨ i = .umlal c s rd ra rm rn ∨ i = .smull c s rd ra rm rn ∨
        i = .smlal c s rd ra rm rn →
      (rd = 15#4 ∨ ra = 15#4 ∨ rm = 15#4 ∨ rn = 15#4 → exec i st = .refused .r15InMultiply) ∧
      (rd ≠ 15#4 → ra ≠ 15#4 → rm ≠ 15#4 → rd = rn → exec i st = .refused .mulRdEqRn) ∧
      (rd ≠ 15#4 → ra ≠ 15#4 → rm ≠ 15#4 → rn ≠ 15#4 → rd ≠ rn → ra = rd ∨ ra = rn → i ≠ .mla c s rd ra rm rn →
        exec i st = .refused .mullRegs))

/-! ## Single loads and stores -/

/-- LDR, LDRB, LDRT and LDRBT (R224, R231, R233, R283, R284, R286): the value read, zero-extended for a byte; refused where a byte
of it was never written (R56) and at the top of the address space (R27). A misaligned word under `armv4` is the aligned word
rotated (R55; that the base is then written back from the address as computed is entry 15). -/
def Obligations.LoadResults : Prop :=
  ∀ (c : Cond) (idx : Index) (u : Bool) (rn rd : Reg) (off : MemOffset) (st : State),
    condPassed c st.cpsr.flags = true → rd ≠ 15#4 →
    let m := memAddressing idx u rn off st
    let p := memAddressing .post u rn off st
    let loads (i : Instr) (w : Width) (a : Addressing) (x : Word → Word) : Prop :=
      st.reaches w a.adr = true →
      (∀ v, st.loadBytes w (accessed w a.adr) = some v → st.completes i fun t => st.loadDone t rn rd a (x v)) ∧
      (st.loadBytes w (accessed w a.adr) = none → exec i st = .refused .readUnwritten)
    (baseOk (writesBack idx) rn rd (memOffsetReg off) →
      loads (.ldr c idx u rn rd off) .word m (rotatedLoad m.adr) ∧ loads (.ldrb c idx u rn rd off) .byte m id) ∧
    (baseOk true rn rd (memOffsetReg off) →
      loads (.ldrt c u rn rd off) .word p (rotatedLoad p.adr) ∧ loads (.ldrbt c u rn rd off) .byte p id) ∧
    ∀ a v, st.loadBytes .byte a = some v → v.extractLsb' 8 24 = 0#24

/-- LDRH, LDRSB and LDRSH (R235 to R237): zero-extended, and the two sign extensions bit by bit; refused where a byte of the value
was never written (R56), at the top of the address space (R27), and for a halfword at an odd address under `armv4` (R55; the
name is entry 15). -/
def Obligations.ExtraLoadResults : Prop :=
  ∀ (c : Cond) (idx : Index) (u : Bool) (rn rd : Reg) (off : ExtraOffset) (st : State),
    condPassed c st.cpsr.flags = true → rd ≠ 15#4 → off.sbzOk = true → baseOk (writesBack idx) rn rd (extraOffsetReg off) →
    let m := extraAddressing (.mode idx) u rn off st
    let loads (i : Instr) (w : Width) (x : Word → Word → Prop) : Prop :=
      st.reaches w m.adr = true →
      (∀ v, st.loadBytes w m.adr = some v → st.completes i fun t => ∃ y, x v y ∧ st.loadDone t rn rd m y) ∧
      (st.loadBytes w m.adr = none → exec i st = .refused .readUnwritten)
    loads (.ldrh c (.mode idx) u rn rd off) .half (fun v y => y = v ∧ v.extractLsb' 16 16 = 0#16) ∧
    loads (.ldrsh c (.mode idx) u rn rd off) .half (fun v y => ∀ k, k < 32 → y.getLsbD k = v.getLsbD (min k 15)) ∧
    loads (.ldrsb c (.mode idx) u rn rd off) .byte (fun v y => ∀ k, k < 32 → y.getLsbD k = v.getLsbD (min k 7)) ∧
    (alignedFor .half m.adr = false → st.params.misaligned = .armv4 →
      exec (.ldrh c (.mode idx) u rn rd off) st = .refused .misalignedHalfword ∧
      exec (.ldrsh c (.mode idx) u rn rd off) st = .refused .misalignedHalfword)

/-- LDR with Rd = 15 branches to the word loaded (R227), the base written back as for any load; refused where a byte of the word
was never written (R56), and at a misaligned address under `armv4`, whatever is there (R55; entry 15). -/
def Obligations.LoadWritesPc : Prop :=
  ∀ (c : Cond) (idx : Index) (u : Bool) (rn : Reg) (off : MemOffset) (st : State),
    condPassed c st.cpsr.flags = true → baseOk (writesBack idx) rn 15#4 (memOffsetReg off) →
    let m := memAddressing idx u rn off st
    let i : Instr := .ldr c idx u rn 15#4 off
    (st.canAccess .word m.adr = true →
      (∀ v, st.loadBytes .word m.adr = some v → v.extractLsb' 0 2 = 0#2 →
        ∃ t, exec i st = .next t ∧ t.pc = v ∧ st.wroteRegs t (m.writeBack.map fun b => (rn, b)).toList ∧ st.keepsFlags t ∧
          st.keepsSystem t ∧ st.keepsMemory t) ∧
      (∀ v, st.loadBytes .word m.adr = some v → v.extractLsb' 0 2 ≠ 0#2 → exec i st = .refused .pcUnaligned) ∧
      (st.loadBytes .word m.adr = none → exec i st = .refused .readUnwritten)) ∧
    (alignedFor .word m.adr = false → st.params.misaligned = .armv4 → exec i st = .refused .misalignedPcLoad)

/-- STR, STRB, STRT, STRBT and STRH (R224, R230, R232, R234, R283, R287, R288): the low bytes of Rd, at the address (for a
misaligned word under `armv4` with its two low bits cleared, R55; entry 15), and no other byte; those bytes count as stored to
(R65); refused at the top of the address space (R27), and for a halfword at an odd address under `armv4` (R55). STR of register
15 stores `pc + k` under `STORE_PC_OFFSET = k` (93 U13). -/
def Obligations.StoreResults : Prop :=
  ∀ (c : Cond) (idx : Index) (u : Bool) (rn rd : Reg) (off : MemOffset) (xoff : ExtraOffset) (st : State),
    condPassed c st.cpsr.flags = true →
    let m := memAddressing idx u rn off st
    let p := memAddressing .post u rn off st
    let x := extraAddressing (.mode idx) u rn xoff st
    let stores (i : Instr) (w : Width) (v : Word) (a : Addressing) : Prop :=
      st.reaches w a.adr = true → st.completes i fun t => st.storeDone t w rn v a
    (baseOk (writesBack idx) rn rd (memOffsetReg off) →
      (rd ≠ 15#4 → stores (.str c idx u rn rd off) .word (st.reg rd) m) ∧
      (rd = 15#4 → st.params.storePc = .eight → stores (.str c idx u rn rd off) .word (st.pc + 8#32) m) ∧
      (rd = 15#4 → st.params.storePc = .twelve → stores (.str c idx u rn rd off) .word (st.pc + 12#32) m) ∧
      (rd ≠ 15#4 → stores (.strb c idx u rn rd off) .byte (st.reg rd) m)) ∧
    (rd ≠ 15#4 → baseOk true rn rd (memOffsetReg off) →
      stores (.strt c u rn rd off) .word (st.reg rd) p ∧ stores (.strbt c u rn rd off) .byte (st.reg rd) p) ∧
    (rd ≠ 15#4 → baseOk (writesBack idx) rn rd (extraOffsetReg xoff) → xoff.sbzOk = true →
      stores (.strh c (.mode idx) u rn rd xoff) .half (st.reg rd) x ∧
      (alignedFor .half x.adr = false → st.params.misaligned = .armv4 →
        exec (.strh c (.mode idx) u rn rd xoff) st = .refused .misalignedHalfword))

/-- What stops a word or byte load or store before any effect (R225, R227, R283), in the order of R225's table with the
restriction on Rd last (the order is entry 13). -/
def Obligations.MemoryStops : Prop :=
  ∀ (c : Cond) (idx : Index) (u : Bool) (rn rd : Reg) (off : MemOffset) (st : State) (r : Refusal),
    condPassed c st.cpsr.flags = true →
    let b := baseBroken (writesBack idx) rn rd (memOffsetReg off)
    let p := baseBroken true rn rd (memOffsetReg off)
    (b = some r → exec (.ldr c idx u rn rd off) st = .refused r) ∧
    (b = some r → exec (.str c idx u rn rd off) st = .refused r) ∧
    (b = some r → exec (.ldrb c idx u rn rd off) st = .refused r) ∧
    (b = some r → exec (.strb c idx u rn rd off) st = .refused r) ∧
    (b = none → rd = 15#4 → exec (.ldrb c idx u rn rd off) st = .refused .bytePc ∧
      exec (.strb c idx u rn rd off) st = .refused .bytePc ∧
      (st.params.storePc = .none → exec (.str c idx u rn rd off) st = .refused .storePc)) ∧
    (p = some r → exec (.ldrt c u rn rd off) st = .refused r ∧ exec (.strt c u rn rd off) st = .refused r ∧
      exec (.ldrbt c u rn rd off) st = .refused r ∧ exec (.strbt c u rn rd off) st = .refused r) ∧
    (p = none → rd = 15#4 → exec (.ldrt c u rn rd off) st = .refused .tRdPc ∧
      exec (.strt c u rn rd off) st = .refused .tRdPc ∧ exec (.ldrbt c u rn rd off) st = .refused .tRdPc ∧
      exec (.strbt c u rn rd off) st = .refused .tRdPc)

/-- What stops an extra memory instruction before any effect (R225, R221, R111; the order is entry 13). -/
def Obligations.ExtraMemoryStops : Prop :=
  ∀ (c : Cond) (idx : ExtraIndex) (mode : Index) (u : Bool) (rn rd : Reg) (off : ExtraOffset) (st : State) (r : Refusal)
    (i : Instr),
    condPassed c st.cpsr.flags = true →
    i = .strh c idx u rn rd off ∨ i = .ldrh c idx u rn rd off ∨ i = .ldrsb c idx u rn rd off ∨ i = .ldrsh c idx u rn rd off →
    (off.sbzOk = false → exec i st = .refused .sbzViolation) ∧
    (off.sbzOk = true → idx = .p0w1 → exec i st = .refused .extraP0W1) ∧
    (off.sbzOk = true → idx = .mode mode → baseBroken (writesBack mode) rn rd (extraOffsetReg off) = some r →
      exec i st = .refused r) ∧
    (off.sbzOk = true → idx = .mode mode → baseBroken (writesBack mode) rn rd (extraOffsetReg off) = none → rd = 15#4 →
      exec i st = .refused .extraRdPc)

/-- A word, halfword or byte access that raises: nothing is written, and profile U traps with the address while profile S enters
Abort mode (R54, R56, R57, R224, R320, R322, R343, R344), LDR and STR of register 15 among them. Under `armv4` a word goes to,
and its abort carries, the aligned address (R55; entry 15). -/
def Obligations.AccessesRaise : Prop :=
  ∀ (c : Cond) (idx : Index) (u : Bool) (rn rd : Reg) (off : MemOffset) (xoff : ExtraOffset) (st : State),
    condPassed c st.cpsr.flags = true →
    let m := memAddressing idx u rn off st
    let p := memAddressing .post u rn off st
    let x := extraAddressing (.mode idx) u rn xoff st
    let raises (i : Instr) (w : Width) (a : Word) : Prop :=
      (alignedFor w a = false → st.params.misaligned = .fault →
        st.takes (exec i st) .alignmentFault a .abt 0x10#32 (st.pc + 8#32)) ∧
      (alignedFor w a = true ∨ (w = .word ∧ st.params.misaligned = .armv4) →
        allMapped st.params (accessed w a) w.bytes = false →
        st.takes (exec i st) .dataAbort (accessed w a) .abt 0x10#32 (st.pc + 8#32))
    (baseOk (writesBack idx) rn rd (memOffsetReg off) →
      ((rd = 15#4 → alignedFor .word m.adr = true ∨ st.params.misaligned = .fault) →
        raises (.ldr c idx u rn rd off) .word m.adr) ∧
      ((rd = 15#4 → st.params.storePc ≠ .none) → raises (.str c idx u rn rd off) .word m.adr) ∧
      (rd ≠ 15#4 → raises (.ldrb c idx u rn rd off) .byte m.adr ∧ raises (.strb c idx u rn rd off) .byte m.adr)) ∧
    (rd ≠ 15#4 → baseOk true rn rd (memOffsetReg off) →
      raises (.ldrt c u rn rd off) .word p.adr ∧ raises (.strt c u rn rd off) .word p.adr ∧
      raises (.ldrbt c u rn rd off) .byte p.adr ∧ raises (.strbt c u rn rd off) .byte p.adr) ∧
    (rd ≠ 15#4 → baseOk (writesBack idx) rn rd (extraOffsetReg xoff) → xoff.sbzOk = true →
      raises (.ldrh c (.mode idx) u rn rd xoff) .half x.adr ∧ raises (.strh c (.mode idx) u rn rd xoff) .half x.adr ∧
      raises (.ldrsh c (.mode idx) u rn rd xoff) .half x.adr ∧ raises (.ldrsb c (.mode idx) u rn rd xoff) .byte x.adr)

/-! ## Block transfers and swap -/

/-- LDM with S = 0 (R271, R273, R274): the registers, the base, and the pc: the next address, or the word loaded for register
15. Refused where a byte of a word was never written (R56), and for an advance at the top of the address space (R27). Under
`armv4` the two low bits of every address are ignored (R55, R274; entry 15). -/
def Obligations.LoadMultipleResults : Prop :=
  ∀ (c : Cond) (p u w : Bool) (rn : Reg) (list : BitVec 16) (st : State) (v : Reg → Word),
    condPassed c st.cpsr.flags = true → st.ldmAllowed false w rn list → st.canAccessBlock p u (st.reg rn) list →
    let i : Instr := .ldm c p u false w rn list
    let left (t : State) : Prop :=
      st.ldmWroteRegs t st.bank w rn list v (blockWriteBack u (st.reg rn) list) ∧ st.keepsFlags t ∧ st.keepsSystem t ∧
        st.keepsMemory t
    (∀ r, inList list r = true → st.loadBytes .word (accessed .word (blockAddress p u (st.reg rn) list r)) = none →
      exec i st = .refused .readUnwritten) ∧
    (st.blockHolds p u (st.reg rn) list v →
      (inList list 15#4 = false → st.completes i fun t => t.pc = st.pc + 4#32 ∧ left t) ∧
      (inList list 15#4 = true → (v 15#4).extractLsb' 0 2 = 0#2 → ∃ t, exec i st = .next t ∧ t.pc = v 15#4 ∧ left t) ∧
      (inList list 15#4 = true → (v 15#4).extractLsb' 0 2 ≠ 0#2 → exec i st = .refused .pcUnaligned))

/-- LDM with S = 1 and register 15 in the list loads the registers from the addresses of R273, writes the base back with W = 1
(R273, R274), and returns from an exception (R275 (a), R346), refused for an unaligned pc, T = 1 and an illegal mode (R346; the
refusal of T = 1 and the order are entry 17). Without register 15 it loads the User copies (R275 (b)), in System mode too, which
is the model's choice (entry 18), and leaves the caution of R373 (a) for the next instruction (the model's choice, entry 11).
Refused where a byte of a word was never written (R56), and for an advance at the top of the address space (R27). Under `armv4`
the two low bits of every address are ignored, and the base is written back as computed (R55, R274; entry 15). -/
def Obligations.LoadMultipleWithSResults : Prop :=
  ∀ (c : Cond) (p u w : Bool) (rn : Reg) (list : BitVec 16) (st : State) (v : Reg → Word),
    condPassed c st.cpsr.flags = true → st.ldmAllowed true w rn list → st.canAccessBlock p u (st.reg rn) list →
    let i : Instr := .ldm c p u true w rn list
    (∀ r, inList list r = true → st.loadBytes .word (accessed .word (blockAddress p u (st.reg rn) list r)) = none →
      exec i st = .refused .readUnwritten) ∧
    (st.blockHolds p u (st.reg rn) list v →
      (∀ q, inList list 15#4 = true → st.spsrNow = some q →
        ((v 15#4).extractLsb' 0 2 ≠ 0#2 → exec i st = .refused .pcUnaligned) ∧
        ((v 15#4).extractLsb' 0 2 = 0#2 → q.t = true → exec i st = .refused .tBit) ∧
        ((v 15#4).extractLsb' 0 2 = 0#2 → q.t = false → Mode.ofBits q.m = none → exec i st = .refused .badMode) ∧
        ∀ m, (v 15#4).extractLsb' 0 2 = 0#2 → q.t = false → Mode.ofBits q.m = some m →
          ∃ t, exec i st = .next t ∧ t.pc = v 15#4 ∧ t.cpsr = ⟨q.flags, q.i, q.f, m⟩ ∧
            st.ldmWroteRegs t st.bank w rn list v (blockWriteBack u (st.reg rn) list) ∧ t.spsr = st.spsr ∧
            t.params = st.params ∧ t.inputs = st.inputs ∧ t.hazard = st.hazard ∧ st.keepsMemory t) ∧
      (inList list 15#4 = false →
        st.completes i fun t =>
          t.pc = st.pc + 4#32 ∧ st.ldmWroteRegs t .usr false rn list v 0#32 ∧ st.keepsFlags t ∧ t.cpsr = st.cpsr ∧
            t.spsr = st.spsr ∧ t.params = st.params ∧ t.inputs = st.inputs ∧ t.hazard = .fresh ∧ st.keepsMemory t))

/-- STM (R272, R273, R274, R275): the word of each listed register at its address (the User copy with S = 1), the base, and no
other byte; those bytes count as stored to (R65); refused at the top of the address space (R27). The model's own: with S = 1 it
runs in System mode too (entry 18), stores `pc + k` for register 15 as any STM does (entry 19), and `userReg` is a free value
under the caution of R373 (a) (entry 11); `STORE_PC_OFFSET` is entry 16; under `armv4` the two low bits of every address are
ignored (R55, R274; entry 15). -/
def Obligations.StoreMultipleResults : Prop :=
  ∀ (c : Cond) (p u s w : Bool) (rn : Reg) (list : BitVec 16) (st : State),
    condPassed c st.cpsr.flags = true → st.stmAllowed s w rn list → st.canAccessBlock p u (st.reg rn) list →
    let adr (r : Reg) : Word := accessed .word (blockAddress p u (st.reg rn) list r)
    st.completes (.stm c p u s w rn list) fun t => t.pc = st.pc + 4#32 ∧
      (∀ r, inList list r = true →
        t.loadBytes .word (adr r) =
          some (if r = 15#4 then st.pc + storePcValue st.params.storePc
            else if s then st.userReg r else st.reg r) ∧ t.countsStored .word (adr r)) ∧
      (∀ b, (∀ r, inList list r = true → inAccess .word (adr r) b = false) →
        t.byteAt b = st.byteAt b ∧ (b.toNat ∈ t.stored ↔ b.toNat ∈ st.stored)) ∧
      st.wroteRegs t (if w then [(rn, blockWriteBack u (st.reg rn) list)] else []) ∧ st.keepsFlags t ∧ st.keepsSystem t

/-- What stops LDM and STM (R273, R274, R275, R346), in the order of the model (entry 13; the name for W = 1 in a User-bank
transfer is entry 18). -/
def Obligations.BlockStops : Prop :=
  ∀ (c : Cond) (p u s w : Bool) (rn : Reg) (list : BitVec 16) (st : State), condPassed c st.cpsr.flags = true →
    let l : Instr := .ldm c p u s w rn list
    let m : Instr := .stm c p u s w rn list
    (list = 0#16 ∨ rn = 15#4 → exec l st = .refused .ldmList ∧ exec m st = .refused .ldmList) ∧
    (list ≠ 0#16 → rn ≠ 15#4 →
      (s = true → st.mode = .usr → exec l st = .refused .ldmSProfileU ∧ exec m st = .refused .ldmSProfileU) ∧
      (s = true → st.mode = .sys → inList list 15#4 = true → exec l st = .refused .ldmSProfileU) ∧
      (s = true → st.mode ≠ .usr → w = true → exec m st = .refused .ldmUserBankWb ∧
        (inList list 15#4 = false → exec l st = .refused .ldmUserBankWb)) ∧
      (s = false → w = true → inList list rn = true → exec l st = .refused .ldmWbBaseInList) ∧
      (s = true → st.mode ≠ .usr → st.mode ≠ .sys → inList list 15#4 = true → w = true → inList list rn = true →
        exec l st = .refused .ldmWbBaseInList) ∧
      (s = false → w = true → inList list rn = true → blockRank list rn ≠ 0 → exec m st = .refused .stmWbBaseNotLowest) ∧
      ((s = true → st.mode ≠ .usr ∧ w = false) → (w = true → inList list rn = true → blockRank list rn = 0) →
        inList list 15#4 = true → st.params.storePc = .none → exec m st = .refused .stmPc))

/-- A block transfer is all or nothing (R274, D31): a misaligned base raises at the lowest address before any transfer, and an
address outside `MEMMAP` raises for the first register whose word is not all mapped, with nothing changed (entry 14), in every
form of LDM and STM that runs (entry 18). Under `armv4` the two low bits of every address are ignored (R55, R274; entry 15). -/
def Obligations.BlockAccessesRaise : Prop :=
  ∀ (c : Cond) (p u s w : Bool) (rn : Reg) (list : BitVec 16) (st : State) (i : Instr),
    condPassed c st.cpsr.flags = true →
    (i = .ldm c p u s w rn list ∧ st.ldmAllowed s w rn list) ∨ (i = .stm c p u s w rn list ∧ st.stmAllowed s w rn list) →
    let adr (r : Reg) : Word := accessed .word (blockAddress p u (st.reg rn) list r)
    (alignedFor .word (st.reg rn) = false → st.params.misaligned = .fault →
      st.takes (exec i st) .alignmentFault (blockStart p u (st.reg rn) list) .abt 0x10#32 (st.pc + 8#32)) ∧
    (∀ r, alignedFor .word (st.reg rn) = true ∨ st.params.misaligned = .armv4 → inList list r = true →
      allMapped st.params (adr r) 4 = false →
      (∀ q, inList list q = true → q.toNat < r.toNat → allMapped st.params (adr q) 4 = true) →
      st.takes (exec i st) .dataAbort (adr r) .abt 0x10#32 (st.pc + 8#32))

/-- SWP and SWPB (R280 to R282): the old word or byte to Rd, Rm's low bytes to the same address, whose bytes count as stored to
(R65), nothing else; Rd may be Rm. Refused where a byte read was never written (R56), and at the top of the address space (R27).
A misaligned word under `armv4` is read rotated and stored at the aligned address (R55; entry 15). -/
def Obligations.SwapResults : Prop :=
  ∀ (c : Cond) (rn rd rm : Reg) (st : State),
    condPassed c st.cpsr.flags = true → rn ≠ 15#4 → rd ≠ 15#4 → rm ≠ 15#4 → rn ≠ rm → rn ≠ rd →
    let a := st.reg rn
    let done (i : Instr) (w : Width) (x : Word → Word) : Prop :=
      st.reaches w a = true →
      (∀ old, st.loadBytes w (accessed w a) = some old →
        st.completes i fun t => t.pc = st.pc + 4#32 ∧ st.wroteRegs t [(rd, x old)] ∧
          t.loadBytes w (accessed w a) = some (narrow w (st.reg rm)) ∧ t.countsStored w (accessed w a) ∧
          st.keepsMemoryOutside t w (accessed w a) ∧ st.keepsFlags t ∧ st.keepsSystem t) ∧
      (st.loadBytes w (accessed w a) = none → exec i st = .refused .readUnwritten)
    done (.swp c rn rd 0#4 rm) .word (rotatedLoad a) ∧ done (.swpb c rn rd 0#4 rm) .byte id

/-- What stops SWP and SWPB (R282), and what they raise with nothing changed. Under `armv4` a word goes to, and its abort carries,
the aligned address (R55; entry 15). -/
def Obligations.SwapStops : Prop :=
  ∀ (c : Cond) (rn rd rm : Reg) (sbz : BitVec 4) (st : State), condPassed c st.cpsr.flags = true →
    let bad : Prop := rn = 15#4 ∨ rd = 15#4 ∨ rm = 15#4 ∨ rn = rm ∨ rn = rd
    (bad → exec (.swp c rn rd sbz rm) st = .refused .swpRegs ∧ exec (.swpb c rn rd sbz rm) st = .refused .swpRegs) ∧
    (¬bad → sbz ≠ 0#4 → exec (.swp c rn rd sbz rm) st = .refused .sbzViolation ∧
      exec (.swpb c rn rd sbz rm) st = .refused .sbzViolation) ∧
    (¬bad → sbz = 0#4 → alignedFor .word (st.reg rn) = false → st.params.misaligned = .fault →
      st.takes (exec (.swp c rn rd sbz rm) st) .alignmentFault (st.reg rn) .abt 0x10#32 (st.pc + 8#32)) ∧
    (¬bad → sbz = 0#4 → alignedFor .word (st.reg rn) = true ∨ st.params.misaligned = .armv4 →
      allMapped st.params (accessed .word (st.reg rn)) 4 = false →
      st.takes (exec (.swp c rn rd sbz rm) st) .dataAbort (accessed .word (st.reg rn)) .abt 0x10#32 (st.pc + 8#32)) ∧
    (¬bad → sbz = 0#4 → allMapped st.params (st.reg rn) 1 = false →
      st.takes (exec (.swpb c rn rd sbz rm) st) .dataAbort (st.reg rn) .abt 0x10#32 (st.pc + 8#32))

/-! ## Branches -/

/-- The target of a branch (R261): `pc + 8` plus the signed offset, four bytes to the unit. -/
def Obligations.BranchTargetValue : Prop :=
  ∀ (imm24 : BitVec 24) (st : State),
    branchTarget imm24 st = BitVec.ofInt 32 ((st.pc.toNat : Int) + 8 + 4 * imm24.toInt) ∧
    (st.pc.extractLsb' 0 2 = 0#2 → (branchTarget imm24 st).extractLsb' 0 2 = 0#2)

/-- B and BL (R260 to R264): the target, for BL also the address of the next instruction in R14, and nothing else. -/
def Obligations.BranchResults : Prop :=
  ∀ (c : Cond) (imm24 : BitVec 24) (st : State), condPassed c st.cpsr.flags = true →
    let target : Word := BitVec.ofInt 32 ((st.pc.toNat : Int) + 8 + 4 * imm24.toInt)
    let done (i : Instr) (w : List (Reg × Word)) : Prop :=
      ∃ t, exec i st = .next t ∧ t.pc = target ∧ st.wroteRegs t w ∧ st.keepsFlags t ∧ st.keepsSystem t ∧ st.keepsMemory t
    done (.b c imm24) [] ∧ done (.bl c imm24) [(14#4, st.pc + 4#32)]

/-! ## Status registers -/

/-- MRS (R295, R340, R342): the word a status register reads as, bit by bit, and nothing else; refused at the top of the address
space (R27). Profile U reads I, F and T as 0 and the mode as User. The seven mode numbers of R340, and no other, name a mode. -/
def Obligations.StatusReadResults : Prop :=
  (Mode.usr.bits = 0b10000#5 ∧ Mode.fiq.bits = 0b10001#5 ∧ Mode.irq.bits = 0b10010#5 ∧ Mode.svc.bits = 0b10011#5 ∧
    Mode.abt.bits = 0b10111#5 ∧ Mode.und.bits = 0b11011#5 ∧ Mode.sys.bits = 0b11111#5) ∧
  (∀ (n : BitVec 5) (m : Mode), Mode.ofBits n = some m ↔ n = m.bits) ∧
  ∀ (c : Cond) (rd : Reg) (st : State), condPassed c st.cpsr.flags = true → rd ≠ 15#4 →
    let done (r : Bool) (q : Psr) : Prop :=
      st.completes (.mrs c r 15#4 rd 0#4 0#4) fun t => ∃ v, t.pc = st.pc + 4#32 ∧ st.wroteRegs t [(rd, v)] ∧
        v.getLsbD 31 = q.flags.n ∧ v.getLsbD 30 = q.flags.z ∧ v.getLsbD 29 = q.flags.c ∧ v.getLsbD 28 = q.flags.v ∧
        v.extractLsb' 8 20 = 0#20 ∧ v.getLsbD 7 = q.i ∧ v.getLsbD 6 = q.f ∧ v.getLsbD 5 = q.t ∧ v.extractLsb' 0 5 = q.m ∧
        st.keepsFlags t ∧ st.keepsSystem t ∧ st.keepsMemory t
    (st.params.profile = .U → done false ⟨st.cpsr.flags, false, false, false, 0b10000#5⟩) ∧
    (st.params.profile = .S → done false ⟨st.cpsr.flags, st.cpsr.i, st.cpsr.f, false, st.cpsr.mode.bits⟩) ∧
    ∀ q, st.spsrNow = some q → done true q

/-- MSR to the CPSR (R296, R347): the flags if the f byte is selected; in a privileged mode the control byte if it is selected,
unless it sets T or names no mode (R340); in User mode the control byte is ignored. Refused for an advance at the top of the
address space (R27). The value moved is Rm, or imm8 rotated right by twice rot (R296). -/
def Obligations.StatusWriteResults : Prop :=
  ∀ (c : Cond) (mask : BitVec 4) (operand : MsrOperand) (st : State), condPassed c st.cpsr.flags = true →
    operand.sbzOk = true → msrRmIsPc operand = false →
    let v := msrValue operand st
    let i : Instr := .msr c false mask 15#4 operand
    let newFlags : Flags := if mask.getLsbD 3 then ⟨v.getLsbD 31, v.getLsbD 30, v.getLsbD 29, v.getLsbD 28⟩ else st.cpsr.flags
    let rest (t : State) : Prop :=
      t.pc = st.pc + 4#32 ∧ st.wroteRegs t [] ∧ t.spsr = st.spsr ∧ t.params = st.params ∧ t.inputs = st.inputs ∧
        t.hazard = st.hazard ∧ st.keepsMemory t
    (∀ (sbz : BitVec 4) (rm : Reg), operand = .reg sbz rm → v = st.reg rm) ∧
    (∀ (rot : BitVec 4) (imm8 : BitVec 8), operand = .imm rot imm8 →
      ∀ k, k < 32 → v.getLsbD k = imm8.getLsbD ((k + 2 * rot.toNat) % 32)) ∧
    (mask.getLsbD 0 = false ∨ st.mode = .usr →
      st.completes i fun t => t.cpsr = { st.cpsr with flags := newFlags } ∧ rest t) ∧
    (mask.getLsbD 0 = true → st.mode ≠ .usr →
      (v.getLsbD 5 = true → exec i st = .refused .tBit) ∧
      (v.getLsbD 5 = false → Mode.ofBits (v.extractLsb' 0 5) = none → exec i st = .refused .badMode) ∧
      (∀ m, v.getLsbD 5 = false → Mode.ofBits (v.extractLsb' 0 5) = some m →
        st.completes i fun t => t.cpsr = ⟨newFlags, v.getLsbD 7, v.getLsbD 6, m⟩ ∧ rest t))

/-- MSR to the SPSR of the current mode (R347): the selected bytes, and no other SPSR; refused at the top of the address space
(R27). That the SPSR keeps the T bit and any mode bits written to it is the model's reading of R347 (entry 4). -/
def Obligations.SavedStatusWriteResults : Prop :=
  ∀ (c : Cond) (mask : BitVec 4) (operand : MsrOperand) (st : State) (q : Psr), condPassed c st.cpsr.flags = true →
    operand.sbzOk = true → msrRmIsPc operand = false → st.spsrNow = some q →
    let v := msrValue operand st
    st.completes (.msr c true mask 15#4 operand) fun t => ∃ q', t.spsr.get st.bank = some q' ∧
      q'.flags = (if mask.getLsbD 3 then ⟨v.getLsbD 31, v.getLsbD 30, v.getLsbD 29, v.getLsbD 28⟩ else q.flags) ∧
      q'.i = (if mask.getLsbD 0 then v.getLsbD 7 else q.i) ∧ q'.f = (if mask.getLsbD 0 then v.getLsbD 6 else q.f) ∧
      q'.t = (if mask.getLsbD 0 then v.getLsbD 5 else q.t) ∧
      q'.m = (if mask.getLsbD 0 then v.extractLsb' 0 5 else q.m) ∧
      (∀ b, b ≠ st.bank → t.spsr.get b = st.spsr.get b) ∧ t.pc = st.pc + 4#32 ∧ st.wroteRegs t [] ∧ t.cpsr = st.cpsr ∧
      t.params = st.params ∧ t.inputs = st.inputs ∧ t.hazard = st.hazard ∧ st.keepsMemory t

/-- What stops MRS and MSR (R111, R295, R296, R342), in the order of the model (entry 13). -/
def Obligations.StatusMoveStops : Prop :=
  ∀ (c : Cond) (r : Bool) (sbo sbzHi sbzLo mask : BitVec 4) (rd : Reg) (operand : MsrOperand) (st : State),
    condPassed c st.cpsr.flags = true →
    let rsr : Instr := .mrs c r sbo rd sbzHi sbzLo
    let wsr : Instr := .msr c r mask sbo operand
    (sbo ≠ 15#4 ∨ sbzHi ≠ 0#4 ∨ sbzLo ≠ 0#4 → exec rsr st = .refused .sbzViolation) ∧
    (sbo = 15#4 → sbzHi = 0#4 → sbzLo = 0#4 → rd = 15#4 → exec rsr st = .refused .mrsRdPc) ∧
    (sbo = 15#4 → sbzHi = 0#4 → sbzLo = 0#4 → rd ≠ 15#4 → r = true → st.mode = .usr ∨ st.mode = .sys →
      exec rsr st = .refused .spsrInUserMode) ∧
    (sbo ≠ 15#4 ∨ operand.sbzOk = false → exec wsr st = .refused .sbzViolation) ∧
    (sbo = 15#4 → operand.sbzOk = true → msrRmIsPc operand = true → exec wsr st = .refused .msrRmPc) ∧
    (sbo = 15#4 → operand.sbzOk = true → msrRmIsPc operand = false → r = true → st.mode = .usr ∨ st.mode = .sys →
      exec wsr st = .refused .spsrInUserMode)

/-! ## Exceptions -/

/-- Exception entry (R343, R344): link value, vector, mode, I and F for every exception but Reset, which fixes no link value;
flags, memory and every other register and SPSR as before. -/
def Obligations.ExceptionEntry : Prop :=
  ∀ s : State,
    s.entered (enterException .undefinedInstruction s) .und 0x04#32 (s.pc + 4#32) false ∧
    s.entered (enterException .swi s) .svc 0x08#32 (s.pc + 4#32) false ∧
    s.entered (enterException .prefetchAbort s) .abt 0x0C#32 (s.pc + 4#32) false ∧
    s.entered (enterException .dataAbort s) .abt 0x10#32 (s.pc + 8#32) false ∧
    s.entered (enterException .alignmentFault s) .abt 0x10#32 (s.pc + 8#32) false ∧
    s.entered (enterException .irq s) .irq 0x18#32 (s.pc + 4#32) false ∧
    s.entered (enterException .fiq s) .fiq 0x1C#32 (s.pc + 4#32) true ∧
    ∃ link, s.entered (enterException .reset s) .svc 0x00#32 link true

/-- SWI (R285): the exception, in profile U with imm24. -/
def Obligations.SoftwareInterruptTaken : Prop :=
  ∀ (c : Cond) (imm24 : BitVec 24) (st : State), condPassed c st.cpsr.flags = true →
    st.takes (exec (.swi c imm24) st) .swi (BitVec.ofNat 32 imm24.toNat) .svc 0x08#32 (st.pc + 4#32)

/-- Every coprocessor instruction (R290) and every reserved word (R110) takes the Undefined Instruction exception with its own
word (that the word is computed by encoding is entry 23; that the caution of R373 (a) is untouched, entry 11): a next state at
the vector in profile S (R343, R344), the outcome `Trap(UndefinedInstruction, word)` in profile U (R322). A word with cond =
1111 does so whatever the flags (R112). -/
def Obligations.UndefinedInstructionTaken : Prop :=
  ∀ (c : Cond) (p u n w : Bool) (a b d cp : BitVec 4) (opc1 opc2 : BitVec 3) (m : BitVec 4) (imm8 : BitVec 8)
    (body : BitVec 28) (st : State),
    let undef (i : Instr) : Prop :=
      (st.params.profile = .S → ∃ t, exec i st = .next t ∧ st.entered t .und 0x04#32 (st.pc + 4#32) false ∧
        t.inputs = st.inputs ∧ t.hazard = st.hazard) ∧
      (st.params.profile = .U →
        exec i st = .fault (.trap .undefinedInstruction (encodeWord st.params.memRegBit4 i)))
    undef (.reservedCond1111 body) ∧
    (condPassed c st.cpsr.flags = true →
      undef (.cdp c a b d cp opc2 m) ∧ undef (.ldc c p u n w b d cp imm8) ∧ undef (.stc c p u n w b d cp imm8) ∧
      undef (.mcr c opc1 b d cp opc2 m) ∧ undef (.mrc c opc1 b d cp opc2 m) ∧ undef (.reservedDpCompareS0 c body) ∧
      undef (.reservedMultiplyCmd c body) ∧ undef (.reservedOp001001 c body) ∧ undef (.reservedExtraStoreSigned c body) ∧
      undef (.reservedUndefinedSpace c body))

/-- A system call and its return (R349): SWI from a state of profile S and then `MOVS PC, R14` give back the flags, masks and
mode of the caller, at the next address, with every register but `R14_svc` as it was. -/
def Obligations.SystemCallReturns : Prop :=
  ∀ (s : State) (imm24 : BitVec 24), s.params.profile = .S → s.pc.extractLsb' 0 2 = 0#2 → s.hazard ≠ .live →
    ∃ t r, exec (.swi .al imm24) s = .next t ∧ exec (.mov .al true 0#4 15#4 (.reg 14#4)) t = .next r ∧
      r.cpsr = s.cpsr ∧ r.pc = s.pc + 4#32 ∧ (∀ j, j ≠ slot .svc 14#4 → r.regs.get j = s.regs.get j) ∧ s.keepsMemory r
end

