-- ==== Sys2Proof/Laws/Memory.lean ====
section
/-! SUPPORT. The laws of memory: a read after a write, the canonical form, and the same for the set of addresses stored
to. -/

namespace Sys2Proof.Machine

/-! ## One byte -/

@[simp] theorem Memory.read_nil (a : Nat) : Memory.read [] a = none := rfl

theorem Memory.read_cons (c : Host.Cell) (m : List Host.Cell) (a : Nat) :
    Memory.read (c :: m) a = if c.1 = a then some c.2 else Memory.read m a := rfl

/-- Below the first address listed nothing is listed. -/
theorem Memory.read_none_of_lt {m : List Host.Cell} {a : Nat} (h : ∀ c ∈ m, a < c.1) : Memory.read m a = none := by
  induction m with
  | nil => rfl
  | cons c m ih =>
    rw [Memory.read_cons, if_neg (Nat.ne_of_gt (h c (List.mem_cons_self ..)))]
    exact ih fun d hd => h d (List.mem_cons_of_mem _ hd)

/-- A read after a write to the same address gives the value written (R60). -/
@[simp] theorem Memory.read_write_self (m : List Host.Cell) (a : Nat) (v : Byte) :
    Memory.read (Memory.write m a v) a = some v := by
  induction m with
  | nil => simp [Memory.write, Memory.read_cons]
  | cons c m ih =>
    obtain ⟨k, w⟩ := c
    unfold Memory.write
    split
    · simp [Memory.read_cons]
    · split
      · simp [Memory.read_cons]
      · next h => simp [Memory.read_cons, Ne.symm h, ih]

/-- A write leaves every other address alone. -/
theorem Memory.read_write_of_ne (m : List Host.Cell) {a b : Nat} (v : Byte) (h : b ≠ a) :
    Memory.read (Memory.write m a v) b = Memory.read m b := by
  induction m with
  | nil => simp [Memory.write, Memory.read_cons, Ne.symm h]
  | cons c m ih =>
    obtain ⟨k, w⟩ := c
    unfold Memory.write
    split
    · simp [Memory.read_cons, Ne.symm h]
    · split
      · next hk => subst hk; simp [Memory.read_cons, Ne.symm h]
      · simp [Memory.read_cons, ih]

theorem Memory.read_write (m : List Host.Cell) (a b : Nat) (v : Byte) :
    Memory.read (Memory.write m a v) b = if b = a then some v else Memory.read m b := by
  split
  · next h => subst h; simp
  · next h => exact Memory.read_write_of_ne m v h

/-- The cells after a write are the one written and old ones. -/
theorem Memory.mem_write {m : List Host.Cell} {a : Nat} {v : Byte} {c : Host.Cell} (h : c ∈ Memory.write m a v) :
    c = (a, v) ∨ c ∈ m := by
  induction m with
  | nil => simpa [Memory.write] using h
  | cons d m ih =>
    obtain ⟨k, w⟩ := d
    unfold Memory.write at h
    split at h
    · simpa using h
    · split at h
      · rcases List.mem_cons.mp h with h | h
        · exact .inl h
        · exact .inr (List.mem_cons_of_mem _ h)
      · rcases List.mem_cons.mp h with h | h
        · exact .inr (h ▸ List.mem_cons_self ..)
        · exact (ih h).imp_right (List.mem_cons_of_mem _)

/-- The canonical form, spelled out. -/
theorem Memory.wf_iff (m : List Host.Cell) :
    Memory.wf m = true ↔ (m.map Prod.fst).Pairwise (· < ·) ∧ ∀ c ∈ m, c.1 < 2 ^ 32 := by
  simp [Memory.wf, Config.unlisted]

theorem Memory.pairwise_write {m : List Host.Cell} (a : Nat) (v : Byte) (h : (m.map Prod.fst).Pairwise (· < ·)) :
    ((Memory.write m a v).map Prod.fst).Pairwise (· < ·) := by
  induction m with
  | nil => simp [Memory.write]
  | cons c m ih =>
    obtain ⟨k, w⟩ := c
    simp only [List.map_cons, List.pairwise_cons, List.mem_map, forall_exists_index, and_imp,
      forall_apply_eq_imp_iff₂] at h
    unfold Memory.write
    split
    · next hlt =>
      simp only [List.map_cons, List.pairwise_cons, List.mem_cons, List.mem_map, forall_eq_or_imp, forall_exists_index,
        and_imp, forall_apply_eq_imp_iff₂]
      exact ⟨⟨hlt, fun d hd => Nat.lt_trans hlt (h.1 d hd)⟩, h⟩
    · split
      · next heq =>
        subst heq
        simpa only [List.map_cons, List.pairwise_cons, List.mem_map, forall_exists_index, and_imp,
          forall_apply_eq_imp_iff₂] using h
      · next hge hne =>
        simp only [List.map_cons, List.pairwise_cons, List.mem_map, forall_exists_index, and_imp,
          forall_apply_eq_imp_iff₂]
        refine ⟨fun d hd => ?_, ih h.2⟩
        rcases Memory.mem_write hd with rfl | hd
        · simp only; omega
        · exact h.1 d hd

/-- A write keeps the canonical form. -/
theorem Memory.wf_write {m : List Host.Cell} {a : Nat} (v : Byte) (ha : a < 2 ^ 32) (h : Memory.wf m = true) :
    Memory.wf (Memory.write m a v) = true := by
  rw [Memory.wf_iff] at h ⊢
  refine ⟨Memory.pairwise_write a v h.1, fun c hc => ?_⟩
  rcases Memory.mem_write hc with rfl | hc
  · exact ha
  · exact h.2 c hc

/-- Two memories in canonical form that read alike are equal. -/
theorem Memory.ext_of_wf {m n : List Host.Cell} (hm : Memory.wf m = true) (hn : Memory.wf n = true)
    (h : ∀ a, Memory.read m a = Memory.read n a) : m = n := by
  rw [Memory.wf_iff] at hm hn
  replace hm := hm.1
  replace hn := hn.1
  induction m generalizing n with
  | nil =>
    cases n with
    | nil => rfl
    | cons d n => simpa [Memory.read_cons] using h d.1
  | cons c m ih =>
    cases n with
    | nil => simpa [Memory.read_cons] using h c.1
    | cons d n =>
      simp only [List.map_cons, List.pairwise_cons, List.mem_map, forall_exists_index, and_imp,
        forall_apply_eq_imp_iff₂] at hm hn
      have none_of {k : Nat} {l : List Host.Cell} (hl : ∀ e ∈ l, k < e.1) : Memory.read l k = none :=
        Memory.read_none_of_lt hl
      have hkey : c.1 = d.1 := by
        rcases Nat.lt_trichotomy c.1 d.1 with hlt | heq | hgt
        · have hc := h c.1
          rw [Memory.read_cons, if_pos rfl, Memory.read_cons, if_neg (by omega),
            none_of fun e he => Nat.lt_trans hlt (hn.1 e he)] at hc
          exact absurd hc (by simp)
        · exact heq
        · have hd := h d.1
          rw [Memory.read_cons, if_neg (by omega), Memory.read_cons, if_pos rfl,
            none_of fun e he => Nat.lt_trans hgt (hm.1 e he)] at hd
          exact absurd hd (by simp)
      have hval : c.2 = d.2 := by
        have hc := h c.1
        rw [Memory.read_cons, if_pos rfl, Memory.read_cons, if_pos hkey.symm] at hc
        exact Option.some.inj hc
      have hrest : m = n := by
        refine ih (fun a => ?_) hm.2 hn.2
        by_cases ha : c.1 = a
        · subst ha
          rw [none_of hm.1, none_of (hkey ▸ hn.1)]
        · have hx := h a
          rwa [Memory.read_cons, if_neg ha, Memory.read_cons, if_neg (hkey ▸ ha)] at hx
      rw [hrest, Prod.ext hkey hval]

/-! ## Addresses stored to -/

@[simp] theorem AddrSet.mem_insert (l : List Nat) (a b : Nat) : b ∈ AddrSet.insert l a ↔ b = a ∨ b ∈ l := by
  induction l with
  | nil => simp [AddrSet.insert]
  | cons k l ih =>
    unfold AddrSet.insert
    split
    · simp
    · split
      · next h => subst h; simp
      · simp only [List.mem_cons, ih]; tauto

theorem AddrSet.wf_iff (l : List Nat) : AddrSet.wf l = true ↔ l.Pairwise (· < ·) ∧ ∀ a ∈ l, a < 2 ^ 32 := by
  simp [AddrSet.wf]

theorem AddrSet.pairwise_insert {l : List Nat} (a : Nat) (h : l.Pairwise (· < ·)) :
    (AddrSet.insert l a).Pairwise (· < ·) := by
  induction l with
  | nil => simp [AddrSet.insert]
  | cons k l ih =>
    have hk := List.pairwise_cons.mp h
    unfold AddrSet.insert
    split
    · next hlt =>
      refine List.pairwise_cons.mpr ⟨fun b hb => ?_, h⟩
      rcases List.mem_cons.mp hb with rfl | hb
      · exact hlt
      · exact Nat.lt_trans hlt (hk.1 b hb)
    · split
      · exact h
      · next hge hne =>
        refine List.pairwise_cons.mpr ⟨fun b hb => ?_, ih hk.2⟩
        rcases (AddrSet.mem_insert ..).mp hb with rfl | hb
        · omega
        · exact hk.1 b hb

theorem AddrSet.wf_insert {l : List Nat} {a : Nat} (ha : a < 2 ^ 32) (h : AddrSet.wf l = true) :
    AddrSet.wf (AddrSet.insert l a) = true := by
  rw [AddrSet.wf_iff] at h ⊢
  refine ⟨AddrSet.pairwise_insert a h.1, fun b hb => ?_⟩
  rcases (AddrSet.mem_insert ..).mp hb with rfl | hb
  · exact ha
  · exact h.2 b hb

/-! ## Bytes of the state -/

@[simp] theorem State.byteAt_storeByte_self (s : State) (a : Word) (v : Byte) : (s.storeByte a v).byteAt a = some v := by
  simp [State.byteAt, State.storeByte]

theorem State.byteAt_storeByte_of_ne (s : State) {a b : Word} (v : Byte) (h : b ≠ a) :
    (s.storeByte a v).byteAt b = s.byteAt b :=
  Memory.read_write_of_ne _ _ fun e => h (BitVec.eq_of_toNat_eq e)

theorem State.byteAt_storeByte (s : State) (a b : Word) (v : Byte) :
    (s.storeByte a v).byteAt b = if b = a then some v else s.byteAt b := by
  split
  · next h => subst h; simp
  · next h => exact State.byteAt_storeByte_of_ne s v h

/-- A store leaves every byte outside the access alone (R57). -/
theorem State.byteAt_storeBytes_of_out (s : State) (w : Width) (a v : Word) {b : Word} (h : inAccess w a b = false) :
    (s.storeBytes w a v).byteAt b = s.byteAt b := by
  cases w <;> simp only [inAccess, Bool.or_eq_false_iff, decide_eq_false_iff_not] at h <;>
    simp only [State.storeBytes, State.byteAt_storeByte, h, if_false]

theorem State.loadBytes_storeBytes (s : State) (w : Width) (a v : Word) :
    (s.storeBytes w a v).loadBytes w a = some (narrow w v) := by
  have h1 : a ≠ a + 1#32 := by bv_omega
  have h2 : a ≠ a + 2#32 := by bv_omega
  have h3 : a ≠ a + 3#32 := by bv_omega
  have h12 : a + 1#32 ≠ a + 2#32 := by bv_omega
  have h13 : a + 1#32 ≠ a + 3#32 := by bv_omega
  have h23 : a + 2#32 ≠ a + 3#32 := by bv_omega
  cases w <;>
    simp [State.storeBytes, State.loadBytes, State.byteAt_storeByte, h1, h2, h3, h12, h13, h23, narrow]

/-- A store keeps the canonical form of memory. -/
theorem State.wf_storeByte {s : State} (a : Word) (v : Byte) (h : Memory.wf s.mem = true) :
    Memory.wf (s.storeByte a v).mem = true :=
  Memory.wf_write v a.isLt h

theorem State.wf_storeBytes {s : State} (w : Width) (a v : Word) (h : Memory.wf s.mem = true) :
    Memory.wf (s.storeBytes w a v).mem = true := by
  cases w <;> simp only [State.storeBytes] <;> repeat first | exact h | apply State.wf_storeByte

theorem State.stored_wf_storeByte {s : State} (a : Word) (v : Byte) (h : AddrSet.wf s.stored = true) :
    AddrSet.wf (s.storeByte a v).stored = true :=
  AddrSet.wf_insert a.isLt h

theorem State.stored_wf_storeBytes {s : State} (w : Width) (a v : Word) (h : AddrSet.wf s.stored = true) :
    AddrSet.wf (s.storeBytes w a v).stored = true := by
  cases w <;> simp only [State.storeBytes] <;> repeat first | exact h | apply State.stored_wf_storeByte

/-- Every byte of an access is noted as stored to (R65), and no other. -/
theorem State.mem_stored_storeBytes (s : State) (w : Width) (a v : Word) (b : Word) :
    b.toNat ∈ (s.storeBytes w a v).stored ↔ inAccess w a b = true ∨ b.toNat ∈ s.stored := by
  cases w <;> simp only [State.storeBytes, State.storeByte, AddrSet.mem_insert, inAccess, Bool.or_eq_true,
    decide_eq_true_eq, BitVec.toNat_inj] <;> tauto

/-- Placing a word keeps the canonical form of memory. -/
theorem State.wf_placeWord {s : State} (w : Word) (h : Memory.wf s.mem = true) :
    Memory.wf (s.placeWord w).mem = true := by
  unfold State.placeWord
  exact Memory.wf_write _ (BitVec.isLt _) (Memory.wf_write _ (BitVec.isLt _)
    (Memory.wf_write _ (BitVec.isLt _) (Memory.wf_write _ (BitVec.isLt _) h)))

theorem State.reset_mem_wf : Memory.wf State.reset.mem = true := rfl

end Sys2Proof.Machine
end

