-- ==== Sys2Proof/Laws/State.lean ====
section
/-! SUPPORT. What each update of the state does to each field. -/

namespace Sys2Proof.Machine

/-! ## `State.setPc` -/

@[simp] theorem State.setPc_params (s : State) (v : Word) : (s.setPc v).params = s.params := rfl
@[simp] theorem State.setPc_regs (s : State) (v : Word) : (s.setPc v).regs = s.regs := rfl
@[simp] theorem State.setPc_pc (s : State) (v : Word) : (s.setPc v).pc = v := rfl
@[simp] theorem State.setPc_cpsr (s : State) (v : Word) : (s.setPc v).cpsr = s.cpsr := rfl
@[simp] theorem State.setPc_spsr (s : State) (v : Word) : (s.setPc v).spsr = s.spsr := rfl
@[simp] theorem State.setPc_mem (s : State) (v : Word) : (s.setPc v).mem = s.mem := rfl
@[simp] theorem State.setPc_stored (s : State) (v : Word) : (s.setPc v).stored = s.stored := rfl
@[simp] theorem State.setPc_inputs (s : State) (v : Word) : (s.setPc v).inputs = s.inputs := rfl
@[simp] theorem State.setPc_hazard (s : State) (v : Word) : (s.setPc v).hazard = s.hazard := rfl
@[simp] theorem State.setPc_freeCount (s : State) (v : Word) : (s.setPc v).freeCount = s.freeCount := rfl

/-! ## `State.setFlags` -/

@[simp] theorem State.setFlags_params (s : State) (f : Flags) : (s.setFlags f).params = s.params := rfl
@[simp] theorem State.setFlags_regs (s : State) (f : Flags) : (s.setFlags f).regs = s.regs := rfl
@[simp] theorem State.setFlags_pc (s : State) (f : Flags) : (s.setFlags f).pc = s.pc := rfl
@[simp] theorem State.setFlags_cpsr (s : State) (f : Flags) : (s.setFlags f).cpsr = { s.cpsr with flags := f } := rfl
@[simp] theorem State.setFlags_spsr (s : State) (f : Flags) : (s.setFlags f).spsr = s.spsr := rfl
@[simp] theorem State.setFlags_mem (s : State) (f : Flags) : (s.setFlags f).mem = s.mem := rfl
@[simp] theorem State.setFlags_stored (s : State) (f : Flags) : (s.setFlags f).stored = s.stored := rfl
@[simp] theorem State.setFlags_inputs (s : State) (f : Flags) : (s.setFlags f).inputs = s.inputs := rfl
@[simp] theorem State.setFlags_hazard (s : State) (f : Flags) : (s.setFlags f).hazard = s.hazard := rfl
@[simp] theorem State.setFlags_freeCount (s : State) (f : Flags) : (s.setFlags f).freeCount = s.freeCount := rfl

/-! ## `State.setCpsr` -/

@[simp] theorem State.setCpsr_params (s : State) (c : Cpsr) : (s.setCpsr c).params = s.params := rfl
@[simp] theorem State.setCpsr_regs (s : State) (c : Cpsr) : (s.setCpsr c).regs = s.regs := rfl
@[simp] theorem State.setCpsr_pc (s : State) (c : Cpsr) : (s.setCpsr c).pc = s.pc := rfl
@[simp] theorem State.setCpsr_cpsr (s : State) (c : Cpsr) : (s.setCpsr c).cpsr = c := rfl
@[simp] theorem State.setCpsr_spsr (s : State) (c : Cpsr) : (s.setCpsr c).spsr = s.spsr := rfl
@[simp] theorem State.setCpsr_mem (s : State) (c : Cpsr) : (s.setCpsr c).mem = s.mem := rfl
@[simp] theorem State.setCpsr_stored (s : State) (c : Cpsr) : (s.setCpsr c).stored = s.stored := rfl
@[simp] theorem State.setCpsr_inputs (s : State) (c : Cpsr) : (s.setCpsr c).inputs = s.inputs := rfl
@[simp] theorem State.setCpsr_hazard (s : State) (c : Cpsr) : (s.setCpsr c).hazard = s.hazard := rfl
@[simp] theorem State.setCpsr_freeCount (s : State) (c : Cpsr) : (s.setCpsr c).freeCount = s.freeCount := rfl

/-! ## `State.setSpsr` -/

@[simp] theorem State.setSpsr_params (s : State) (b : Bank) (p : Psr) : (s.setSpsr b p).params = s.params := rfl
@[simp] theorem State.setSpsr_regs (s : State) (b : Bank) (p : Psr) : (s.setSpsr b p).regs = s.regs := rfl
@[simp] theorem State.setSpsr_pc (s : State) (b : Bank) (p : Psr) : (s.setSpsr b p).pc = s.pc := rfl
@[simp] theorem State.setSpsr_cpsr (s : State) (b : Bank) (p : Psr) : (s.setSpsr b p).cpsr = s.cpsr := rfl
@[simp] theorem State.setSpsr_spsr (s : State) (b : Bank) (p : Psr) : (s.setSpsr b p).spsr = s.spsr.set p b := rfl
@[simp] theorem State.setSpsr_mem (s : State) (b : Bank) (p : Psr) : (s.setSpsr b p).mem = s.mem := rfl
@[simp] theorem State.setSpsr_stored (s : State) (b : Bank) (p : Psr) : (s.setSpsr b p).stored = s.stored := rfl
@[simp] theorem State.setSpsr_inputs (s : State) (b : Bank) (p : Psr) : (s.setSpsr b p).inputs = s.inputs := rfl
@[simp] theorem State.setSpsr_hazard (s : State) (b : Bank) (p : Psr) : (s.setSpsr b p).hazard = s.hazard := rfl
@[simp] theorem State.setSpsr_freeCount (s : State) (b : Bank) (p : Psr) : (s.setSpsr b p).freeCount = s.freeCount := rfl

/-! ## `State.drawn` -/

@[simp] theorem State.drawn_params (s : State) : (s.drawn).params = s.params := rfl
@[simp] theorem State.drawn_regs (s : State) : (s.drawn).regs = s.regs := rfl
@[simp] theorem State.drawn_pc (s : State) : (s.drawn).pc = s.pc := rfl
@[simp] theorem State.drawn_cpsr (s : State) : (s.drawn).cpsr = s.cpsr := rfl
@[simp] theorem State.drawn_spsr (s : State) : (s.drawn).spsr = s.spsr := rfl
@[simp] theorem State.drawn_mem (s : State) : (s.drawn).mem = s.mem := rfl
@[simp] theorem State.drawn_stored (s : State) : (s.drawn).stored = s.stored := rfl
@[simp] theorem State.drawn_inputs (s : State) : (s.drawn).inputs = s.inputs := rfl
@[simp] theorem State.drawn_hazard (s : State) : (s.drawn).hazard = s.hazard := rfl
@[simp] theorem State.drawn_freeCount (s : State) : (s.drawn).freeCount = s.freeCount + 1 := rfl

/-! ## `State.ticked` -/

@[simp] theorem State.ticked_params (s : State) : (s.ticked).params = s.params := rfl
@[simp] theorem State.ticked_regs (s : State) : (s.ticked).regs = s.regs := rfl
@[simp] theorem State.ticked_pc (s : State) : (s.ticked).pc = s.pc := rfl
@[simp] theorem State.ticked_cpsr (s : State) : (s.ticked).cpsr = s.cpsr := rfl
@[simp] theorem State.ticked_spsr (s : State) : (s.ticked).spsr = s.spsr := rfl
@[simp] theorem State.ticked_mem (s : State) : (s.ticked).mem = s.mem := rfl
@[simp] theorem State.ticked_stored (s : State) : (s.ticked).stored = s.stored := rfl
@[simp] theorem State.ticked_inputs (s : State) : (s.ticked).inputs = s.inputs := rfl
@[simp] theorem State.ticked_hazard (s : State) : (s.ticked).hazard = s.hazard.tick := rfl
@[simp] theorem State.ticked_freeCount (s : State) : (s.ticked).freeCount = s.freeCount := rfl

/-! ## `State.sampled` -/

@[simp] theorem State.sampled_params (s : State) : (s.sampled).params = s.params := rfl
@[simp] theorem State.sampled_regs (s : State) : (s.sampled).regs = s.regs := rfl
@[simp] theorem State.sampled_pc (s : State) : (s.sampled).pc = s.pc := rfl
@[simp] theorem State.sampled_cpsr (s : State) : (s.sampled).cpsr = s.cpsr := rfl
@[simp] theorem State.sampled_spsr (s : State) : (s.sampled).spsr = s.spsr := rfl
@[simp] theorem State.sampled_mem (s : State) : (s.sampled).mem = s.mem := rfl
@[simp] theorem State.sampled_stored (s : State) : (s.sampled).stored = s.stored := rfl
@[simp] theorem State.sampled_inputs (s : State) : (s.sampled).inputs = s.inputs.tail := rfl
@[simp] theorem State.sampled_hazard (s : State) : (s.sampled).hazard = s.hazard := rfl
@[simp] theorem State.sampled_freeCount (s : State) : (s.sampled).freeCount = s.freeCount := rfl

/-! ## `State.storeByte` -/

@[simp] theorem State.storeByte_params (s : State) (a : Word) (v : Byte) : (s.storeByte a v).params = s.params := rfl
@[simp] theorem State.storeByte_regs (s : State) (a : Word) (v : Byte) : (s.storeByte a v).regs = s.regs := rfl
@[simp] theorem State.storeByte_pc (s : State) (a : Word) (v : Byte) : (s.storeByte a v).pc = s.pc := rfl
@[simp] theorem State.storeByte_cpsr (s : State) (a : Word) (v : Byte) : (s.storeByte a v).cpsr = s.cpsr := rfl
@[simp] theorem State.storeByte_spsr (s : State) (a : Word) (v : Byte) : (s.storeByte a v).spsr = s.spsr := rfl
@[simp] theorem State.storeByte_mem (s : State) (a : Word) (v : Byte) : (s.storeByte a v).mem = Memory.write s.mem a.toNat v := rfl
@[simp] theorem State.storeByte_stored (s : State) (a : Word) (v : Byte) : (s.storeByte a v).stored = AddrSet.insert s.stored a.toNat := rfl
@[simp] theorem State.storeByte_inputs (s : State) (a : Word) (v : Byte) : (s.storeByte a v).inputs = s.inputs := rfl
@[simp] theorem State.storeByte_hazard (s : State) (a : Word) (v : Byte) : (s.storeByte a v).hazard = s.hazard := rfl
@[simp] theorem State.storeByte_freeCount (s : State) (a : Word) (v : Byte) : (s.storeByte a v).freeCount = s.freeCount := rfl

/-! ## `enterException` -/

@[simp] theorem enterException_params (s : State) (e : Exc) : (enterException e s).params = s.params := rfl
@[simp] theorem enterException_regs (s : State) (e : Exc) : (enterException e s).regs = s.regs.set (slot e.mode.bank 14#4) (e.link s) := rfl
@[simp] theorem enterException_pc (s : State) (e : Exc) : (enterException e s).pc = e.vector := rfl
@[simp] theorem enterException_cpsr (s : State) (e : Exc) : (enterException e s).cpsr = { s.cpsr with i := true, f := s.cpsr.f || e.masksFiq, mode := e.mode } := rfl
@[simp] theorem enterException_spsr (s : State) (e : Exc) : (enterException e s).spsr = s.spsr.set s.cpsr.toPsr e.mode.bank := rfl
@[simp] theorem enterException_mem (s : State) (e : Exc) : (enterException e s).mem = s.mem := rfl
@[simp] theorem enterException_stored (s : State) (e : Exc) : (enterException e s).stored = s.stored := rfl
@[simp] theorem enterException_inputs (s : State) (e : Exc) : (enterException e s).inputs = s.inputs := rfl
@[simp] theorem enterException_hazard (s : State) (e : Exc) : (enterException e s).hazard = s.hazard := rfl
@[simp] theorem enterException_freeCount (s : State) (e : Exc) : (enterException e s).freeCount = s.freeCount := rfl

/-! ## Register writes -/

@[simp] theorem State.setRegIn_params (s : State) (b : Bank) (r : Reg) (v : Word) : (s.setRegIn b r v).params = s.params := by
  unfold State.setRegIn; split <;> rfl

@[simp] theorem State.setReg_params (s : State) (r : Reg) (v : Word) : (s.setReg r v).params = s.params :=
  State.setRegIn_params ..

@[simp] theorem State.setRegIn_pc (s : State) (b : Bank) (r : Reg) (v : Word) : (s.setRegIn b r v).pc = s.pc := by
  unfold State.setRegIn; split <;> rfl

@[simp] theorem State.setReg_pc (s : State) (r : Reg) (v : Word) : (s.setReg r v).pc = s.pc :=
  State.setRegIn_pc ..

@[simp] theorem State.setRegIn_cpsr (s : State) (b : Bank) (r : Reg) (v : Word) : (s.setRegIn b r v).cpsr = s.cpsr := by
  unfold State.setRegIn; split <;> rfl

@[simp] theorem State.setReg_cpsr (s : State) (r : Reg) (v : Word) : (s.setReg r v).cpsr = s.cpsr :=
  State.setRegIn_cpsr ..

@[simp] theorem State.setRegIn_spsr (s : State) (b : Bank) (r : Reg) (v : Word) : (s.setRegIn b r v).spsr = s.spsr := by
  unfold State.setRegIn; split <;> rfl

@[simp] theorem State.setReg_spsr (s : State) (r : Reg) (v : Word) : (s.setReg r v).spsr = s.spsr :=
  State.setRegIn_spsr ..

@[simp] theorem State.setRegIn_mem (s : State) (b : Bank) (r : Reg) (v : Word) : (s.setRegIn b r v).mem = s.mem := by
  unfold State.setRegIn; split <;> rfl

@[simp] theorem State.setReg_mem (s : State) (r : Reg) (v : Word) : (s.setReg r v).mem = s.mem :=
  State.setRegIn_mem ..

@[simp] theorem State.setRegIn_stored (s : State) (b : Bank) (r : Reg) (v : Word) : (s.setRegIn b r v).stored = s.stored := by
  unfold State.setRegIn; split <;> rfl

@[simp] theorem State.setReg_stored (s : State) (r : Reg) (v : Word) : (s.setReg r v).stored = s.stored :=
  State.setRegIn_stored ..

@[simp] theorem State.setRegIn_inputs (s : State) (b : Bank) (r : Reg) (v : Word) : (s.setRegIn b r v).inputs = s.inputs := by
  unfold State.setRegIn; split <;> rfl

@[simp] theorem State.setReg_inputs (s : State) (r : Reg) (v : Word) : (s.setReg r v).inputs = s.inputs :=
  State.setRegIn_inputs ..

@[simp] theorem State.setRegIn_hazard (s : State) (b : Bank) (r : Reg) (v : Word) : (s.setRegIn b r v).hazard = s.hazard := by
  unfold State.setRegIn; split <;> rfl

@[simp] theorem State.setReg_hazard (s : State) (r : Reg) (v : Word) : (s.setReg r v).hazard = s.hazard :=
  State.setRegIn_hazard ..

@[simp] theorem State.setRegIn_freeCount (s : State) (b : Bank) (r : Reg) (v : Word) : (s.setRegIn b r v).freeCount = s.freeCount := by
  unfold State.setRegIn; split <;> rfl

@[simp] theorem State.setReg_freeCount (s : State) (r : Reg) (v : Word) : (s.setReg r v).freeCount = s.freeCount :=
  State.setRegIn_freeCount ..

/-! ## Flags under the S bit -/

@[simp] theorem State.setFlagsWhen_params (s : State) (sBit : Bool) (f : Flags) : (s.setFlagsWhen sBit f).params = s.params := by
  cases sBit <;> rfl

@[simp] theorem State.setFlagsWhen_regs (s : State) (sBit : Bool) (f : Flags) : (s.setFlagsWhen sBit f).regs = s.regs := by
  cases sBit <;> rfl

@[simp] theorem State.setFlagsWhen_pc (s : State) (sBit : Bool) (f : Flags) : (s.setFlagsWhen sBit f).pc = s.pc := by
  cases sBit <;> rfl

@[simp] theorem State.setFlagsWhen_spsr (s : State) (sBit : Bool) (f : Flags) : (s.setFlagsWhen sBit f).spsr = s.spsr := by
  cases sBit <;> rfl

@[simp] theorem State.setFlagsWhen_mem (s : State) (sBit : Bool) (f : Flags) : (s.setFlagsWhen sBit f).mem = s.mem := by
  cases sBit <;> rfl

@[simp] theorem State.setFlagsWhen_stored (s : State) (sBit : Bool) (f : Flags) : (s.setFlagsWhen sBit f).stored = s.stored := by
  cases sBit <;> rfl

@[simp] theorem State.setFlagsWhen_inputs (s : State) (sBit : Bool) (f : Flags) : (s.setFlagsWhen sBit f).inputs = s.inputs := by
  cases sBit <;> rfl

@[simp] theorem State.setFlagsWhen_hazard (s : State) (sBit : Bool) (f : Flags) : (s.setFlagsWhen sBit f).hazard = s.hazard := by
  cases sBit <;> rfl

@[simp] theorem State.setFlagsWhen_freeCount (s : State) (sBit : Bool) (f : Flags) : (s.setFlagsWhen sBit f).freeCount = s.freeCount := by
  cases sBit <;> rfl

@[simp] theorem State.setFlagsWhen_cpsr (s : State) (sBit : Bool) (f : Flags) :
    (s.setFlagsWhen sBit f).cpsr = if sBit then { s.cpsr with flags := f } else s.cpsr := by
  cases sBit <;> rfl

/-! ## Stores -/

@[simp] theorem State.storeBytes_params (s : State) (w : Width) (a v : Word) : (s.storeBytes w a v).params = s.params := by
  cases w <;> rfl

@[simp] theorem State.storeBytes_regs (s : State) (w : Width) (a v : Word) : (s.storeBytes w a v).regs = s.regs := by
  cases w <;> rfl

@[simp] theorem State.storeBytes_pc (s : State) (w : Width) (a v : Word) : (s.storeBytes w a v).pc = s.pc := by
  cases w <;> rfl

@[simp] theorem State.storeBytes_cpsr (s : State) (w : Width) (a v : Word) : (s.storeBytes w a v).cpsr = s.cpsr := by
  cases w <;> rfl

@[simp] theorem State.storeBytes_spsr (s : State) (w : Width) (a v : Word) : (s.storeBytes w a v).spsr = s.spsr := by
  cases w <;> rfl

@[simp] theorem State.storeBytes_inputs (s : State) (w : Width) (a v : Word) : (s.storeBytes w a v).inputs = s.inputs := by
  cases w <;> rfl

@[simp] theorem State.storeBytes_hazard (s : State) (w : Width) (a v : Word) : (s.storeBytes w a v).hazard = s.hazard := by
  cases w <;> rfl

@[simp] theorem State.storeBytes_freeCount (s : State) (w : Width) (a v : Word) : (s.storeBytes w a v).freeCount = s.freeCount := by
  cases w <;> rfl

/-! ## The mode seen through an update that does not write it -/

@[simp] theorem State.setPc_mode (s : State) (v : Word) : (s.setPc v).mode = s.mode := rfl

@[simp] theorem State.setFlags_mode (s : State) (f : Flags) : (s.setFlags f).mode = s.mode := rfl

@[simp] theorem State.setSpsr_mode (s : State) (b : Bank) (p : Psr) : (s.setSpsr b p).mode = s.mode := rfl

@[simp] theorem State.drawn_mode (s : State) : (s.drawn).mode = s.mode := rfl

@[simp] theorem State.ticked_mode (s : State) : (s.ticked).mode = s.mode := rfl

@[simp] theorem State.sampled_mode (s : State) : (s.sampled).mode = s.mode := rfl

@[simp] theorem State.storeByte_mode (s : State) (a : Word) (v : Byte) : (s.storeByte a v).mode = s.mode := rfl

@[simp] theorem State.setRegIn_mode (s : State) (b : Bank) (r : Reg) (v : Word) : (s.setRegIn b r v).mode = s.mode := by
  simp [State.mode]

@[simp] theorem State.setReg_mode (s : State) (r : Reg) (v : Word) : (s.setReg r v).mode = s.mode := by
  simp [State.mode]

@[simp] theorem State.storeBytes_mode (s : State) (w : Width) (a v : Word) : (s.storeBytes w a v).mode = s.mode := by
  simp [State.mode]

@[simp] theorem State.setFlagsWhen_mode (s : State) (sBit : Bool) (f : Flags) : (s.setFlagsWhen sBit f).mode = s.mode := by
  cases sBit <;> rfl

@[simp] theorem State.setPc_bank (s : State) (v : Word) : (s.setPc v).bank = s.bank := by
  simp [State.bank]

@[simp] theorem State.setFlags_bank (s : State) (f : Flags) : (s.setFlags f).bank = s.bank := by
  simp [State.bank]

@[simp] theorem State.setFlagsWhen_bank (s : State) (sBit : Bool) (f : Flags) : (s.setFlagsWhen sBit f).bank = s.bank := by
  simp [State.bank]

@[simp] theorem State.setSpsr_bank (s : State) (b : Bank) (p : Psr) : (s.setSpsr b p).bank = s.bank := by
  simp [State.bank]

@[simp] theorem State.drawn_bank (s : State) : (s.drawn).bank = s.bank := by
  simp [State.bank]

@[simp] theorem State.ticked_bank (s : State) : (s.ticked).bank = s.bank := by
  simp [State.bank]

@[simp] theorem State.sampled_bank (s : State) : (s.sampled).bank = s.bank := by
  simp [State.bank]

@[simp] theorem State.storeByte_bank (s : State) (a : Word) (v : Byte) : (s.storeByte a v).bank = s.bank := by
  simp [State.bank]

@[simp] theorem State.setRegIn_bank (s : State) (b : Bank) (r : Reg) (v : Word) : (s.setRegIn b r v).bank = s.bank := by
  simp [State.bank]

@[simp] theorem State.setReg_bank (s : State) (r : Reg) (v : Word) : (s.setReg r v).bank = s.bank := by
  simp [State.bank]

@[simp] theorem State.storeBytes_bank (s : State) (w : Width) (a v : Word) : (s.storeBytes w a v).bank = s.bank := by
  simp [State.bank]

/-! ## Registers read after a register write -/

/-- A register write changes one general register of one bank. -/
theorem State.setRegIn_get (s : State) (b : Bank) (r : Reg) (v : Word) (j : Fin 30) :
    (s.setRegIn b r v).regs.get j = if r ≠ 15#4 ∧ slot b r = j then v else s.regs.get j := by
  unfold State.setRegIn
  by_cases h : r = 15#4
  · simp [h]
  · simp [h, Vector.get_eq_getElem, Vector.getElem_set, Fin.ext_iff]

theorem State.setReg_get (s : State) (r : Reg) (v : Word) (j : Fin 30) :
    (s.setReg r v).regs.get j = if r ≠ 15#4 ∧ slot s.bank r = j then v else s.regs.get j :=
  State.setRegIn_get ..

@[simp] theorem State.setReg_get_self (s : State) {r : Reg} (h : r ≠ 15#4) (v : Word) :
    (s.setReg r v).regs.get (slot s.bank r) = v := by
  simp [State.setReg_get, h]

/-- Within one bank, different register numbers below 15 stand in different places (R341). -/
theorem slot_injective (b : Bank) {r q : Reg} (hr : r ≠ 15#4) (hq : q ≠ 15#4) (h : slot b r = slot b q) : r = q := by
  revert r q; cases b <;> decide

theorem State.regIn_setRegIn_self (s : State) (b : Bank) {r : Reg} (h : r ≠ 15#4) (v : Word) :
    (s.setRegIn b r v).regIn b r = v := by
  simp [State.regIn, State.setRegIn_get, h]

theorem State.regIn_setRegIn_of_ne (s : State) (b : Bank) {r q : Reg} (hq : q ≠ 15#4) (h : q ≠ r) (v : Word) :
    (s.setRegIn b r v).regIn b q = s.regIn b q := by
  rw [State.regIn, State.setRegIn_get, State.regIn]
  split
  · next hc => exact absurd (slot_injective b hc.1 hq hc.2).symm h
  · rfl

@[simp] theorem State.reg_pc (s : State) : s.reg 15#4 = s.pc + 8#32 := rfl

/-- Away from register 15 and from the caution of R373 (a), an operand is the register's content (R25). -/
theorem State.reg_of_not_live (s : State) {r : Reg} (h : r ≠ 15#4) (hl : s.hazard ≠ .live) :
    s.reg r = s.regIn s.bank r := by
  simp [State.reg, h, hl]

end Sys2Proof.Machine
end

