-- ==== Sys2Proof/Laws/Ops.lean ====
section
/-! SUPPORT. What each shared operation can do, said once: the outcomes it gives, and all that holds when it gives a next
state. -/

namespace Sys2Proof.Machine

/-! ## The end of an instruction -/

theorem advance_of_ne {s : State} (h : s.pc ≠ 0xFFFFFFFC#32) : advance s = .next (s.setPc (s.pc + 4#32)) := if_neg h

theorem advance_eq_next {s t : State} : advance s = .next t ↔ s.pc ≠ 0xFFFFFFFC#32 ∧ t = s.setPc (s.pc + 4#32) := by
  unfold advance; split <;> simp_all [eq_comm]

theorem branchWritePC_eq_next {v : Word} {s t : State} :
    branchWritePC v s = .next t ↔ v.extractLsb' 0 2 = 0#2 ∧ t = s.setPc v := by
  unfold branchWritePC; split <;> simp_all [eq_comm]

theorem writeResult_eq_next {r : Reg} {v : Word} {s t : State} :
    writeResult r v s = .next t ↔
      (r = 15#4 ∧ v.extractLsb' 0 2 = 0#2 ∧ t = s.setPc v) ∨
      (r ≠ 15#4 ∧ s.pc ≠ 0xFFFFFFFC#32 ∧ t = (s.setReg r v).setPc (s.pc + 4#32)) := by
  unfold writeResult; split <;> simp_all [branchWritePC_eq_next, advance_eq_next]

/-! ## Condition and restrictions -/

theorem guarded_pass {c : Cond} {s : State} {k : Result} (h : condPassed c s.cpsr.flags = true) : guarded c s k = k :=
  if_pos h

theorem guarded_fail {c : Cond} {s : State} {k : Result} (h : condPassed c s.cpsr.flags = false) :
    guarded c s k = advance s := by
  simp [guarded, h]

theorem guarded_eq_next {c : Cond} {s t : State} {k : Result} :
    guarded c s k = .next t ↔
      (condPassed c s.cpsr.flags = true ∧ k = .next t) ∨
      (condPassed c s.cpsr.flags = false ∧ s.pc ≠ 0xFFFFFFFC#32 ∧ t = s.setPc (s.pc + 4#32)) := by
  unfold guarded; split <;> simp_all [advance_eq_next]

/-- The first case of a table of refusals that holds decides; none holding, the instruction goes on. -/
theorem checks_eq (l : List (Bool × Refusal)) (k : Result) :
    checks l k = match l.find? (·.1) with
      | some x => .refused x.2
      | none => k := by
  induction l with
  | nil => rfl
  | cons x l ih =>
    obtain ⟨bad, r⟩ := x
    cases bad <;> simp [checks, ih]

theorem checks_pass {l : List (Bool × Refusal)} {k : Result} (h : ∀ x ∈ l, x.1 = false) : checks l k = k := by
  induction l with
  | nil => rfl
  | cons x l ih =>
    obtain ⟨bad, r⟩ := x
    have hb : bad = false := h (bad, r) (List.mem_cons_self ..)
    subst hb
    exact ih fun y hy => h y (List.mem_cons_of_mem _ hy)

theorem checks_eq_next {l : List (Bool × Refusal)} {k : Result} {t : State} :
    checks l k = .next t ↔ (∀ x ∈ l, x.1 = false) ∧ k = .next t := by
  induction l with
  | nil => simp [checks]
  | cons x l ih =>
    obtain ⟨bad, r⟩ := x
    cases bad <;> simp [checks, ih]

/-! ## Exceptions -/

theorem raise_U {e : Exc} {info : Word} {s : State} (h : s.params.profile = .U) : raise e info s = .fault (.trap e info) := by
  simp [raise, h]

theorem raise_S {e : Exc} {info : Word} {s : State} (h : s.params.profile = .S) :
    raise e info s = .next (enterException e s) := by
  simp [raise, h]

theorem raise_eq_next {e : Exc} {info : Word} {s t : State} :
    raise e info s = .next t ↔ s.params.profile = .S ∧ t = enterException e s := by
  unfold raise; cases h : s.params.profile <;> simp [eq_comm]

/-- The CPSR a status register restores (R346). -/
theorem Psr.toCpsr_eq_ok {p : Psr} {c : Cpsr} :
    p.toCpsr = .ok c ↔ p.t = false ∧ Mode.ofBits p.m = some c.mode ∧ c.flags = p.flags ∧ c.i = p.i ∧ c.f = p.f := by
  obtain ⟨f, i, fq, m⟩ := c
  unfold Psr.toCpsr
  split
  · simp_all
  · split <;> simp_all
    tauto

theorem exceptionReturn_eq_next {r : Refusal} {target : Word} {s t : State} :
    exceptionReturn r target s = .next t ↔
      ∃ p c, s.spsrNow = some p ∧ target.extractLsb' 0 2 = 0#2 ∧ p.toCpsr = .ok c ∧ t = (s.setCpsr c).setPc target := by
  unfold exceptionReturn
  split
  · next h => simp [h]
  · next p h =>
    simp only [h, Option.some.injEq]
    by_cases ht : target.extractLsb' 0 2 = 0#2
    · simp only [ht, if_true]
      split <;> next he => simp [he, eq_comm]
    · simp [ht]

theorem Mode.ofBits_bits (m : Mode) : Mode.ofBits m.bits = some m := by cases m <;> rfl

theorem Mode.bits_ofBits {v : BitVec 5} {m : Mode} (h : Mode.ofBits v = some m) : m.bits = v := by
  revert v m; decide

/-- The two modes without SPSR (R342). -/
theorem State.spsrNow_eq_none {s : State} : s.spsrNow = none ↔ s.mode = .usr ∨ s.mode = .sys := by
  unfold State.spsrNow State.bank
  cases s.mode <;> simp [Mode.bank, SpsrFile.get]

theorem State.mode_U {s : State} (h : s.params.profile = .U) : s.mode = .usr := by simp [State.mode, h]

theorem State.mode_S {s : State} (h : s.params.profile = .S) : s.mode = s.cpsr.mode := by simp [State.mode, h]

/-! ## Accesses -/

theorem Access.bind_eq_ok {α β : Type} {x : Access α} {f : α → Access β} {v : β} :
    x.bind f = .ok v ↔ ∃ u, x = .ok u ∧ f u = .ok v := by
  cases x <;> simp [Access.bind]

/-- An access either gives a value and the instruction goes on, or raises an exception that profile S takes. -/
theorem Access.run_eq_next {α : Type} {x : Access α} {s t : State} {k : α → Result} :
    x.run s k = .next t ↔
      (∃ v, x = .ok v ∧ k v = .next t) ∨
      (∃ e info, x = .raises e info ∧ s.params.profile = .S ∧ t = enterException e s) := by
  cases x <;> simp [Access.run, raise_eq_next]

@[simp] theorem alignedAddress_byte (s : State) (a : Word) : alignedAddress s .byte a = .ok a := rfl

/-- The address accessed: the one asked for when it is aligned, the one rounded down under `armv4` (R54, R55). -/
theorem alignedAddress_eq_ok {s : State} {w : Width} {a b : Word} (h : alignedAddress s w a = .ok b) :
    b = a ∨ (w = .word ∧ s.params.misaligned = .armv4 ∧ b = alignDown a) := by
  cases w <;> simp only [alignedAddress] at h <;> repeat' split at h
  all_goals first | (cases h; simp_all) | cases h

theorem checkAccess_eq_ok {s : State} {w : Width} {a b : Word} :
    checkAccess s w a = .ok b ↔ alignedAddress s w a = .ok b ∧ allMapped s.params b w.bytes = true := by
  unfold checkAccess
  rw [Access.bind_eq_ok]
  constructor
  · rintro ⟨u, hu, h⟩
    split at h
    · next hm => cases h; exact ⟨hu, hm⟩
    · cases h
  · rintro ⟨hu, hm⟩
    exact ⟨b, hu, if_pos hm⟩

theorem loadChecked_eq_ok {s : State} {w : Width} {a v : Word} :
    loadChecked s w a = .ok v ↔ s.loadBytes w a = some v := by
  unfold loadChecked; split <;> simp_all

theorem memRead_eq_ok {s : State} {w : Width} {a v : Word} :
    memRead s w a = .ok v ↔ ∃ b, checkAccess s w a = .ok b ∧ s.loadBytes w b = some v := by
  simp [memRead, Access.bind_eq_ok, loadChecked_eq_ok]

theorem memWrite_eq_ok {s t : State} {w : Width} {a v : Word} :
    memWrite s w a v = .ok t ↔ ∃ b, checkAccess s w a = .ok b ∧ t = s.storeBytes w b v := by
  simp only [memWrite, Access.bind_eq_ok, Access.ok.injEq, eq_comm (b := t)]

theorem loadValue_eq_ok {s : State} {w : Width} {a v : Word} :
    loadValue s w a = .ok v ↔ ∃ u, memRead s w a = .ok u ∧ v = rotateLoaded w a u := by
  simp only [loadValue, Access.bind_eq_ok, Access.ok.injEq, eq_comm (b := v)]

/-- An aligned address is accessed as it is, whatever the policy (R54, R55). -/
theorem alignedAddress_of_aligned {s : State} {a : Word} (w : Width) (h : a.extractLsb' 0 2 = 0#2) :
    alignedAddress s w a = .ok a := by
  have h0 : a.getLsbD 0 = false := by
    have := congrArg (·.getLsbD 0) h
    simpa using this
  cases w <;> simp only [alignedAddress, h, h0, if_true, Bool.false_eq_true, if_false]

/-- An aligned word is not rotated (R55). -/
theorem rotateLoaded_of_aligned {a : Word} (w : Width) (v : Word) (h : a.extractLsb' 0 2 = 0#2) :
    rotateLoaded w a v = v := by
  cases w <;> simp [rotateLoaded, h, BitVec.rotateRight, BitVec.rotateRightAux]

theorem rotateLoaded_byte (a v : Word) : rotateLoaded .byte a v = v := rfl

theorem rotateLoaded_half (a v : Word) : rotateLoaded .half a v = v := rfl

/-! ## Aligned addresses -/

/-- The aligned address as a number (R55). -/
theorem toNat_alignDown (a : Word) : (alignDown a).toNat = a.toNat / 4 * 4 := by
  have h : alignDown a = (a >>> 2) <<< 2 := by
    refine BitVec.eq_of_getLsbD_eq fun k hk => ?_
    have hm : (0xFFFFFFFC#32).getLsbD k = decide (2 ≤ k) := by
      revert k; decide
    rw [alignDown, BitVec.getLsbD_and, hm, BitVec.getLsbD_shiftLeft, BitVec.getLsbD_ushiftRight]
    by_cases h2 : k < 2
    · simp [h2, show ¬ 2 ≤ k by omega]
    · simp [h2, hk, show 2 ≤ k by omega, show 2 + (k - 2) = k by omega]
  rw [h, BitVec.toNat_shiftLeft, BitVec.toNat_ushiftRight, Nat.shiftRight_eq_div_pow, Nat.shiftLeft_eq]
  have := a.isLt
  omega

/-- An aligned address is its own (R55). -/
theorem alignDown_of_aligned {a : Word} (h : a.extractLsb' 0 2 = 0#2) : alignDown a = a := by
  apply BitVec.eq_of_toNat_eq
  have := congrArg BitVec.toNat h
  simp [BitVec.extractLsb'_toNat] at this
  rw [toNat_alignDown]; omega

/-- Aligning an address keeps its distance in words from another (R55). -/
theorem alignDown_add (a : Word) (n : Nat) :
    alignDown (a + BitVec.ofNat 32 (4 * n)) = alignDown a + BitVec.ofNat 32 (4 * n) := by
  apply BitVec.eq_of_toNat_eq
  have := a.isLt
  rw [toNat_alignDown, BitVec.toNat_add, BitVec.toNat_add, toNat_alignDown, BitVec.toNat_ofNat]
  omega

end Sys2Proof.Machine
end

