-- ==== Sys2Proof/Laws/Families.lean ====
section
/-! SUPPORT. What the shared operation of each family leaves, said once in the terms of Safety.lean. -/

namespace Sys2Proof.Machine

/-! ## Nothing written, one register written -/

theorem State.wroteRegs_nil {s t : State} (h : t.regs = s.regs) : s.wroteRegs t [] :=
  ⟨by simp, fun j _ => by rw [h]⟩

/-- A register write, seen from a state with the same registers and mode. -/
theorem State.wroteRegs_setReg {s u : State} {r : Reg} {v : Word} (hr : r ≠ 15#4) (hregs : u.regs = s.regs)
    (hb : u.bank = s.bank) : s.wroteRegs (u.setReg r v) [(r, v)] := by
  refine ⟨?_, ?_⟩
  · simp [State.setReg_get, hr, hb]
  · intro j hj
    have hj : j ≠ slot s.bank r := by simpa using hj
    rw [State.setReg_get, if_neg (by rw [hb]; exact fun h => hj h.2.symm), hregs]

/-- One more register write. -/
theorem State.wroteRegs_cons {s u : State} {r : Reg} {v : Word} {w : List (Reg × Word)} (hr : r ≠ 15#4)
    (hb : u.bank = s.bank) (h : s.wroteRegs u w) (hw : ∀ x ∈ w, x.1 ≠ 15#4 ∧ x.1 ≠ r) :
    s.wroteRegs (u.setReg r v) ((r, v) :: w) := by
  refine ⟨?_, ?_⟩
  · intro x hx
    rcases List.mem_cons.mp hx with rfl | hx
    · simp [State.setReg_get, hr, hb]
    · rw [State.setReg_get, if_neg, h.1 x hx]
      rintro ⟨_, he⟩
      rw [hb] at he
      exact (hw x hx).2 (slot_injective _ hr (hw x hx).1 he).symm
  · intro j hj
    rw [State.setReg_get, if_neg, h.2 j fun x hx => hj x (List.mem_cons_of_mem _ hx)]
    rintro ⟨_, he⟩
    rw [hb] at he
    exact hj (r, v) (List.mem_cons_self ..) he.symm

/-- What `wroteRegs` says does not depend on fields that are not registers. -/
theorem State.wroteRegs_congr {s t u : State} {w : List (Reg × Word)} (h : s.wroteRegs t w) (hr : u.regs = t.regs) :
    s.wroteRegs u w := by
  simpa only [State.wroteRegs, hr] using h

theorem State.keepsMemory_of_eq {s t : State} (hm : t.mem = s.mem) (hs : t.stored = s.stored) : s.keepsMemory t :=
  ⟨fun a => by simp [State.byteAt, hm], hs⟩

/-! ## Exceptions -/

/-- Exception entry (R344). -/
theorem enterException_entered (e : Exc) (s : State) :
    s.entered (enterException e s) e.mode e.vector (e.link s) e.masksFiq := by
  refine ⟨rfl, by simp [Vector.get_eq_getElem], fun j hj => ?_, ?_, fun b hb => ?_, rfl, rfl, fun _ => rfl, rfl⟩
  · rw [enterException_regs, Vector.get_eq_getElem, Vector.getElem_set_ne _ _ fun h => hj (Fin.ext h).symm]
    rfl
  · cases e <;> rfl
  · revert hb; cases e <;> cases b <;> simp [Exc.mode, Mode.bank, SpsrFile.get, SpsrFile.set]

/-- `raise` (R320, R322, R344), for an exception that leaves F alone. -/
theorem raise_takes {s : State} {e : Exc} {info : Word} (hf : e.masksFiq = false) :
    s.takes (raise e info s) e info e.mode e.vector (e.link s) :=
  ⟨raise_U, fun h => ⟨_, raise_S h, hf ▸ enterException_entered e s, rfl⟩⟩

/-! ## Data processing -/

/-- The write of a data-processing instruction whose Rd is not 15 (R130). -/
theorem dpWrite_done {s : Bool} {rd : Reg} {result : Word} {f : Flags} {st : State} (hpc : st.pc ≠ 0xFFFFFFFC#32)
    (hrd : rd ≠ 15#4) : ∃ t, dpWrite s rd result f st = .next t ∧ st.dpDone t s rd result f := by
  refine ⟨((st.setReg rd result).setFlagsWhen s f).setPc (st.pc + 4#32), ?_, ?_, ?_, ?_, ?_, ?_⟩
  · rw [dpWrite, if_neg hrd, advance_of_ne (by simpa using hpc)]; simp
  · simp
  · exact State.wroteRegs_congr (State.wroteRegs_setReg hrd rfl rfl) (by simp)
  · cases s <;> simp
  · cases s <;> simp [State.keepsSystem]
  · exact State.keepsMemory_of_eq (by simp) (by simp)

theorem dpWrite_pc {result : Word} {f : Flags} {st : State} :
    dpWrite false 15#4 result f st = branchWritePC result st := rfl

theorem dpWrite_return {result : Word} {f : Flags} {st : State} :
    dpWrite true 15#4 result f st = exceptionReturn .sWithRdPc result st := rfl

theorem dpChecks_pass {unused : BitVec 4} {op2 : Src2} {named : List Reg} {k : Result} (hu : unused = 0#4)
    (hr : r15InShift op2 named = false) : checks (dpChecks unused op2 named) k = k :=
  checks_pass (by simp [dpChecks, hu, hr])

/-- `p - q` by `AddWithCarry(p, NOT q, cin)` (R139): the value with its borrow. -/
theorem addWithCarry_value (a b : Word) (cin : Bool) :
    (addWithCarry a b cin).value = a + b + BitVec.ofNat 32 cin.toNat := by
  simp [addWithCarry, BitVec.ofNat_add]

/-! ## Loads and stores -/

/-- An aligned address is the address accessed (R55). -/
theorem accessed_of_aligned {w : Width} {a : Word} (h : alignedFor w a = true) : accessed w a = a := by
  cases w
  · rfl
  · rfl
  · exact alignDown_of_aligned (by simpa [alignedFor] using h)

/-- An access that raises nothing at an aligned address raises nothing under either policy. -/
theorem State.reaches_of_canAccess {s : State} {w : Width} {a : Word} (h : s.canAccess w a = true) :
    s.reaches w a = true := by
  simp only [State.canAccess, Bool.and_eq_true] at h
  simp [State.reaches, h.1, accessed_of_aligned h.1, h.2]

/-- The address of an access that is aligned, or a word under `armv4` (R54, R55). -/
theorem alignedAddress_eq {s : State} {w : Width} {a : Word}
    (h : alignedFor w a = true ∨ (w = .word ∧ s.params.misaligned = .armv4)) : alignedAddress s w a = .ok (accessed w a) := by
  rcases h with h | ⟨rfl, h⟩
  · rw [accessed_of_aligned h]
    cases w <;> simp_all [alignedAddress, alignedFor]
  · by_cases ha : a.extractLsb' 0 2 = 0#2
    · rw [accessed_of_aligned (by simpa [alignedFor] using ha)]
      simp [alignedAddress, ha]
    · simp [alignedAddress, ha, h, accessed, alignDown]

/-- The checks of an access that raises nothing (R56, R57). -/
theorem checkAccess_of_reaches {s : State} {w : Width} {a : Word} (h : s.reaches w a = true) :
    checkAccess s w a = .ok (accessed w a) := by
  simp only [State.reaches, Bool.and_eq_true, Bool.or_eq_true, decide_eq_true_eq] at h
  exact checkAccess_eq_ok.mpr ⟨alignedAddress_eq h.1, h.2⟩

/-- The checks of an access outside `MEMMAP` (R51). -/
theorem checkAccess_outside {s : State} {w : Width} {a : Word}
    (ha : alignedFor w a = true ∨ (w = .word ∧ s.params.misaligned = .armv4))
    (hm : allMapped s.params (accessed w a) w.bytes = false) : checkAccess s w a = .raises .dataAbort (accessed w a) := by
  simp [checkAccess, alignedAddress_eq ha, Access.bind, hm]

/-- The load of a value all of whose bytes were written (R56, R55). -/
theorem loadValue_of_reaches {s : State} {w : Width} {a v : Word} (hc : s.reaches w a = true)
    (hv : s.loadBytes w (accessed w a) = some v) : loadValue s w a = .ok (rotateLoaded w a v) :=
  loadValue_eq_ok.mpr ⟨v, memRead_eq_ok.mpr ⟨_, checkAccess_of_reaches hc, hv⟩, rfl⟩

/-- The load of a value one of whose bytes nothing has written (R56 (3)). -/
theorem loadValue_unwritten {s : State} {w : Width} {a : Word} (hc : s.reaches w a = true)
    (hv : s.loadBytes w (accessed w a) = none) : loadValue s w a = .refuses .readUnwritten := by
  simp [loadValue, memRead, checkAccess_of_reaches hc, Access.bind, loadChecked, hv]

/-- The access of a store that raises nothing (R57), at either policy. -/
theorem memWrite_of_reaches {s : State} {w : Width} {a v : Word} (hc : s.reaches w a = true) :
    memWrite s w a v = .ok (s.storeBytes w (accessed w a) v) :=
  memWrite_eq_ok.mpr ⟨_, checkAccess_of_reaches hc, rfl⟩

/-- The access of a load that raises nothing (R56). -/
theorem loadValue_of_canAccess {s : State} {w : Width} {a v : Word} (hc : s.canAccess w a = true)
    (hv : s.loadBytes w a = some v) : loadValue s w a = .ok v := by
  have ha : alignedFor w a = true := by simp_all [State.canAccess]
  rw [loadValue_of_reaches (State.reaches_of_canAccess hc) (by rwa [accessed_of_aligned ha])]
  cases w
  · rfl
  · rfl
  · rw [rotateLoaded_of_aligned _ _ (by simpa [alignedFor] using ha)]

/-- The access of a store that raises nothing (R57). -/
theorem memWrite_of_canAccess {s : State} {w : Width} {a v : Word} (hc : s.canAccess w a = true) :
    memWrite s w a v = .ok (s.storeBytes w a v) := by
  rw [memWrite_of_reaches (State.reaches_of_canAccess hc), accessed_of_aligned (by simp_all [State.canAccess])]

/-- The checks of an access that is misaligned (R54). -/
theorem checkAccess_misaligned {s : State} {w : Width} {a : Word} (ha : alignedFor w a = false)
    (hp : s.params.misaligned = .fault) : checkAccess s w a = .raises .alignmentFault a := by
  cases w <;> simp_all [checkAccess, alignedAddress, alignedFor, Access.bind]

/-- The checks of an aligned access outside `MEMMAP` (R51). -/
theorem checkAccess_unmapped {s : State} {w : Width} {a : Word} (ha : alignedFor w a = true)
    (hm : allMapped s.params a w.bytes = false) : checkAccess s w a = .raises .dataAbort a := by
  have h := checkAccess_outside (.inl ha) (by rwa [accessed_of_aligned ha])
  rwa [accessed_of_aligned ha] at h

/-- The load of R224 when Rd is not 15. -/
theorem loadReg_done {w : Width} {ext : Word → Word} {rn rd : Reg} {m : Addressing} {st : State} {v : Word}
    (hpc : st.pc ≠ 0xFFFFFFFC#32) (hrd : rd ≠ 15#4) (hb : m.writeBack.isSome → rn ≠ 15#4 ∧ rn ≠ rd)
    (hv : loadValue st w m.adr = .ok v) :
    ∃ t, loadReg w ext rn rd m st = .next t ∧ st.loadDone t rn rd m (ext v) := by
  obtain ⟨adr, wb⟩ := m
  cases wb with
  | none =>
    refine ⟨(st.setReg rd (ext v)).setPc (st.pc + 4#32), ?_, ?_, ?_, ?_, ?_, ?_⟩
    · simp [loadReg, hv, Access.run, State.writeBack, writeResult, hrd, advance_of_ne, hpc]
    · simp
    · exact State.wroteRegs_congr (State.wroteRegs_setReg hrd rfl rfl) (by simp)
    · simp [State.keepsFlags]
    · simp [State.keepsSystem]
    · exact State.keepsMemory_of_eq (by simp) (by simp)
  | some b =>
    obtain ⟨hn, hne⟩ := hb rfl
    refine ⟨((st.setReg rn b).setReg rd (ext v)).setPc (st.pc + 4#32), ?_, ?_, ?_, ?_, ?_, ?_⟩
    · simp [loadReg, hv, Access.run, State.writeBack, writeResult, hrd, advance_of_ne, hpc]
    · simp
    · refine State.wroteRegs_congr (State.wroteRegs_cons hrd (by simp) (State.wroteRegs_setReg hn rfl rfl) ?_) (by simp)
      simp [hn, hne]
    · simp [State.keepsFlags]
    · simp [State.keepsSystem]
    · exact State.keepsMemory_of_eq (by simp) (by simp)

/-- The store of R224. -/
theorem storeValue_done {w : Width} {rn : Reg} {m : Addressing} {st : State} {v : Word} (hpc : st.pc ≠ 0xFFFFFFFC#32)
    (hb : m.writeBack.isSome → rn ≠ 15#4) (hc : st.reaches w m.adr = true) :
    ∃ t, storeValue w rn v m st = .next t ∧ st.storeDone t w rn v m := by
  obtain ⟨adr, wb⟩ := m
  have hbytes {s t : State} (h : t.mem = s.mem) (a : Word) : t.byteAt a = s.byteAt a := by simp [State.byteAt, h]
  have hload {s t : State} (h : t.mem = s.mem) : t.loadBytes w (accessed w adr) = s.loadBytes w (accessed w adr) := by
    cases w <;> simp [State.loadBytes, hbytes h]
  cases wb with
  | none =>
    refine ⟨(st.storeBytes w (accessed w adr) v).setPc (st.pc + 4#32), ?_, ?_, ?_, ?_, ?_, ?_, ?_, ?_⟩
    · simp [storeValue, memWrite_of_reaches hc, Access.run, State.writeBack, advance_of_ne, hpc]
    · simp
    · exact State.wroteRegs_nil (by simp)
    · simp [State.keepsFlags]
    · simp [State.keepsSystem]
    · rw [hload (s := st.storeBytes w (accessed w adr) v) (by simp), State.loadBytes_storeBytes]
    · exact fun b hb => by simp [State.mem_stored_storeBytes, hb]
    · intro b hb
      exact ⟨(hbytes (s := st.storeBytes w (accessed w adr) v) (by simp) b).trans (State.byteAt_storeBytes_of_out _ _ _ _ hb),
        by simp [State.mem_stored_storeBytes, hb]⟩
  | some x =>
    refine ⟨((st.storeBytes w (accessed w adr) v).setReg rn x).setPc (st.pc + 4#32), ?_, ?_, ?_, ?_, ?_, ?_, ?_, ?_⟩
    · simp [storeValue, memWrite_of_reaches hc, Access.run, State.writeBack, advance_of_ne, hpc]
    · simp
    · exact State.wroteRegs_congr (State.wroteRegs_setReg (u := st.storeBytes w (accessed w adr) v) (hb rfl) (by simp) (by simp)) (by simp)
    · simp [State.keepsFlags]
    · simp [State.keepsSystem]
    · rw [hload (s := st.storeBytes w (accessed w adr) v) (by simp), State.loadBytes_storeBytes]
    · exact fun b hb => by simp [State.mem_stored_storeBytes, hb]
    · intro b hb
      exact ⟨(hbytes (s := st.storeBytes w (accessed w adr) v) (by simp) b).trans (State.byteAt_storeBytes_of_out _ _ _ _ hb),
        by simp [State.mem_stored_storeBytes, hb]⟩

/-! ## Register lists -/

theorem mem_blockRegs {list : BitVec 16} {r : Reg} : r ∈ blockRegs list ↔ inList list r = true := by
  simp only [blockRegs, List.mem_map, List.mem_filter, List.mem_range, inList]
  constructor
  · rintro ⟨k, ⟨hk, hl⟩, rfl⟩
    rwa [BitVec.toNat_ofNat, Nat.mod_eq_of_lt (by omega)]
  · intro h
    exact ⟨r.toNat, ⟨r.isLt, h⟩, by simp⟩

end Sys2Proof.Machine
end

