-- ==== Sys2Proof/Laws/Fields.lean ====
section
/-! SUPPORT. Fields of a concatenation: what the encoder puts in, the decoder takes out. -/

namespace Sys2Proof

/-- A field inside the low part of a concatenation. -/
theorem extract_cat_low {m n k start len : Nat} (a : BitVec m) (b : BitVec n) (h : m + n = k) (hle : start + len ≤ n) :
    (cat a b h).extractLsb' start len = b.extractLsb' start len := by
  subst h; simp [cat, BitVec.extractLsb'_append_eq_of_add_le hle]

/-- A field inside the high part of a concatenation. -/
theorem extract_cat_high {m n k start len : Nat} (a : BitVec m) (b : BitVec n) (h : m + n = k) (hle : n ≤ start) :
    (cat a b h).extractLsb' start len = a.extractLsb' (start - n) len := by
  subst h; simp [cat, BitVec.extractLsb'_append_eq_of_le hle]

/-- A bit of the low part of a concatenation. -/
theorem bit_cat_low {m n k i : Nat} (a : BitVec m) (b : BitVec n) (h : m + n = k) (hi : i < n) :
    (cat a b h).getLsbD i = b.getLsbD i := by
  subst h; simp [cat, BitVec.getLsbD_append, hi]

/-- A bit of the high part of a concatenation. -/
theorem bit_cat_high {m n k i : Nat} (a : BitVec m) (b : BitVec n) (h : m + n = k) (hi : n ≤ i) :
    (cat a b h).getLsbD i = a.getLsbD (i - n) := by
  subst h; simp [cat, BitVec.getLsbD_append, Nat.not_lt.mpr hi]

/-- Every bit of a concatenation. -/
theorem bit_cat {m n k : Nat} (a : BitVec m) (b : BitVec n) (h : m + n = k) (i : Nat) :
    (cat a b h).getLsbD i = if i < n then b.getLsbD i else a.getLsbD (i - n) := by
  subst h; simp [cat, BitVec.getLsbD_append]

/-- A field of full width is the value itself. -/
@[simp] theorem extract_full {n : Nat} (a : BitVec n) : a.extractLsb' 0 n = a := BitVec.extractLsb'_eq_self

/-- A value is its two halves put together. -/
theorem cat_extract {k : Nat} (m n : Nat) (w : BitVec k) (h : m + n = k) :
    cat (w.extractLsb' n m) (w.extractLsb' 0 n) h = w := by
  apply BitVec.eq_of_getLsbD_eq
  intro i hi
  rw [bit_cat]
  split
  · next hn => simp [hn]
  · next hn =>
    have h1 : i - n < m := by omega
    have h2 : n + (i - n) = i := by omega
    simp [h1, h2]

theorem Cond.ofBits_bits (c : Cond) : Cond.ofBits c.bits = some c := by cases c <;> rfl

theorem Cond.bits_ofBits {v : BitVec 4} {c : Cond} (h : Cond.ofBits v = some c) : c.bits = v := by
  revert v c; decide

theorem ShiftType.ofBits_bits (sh : ShiftType) : ShiftType.ofBits sh.bits = sh := by cases sh <;> rfl

theorem ShiftType.bits_ofBits (v : BitVec 2) : (ShiftType.ofBits v).bits = v := by revert v; decide

/-- The four bytes of a word, put together again (R53). -/
theorem wordOfBytes_bytes (w : Word) :
    wordOfBytes (w.extractLsb' 0 8) (w.extractLsb' 8 8) (w.extractLsb' 16 8) (w.extractLsb' 24 8) = w := by
  apply BitVec.eq_of_getLsbD_eq
  intro i hi
  simp only [wordOfBytes, bit_cat, BitVec.getLsbD_extractLsb']
  split_ifs with h1 h2 h3
  · simp [h3]
  · simp [show i - 8 < 8 by omega, show 8 + (i - 8) = i by omega]
  · simp [show i - 16 < 8 by omega, show 16 + (i - 16) = i by omega]
  · simp [show i - 24 < 8 by omega, show 24 + (i - 24) = i by omega]

/-- A word decodes from its bytes as it does whole. -/
theorem decode_bytesOfWord (bit4 : Bool) (w : Word) (rest : List Byte) :
    decode bit4 (bytesOfWord w ++ rest) = .ok (decodeWord bit4 w, rest) := by
  simp [bytesOfWord, decode, wordOfBytes_bytes]

end Sys2Proof
end

