-- ==== Sys2Proof/Laws/Block.lean ====
section
/-! SUPPORT. The block transfers: their addresses, their registers and their bytes. -/

namespace Sys2Proof.Machine

/-- The addresses of two runs of registers, one after the other (R273). -/
theorem blockTransfers_append (a : Word) (l m : List Reg) :
    blockTransfers a (l ++ m) = blockTransfers a l ++ blockTransfers (a + BitVec.ofNat 32 (4 * l.length)) m := by
  induction l generalizing a with
  | nil => simp [blockTransfers]
  | cons r l ih =>
    simp only [List.cons_append, blockTransfers, ih, List.length_cons]
    congr 3
    rw [BitVec.add_assoc, ← BitVec.ofNat_add]
    congr 2
    omega

/-- Each listed register with its address, in ascending order (R273). -/
theorem blockPlan_eq (p u : Bool) (rn : Reg) (list : BitVec 16) (st : State) :
    blockPlan p u rn list st = (blockRegs list).map fun r => (r, blockAddress p u (st.reg rn) list r) := by
  have key : ∀ (a : Word) (n : Nat), n ≤ 16 →
      blockTransfers a (((List.range n).filter fun k => list.getLsbD k).map (BitVec.ofNat 4)) =
        (((List.range n).filter fun k => list.getLsbD k).map (BitVec.ofNat 4)).map fun r =>
          (r, a + BitVec.ofNat 32 (4 * blockRank list r)) := by
    intro a n hn
    induction n with
    | zero => simp [blockTransfers]
    | succ n ih =>
      rw [List.range_succ, List.filter_append, List.map_append, blockTransfers_append, ih (by omega), List.map_append]
      congr 1
      by_cases hb : list.getLsbD n = true
      · have : blockRank list (BitVec.ofNat 4 n) = ((List.range n).filter fun k => list.getLsbD k).length := by
          rw [blockRank, BitVec.toNat_ofNat, Nat.mod_eq_of_lt (by omega)]
        simp [hb, blockTransfers, this]
      · simp [hb, blockTransfers]
  exact key _ 16 (Nat.le_refl _)

/-- A listed register stands before every higher one (R273). -/
theorem blockRank_lt {list : BitVec 16} {q r : Reg} (hq : inList list q = true) (h : q.toNat < r.toNat) :
    blockRank list q < blockRank list r := by
  have : ((List.range (q.toNat + 1)).filter fun k => list.getLsbD k).length ≤ blockRank list r := by
    refine List.Sublist.length_le (List.Sublist.filter _ (List.range_sublist.mpr (by omega)))
  rw [List.range_succ, List.filter_append, List.length_append] at this
  simp only [inList] at hq
  simp [hq] at this
  exact this

/-- No register stands after the sixteenth place. -/
theorem blockRank_lt_16 (list : BitVec 16) (r : Reg) : blockRank list r < 16 := by
  have h := List.length_filter_le (fun k => list.getLsbD k) (List.range r.toNat)
  have := r.isLt
  simp only [List.length_range] at h
  unfold blockRank; omega

/-- Addresses that all answer raise nothing. -/
theorem checkBlock_ok {st : State} {l : List (Reg × Word)} (h : ∀ x ∈ l, st.reaches .word x.2 = true) :
    checkBlock st l = .ok (l.map fun x => (x.1, accessed .word x.2)) := by
  induction l with
  | nil => rfl
  | cons x l ih =>
    obtain ⟨r, a⟩ := x
    have ha : checkAccess st .word a = .ok (accessed .word a) :=
      checkAccess_of_reaches (h (r, a) (List.mem_cons_self ..))
    simp [checkBlock, ha, Access.bind, ih fun y hy => h y (List.mem_cons_of_mem _ hy)]

/-- Words that are all readable are all read. -/
theorem loadBlock_ok {st : State} {l : List (Reg × Word)} {v : Reg → Word}
    (h : ∀ x ∈ l, st.loadBytes .word x.2 = some (v x.1)) : loadBlock st l = .ok (l.map fun x => (x.1, v x.1)) := by
  induction l with
  | nil => rfl
  | cons x l ih =>
    obtain ⟨r, a⟩ := x
    have ha := loadChecked_eq_ok.mpr (h (r, a) (List.mem_cons_self ..))
    simp [loadBlock, ha, Access.bind, ih fun y hy => h y (List.mem_cons_of_mem _ hy)]

/-- Writing a list of registers of a bank changes no field but the registers. -/
@[simp] theorem setRegsIn_others (b : Bank) (l : List (Reg × Word)) (st : State) :
    (setRegsIn b l st).pc = st.pc ∧ (setRegsIn b l st).params = st.params ∧
    (setRegsIn b l st).cpsr = st.cpsr ∧ (setRegsIn b l st).spsr = st.spsr ∧
    (setRegsIn b l st).mem = st.mem ∧ (setRegsIn b l st).stored = st.stored ∧ (setRegsIn b l st).inputs = st.inputs ∧
    (setRegsIn b l st).hazard = st.hazard ∧ (setRegsIn b l st).freeCount = st.freeCount := by
  induction l generalizing st with
  | nil => simp [setRegsIn]
  | cons x l ih => simpa [setRegsIn] using ih (st.setRegIn b x.1 x.2)

/-- What a register holds after a list of registers is written: its listed value, or what it held. -/
theorem setRegsIn_get (b : Bank) (l : List (Reg × Word)) (v : Reg → Word) (st : State) (j : Fin 30)
   (hv : ∀ x ∈ l, x.2 = v x.1) :
    (setRegsIn b l st).regs.get j = 
     if h : ∃ x ∈ l, x.1 ≠ 15#4 ∧ j = slot b x.1 then v h.choose.1 else st.regs.get j := by
  induction l generalizing st with
  | nil => simp [setRegsIn]
  | cons x l ih =>
    simp only [setRegsIn]
    rw [ih _ fun y hy => hv y (List.mem_cons_of_mem _ hy), State.setRegIn_get]
    have hx := hv x (List.mem_cons_self ..)
    split
    · next h =>
      have h' : ∃ y ∈ x :: l, y.1 ≠ 15#4 ∧ j = slot b y.1 := by
        obtain ⟨y, hy, h1, h2⟩ := h; exact ⟨y, List.mem_cons_of_mem _ hy, h1, h2⟩
      rw [dif_pos h']
      have e1 := h.choose_spec; have e2 := h'.choose_spec
      congr 1
      exact slot_injective b e1.2.1 e2.2.1 (e1.2.2.symm.trans e2.2.2)
    · next h =>
      split
      · next hh => 
        have h' : ∃ y ∈ x :: l, y.1 ≠ 15#4 ∧ j = slot b y.1 := ⟨x, List.mem_cons_self .., hh.1, hh.2.symm⟩
        rw [dif_pos h', hx]
        have e2 := h'.choose_spec
        congr 1
        exact slot_injective b hh.1 e2.2.1 (hh.2.trans e2.2.2)
      · next hh =>
        rw [dif_neg]
        rintro ⟨y, hy, h1, h2⟩
        rcases List.mem_cons.mp hy with rfl | hy
        · exact hh ⟨h1, h2.symm⟩
        · exact h ⟨y, hy, h1, h2⟩

/-- The value read for the pc is the one the list gives register 15. -/
theorem loadedPc_map {v : Reg → Word} : ∀ {l : List Reg}, 15#4 ∈ l → loadedPc (l.map fun r => (r, v r)) = v 15#4
  | [], h => by cases h
  | r :: l, h => by
    simp only [List.map_cons, loadedPc]
    split
    · next hr => rw [hr]
    · next hr => exact loadedPc_map ((List.mem_cons.mp h).resolve_left (Ne.symm hr))

/-- The register list with the address each register's word is read from or stored to (R273, R55). -/
theorem checkBlock_blockPlan {p u rn list st} (hc : st.canAccessBlock p u (st.reg rn) list) :
    checkBlock st (blockPlan p u rn list st) =
      .ok ((blockRegs list).map fun r => (r, accessed .word (blockAddress p u (st.reg rn) list r))) := by
  rw [blockPlan_eq, checkBlock_ok]
  · simp [Function.comp_def]
  · intro x hx; obtain ⟨r, hr, rfl⟩ := List.mem_map.mp hx; exact hc r (mem_blockRegs.mp hr)

/-- A load multiple reads the word at the address of each listed register (R273, R274). -/
theorem loadBlock_blockPlan {p u rn list st v} (hc : st.canAccessBlock p u (st.reg rn) list)
    (hv : st.blockHolds p u (st.reg rn) list v) :
   (checkBlock st (blockPlan p u rn list st)).bind (loadBlock st) = .ok ((blockRegs list).map fun r => (r, v r)) := by
  rw [checkBlock_blockPlan hc, Access.bind, loadBlock_ok (v := v)]
  · simp [Function.comp_def]
  · intro x hx; obtain ⟨r, hr, rfl⟩ := List.mem_map.mp hx; exact hv r (mem_blockRegs.mp hr)

/-- A load of a list of words one of which was never wholly written is refused (R56 (3)). -/
theorem loadBlock_unwritten {st : State} {l : List (Reg × Word)} (h : ∃ x ∈ l, st.loadBytes .word x.2 = none) :
    loadBlock st l = .refuses .readUnwritten := by
  induction l with
  | nil => simp at h
  | cons x l ih =>
    obtain ⟨r, a⟩ := x
    cases hv : st.loadBytes .word a with
    | none => simp [loadBlock, loadChecked, hv, Access.bind]
    | some v =>
      have h' : ∃ x ∈ l, st.loadBytes .word x.2 = none := by
        obtain ⟨y, hy, hn⟩ := h
        rcases List.mem_cons.mp hy with rfl | hy
        · simp [hv] at hn
        · exact ⟨y, hy, hn⟩
      simp [loadBlock, loadChecked, hv, Access.bind, ih h']

/-- What a load multiple leaves in the registers, the base among them. -/
theorem ldmWroteRegs_blockBase {u : Bool} {rn : Reg} {list : BitVec 16} {st : State} {v : Reg → Word}
    {b : Bank} {w : Bool} (hn : rn ≠ 15#4) (hw : w = true → inList list rn = false)
    (hb : w = true → b = st.bank) :
    st.ldmWroteRegs
      (blockBase u w rn list (st.reg rn) (setRegsIn b ((blockRegs list).map fun r => (r, v r)) st)) b w rn list v (blockWriteBack u (st.reg rn) list) := by
  have hs := setRegsIn_get b ((blockRegs list).map fun r => (r, v r)) v st 
  have hbank : (setRegsIn b ((blockRegs list).map fun r => (r, v r)) st).bank = st.bank := by simp [State.bank, State.mode]
  refine ⟨fun r hr hl => ?_, ?_, fun j hj hj2 => ?_⟩
  · have h : ∃ x ∈ ((blockRegs list).map fun r => (r, v r)), x.1 ≠ 15#4 ∧ slot b r = slot b x.1 :=
      ⟨(r, v r), List.mem_map_of_mem (mem_blockRegs.mpr hl), hr, rfl⟩
    have e : (setRegsIn b ((blockRegs list).map fun r => (r, v r)) st).regs.get (slot b r) = v r := by
      rw [hs _ (by simp), dif_pos h]
      have := h.choose_spec
      exact congrArg v (slot_injective b hr this.2.1 this.2.2).symm
    unfold blockBase
    split
    · next hw' =>
      rw [State.setReg_get, if_neg, e]
      rintro ⟨_, h2⟩
      rw [hbank, ← hb hw'] at h2
      have := slot_injective b hn hr h2
      subst this
      simp [hw hw'] at hl
    · exact e
  · intro hw'; subst hw'
    simp [blockBase, State.setReg_get, hn, hbank]
  · have e : (setRegsIn b ((blockRegs list).map fun r => (r, v r)) st).regs.get j = st.regs.get j := by
      rw [hs _ (by simp), dif_neg]
      rintro ⟨x, hx, h1, h2⟩
      obtain ⟨r, hr, rfl⟩ := List.mem_map.mp hx
      exact hj r h1 (mem_blockRegs.mp hr) h2
    unfold blockBase
    split
    · next hw' =>
      rw [State.setReg_get, if_neg, e]
      rintro ⟨_, h2⟩
      rw [hbank] at h2
      exact hj2 hw' h2.symm
    · exact e

/-- The write-back of the base changes no field but the registers. -/
theorem blockBase_others (u w rn list base) (s : State) :
    (blockBase u w rn list base s).pc = s.pc ∧ (blockBase u w rn list base s).params = s.params ∧
    (blockBase u w rn list base s).cpsr = s.cpsr ∧ (blockBase u w rn list base s).spsr = s.spsr ∧
    (blockBase u w rn list base s).mem = s.mem ∧ (blockBase u w rn list base s).stored = s.stored ∧
    (blockBase u w rn list base s).inputs = s.inputs ∧ (blockBase u w rn list base s).hazard = s.hazard ∧
    (blockBase u w rn list base s).mode = s.mode := by
  unfold blockBase; split <;> simp

/-- A store multiple changes no field but the memory and the record of stores. -/
@[simp] theorem storeBlock_others (f : Reg → Word) (l : List (Reg × Word)) (st : State) :
    (storeBlock f l st).pc = st.pc ∧ (storeBlock f l st).params = st.params ∧
    (storeBlock f l st).cpsr = st.cpsr ∧ (storeBlock f l st).spsr = st.spsr ∧
    (storeBlock f l st).regs = st.regs ∧ (storeBlock f l st).inputs = st.inputs ∧
    (storeBlock f l st).hazard = st.hazard ∧ (storeBlock f l st).freeCount = st.freeCount := by
  induction l generalizing st with
  | nil => simp [storeBlock]
  | cons x l ih => simpa [storeBlock] using ih (st.storeBytes .word x.2 (f x.1))

/-- A read depends on the bytes of its access alone. -/
theorem loadBytes_congr {s t : State} {w : Width} {a : Word} (h : ∀ b, inAccess w a b = true → t.byteAt b = s.byteAt b) :
    t.loadBytes w a = s.loadBytes w a := by
  cases w <;> simp only [State.loadBytes] <;> simp [inAccess] at h <;> simp [h]

/-- A store multiple leaves every byte outside its words. -/
theorem storeBlock_out (f : Reg → Word) (l : List (Reg × Word)) (st : State) (b : Word)
    (h : ∀ x ∈ l, inAccess .word x.2 b = false) :
    (storeBlock f l st).byteAt b = st.byteAt b ∧ (b.toNat ∈ (storeBlock f l st).stored ↔ b.toNat ∈ st.stored) := by
  induction l generalizing st with
  | nil => simp [storeBlock]
  | cons x l ih =>
    simp only [storeBlock]
    have h1 := ih (st.storeBytes .word x.2 (f x.1)) fun y hy => h y (List.mem_cons_of_mem _ hy)
    have hx := h x (List.mem_cons_self ..)
    rw [h1.1, h1.2, State.byteAt_storeBytes_of_out _ _ _ _ hx, State.mem_stored_storeBytes]
    simp [hx]

/-- Every byte of a store multiple, and every one stored to before, counts as stored to (R65). -/
theorem mem_stored_storeBlock (f : Reg → Word) (l : List (Reg × Word)) (st : State) (b : Word) :
    b.toNat ∈ (storeBlock f l st).stored ↔ (∃ x ∈ l, inAccess .word x.2 b = true) ∨ b.toNat ∈ st.stored := by
  induction l generalizing st with
  | nil => simp [storeBlock]
  | cons x l ih =>
    simp only [storeBlock, ih, State.mem_stored_storeBytes, List.mem_cons, exists_eq_or_imp]
    exact or_assoc.symm.trans (or_congr_left or_comm)

/-- A store multiple whose words do not overlap leaves each register’s value at its address. -/
theorem storeBlock_load (f : Reg → Word) (l : List (Reg × Word)) (st : State)
    (hp : l.Pairwise fun x y => ∀ b, inAccess .word x.2 b = true → inAccess .word y.2 b = false) :
    ∀ x ∈ l, (storeBlock f l st).loadBytes .word x.2 = some (narrow .word (f x.1)) := by
  induction l generalizing st with
  | nil => simp
  | cons y l ih =>
    intro x hx
    rw [List.pairwise_cons] at hp
    simp only [storeBlock]
    rcases List.mem_cons.mp hx with rfl | hx
    · rw [loadBytes_congr fun b hb => (storeBlock_out f l _ b fun z hz => hp.1 z hz b hb).1, State.loadBytes_storeBytes]
    · exact ih _ hp.2 x hx

/-- A word access keeps the whole word. -/
theorem narrow_word (v : Word) : narrow .word v = v := wordOfBytes_bytes v

/-- The listed registers stand in ascending order (R273). -/
theorem blockRegs_pairwise (list : BitVec 16) : (blockRegs list).Pairwise fun q r => q.toNat < r.toNat := by
  unfold blockRegs
  rw [List.pairwise_map]
  have h : ((List.range 16).filter fun k => list.getLsbD k).Pairwise (fun a b => a < b) :=
    List.Pairwise.filter _ List.pairwise_lt_range
  refine h.imp_of_mem fun {a b} ha hb hab => ?_
  have h1 : a < 16 := List.mem_range.mp (List.mem_filter.mp ha).1
  have h2 : b < 16 := List.mem_range.mp (List.mem_filter.mp hb).1
  simp [BitVec.toNat_ofNat]; omega

/-- The address accessed for a listed register, from the lowest one accessed (R273, R55). -/
theorem accessed_blockAddress (p u : Bool) (base : Word) (list : BitVec 16) (r : Reg) :
    accessed .word (blockAddress p u base list r) =
      accessed .word (blockStart p u base list) + BitVec.ofNat 32 (4 * blockRank list r) :=
  alignDown_add _ _

/-- The words of a block transfer do not overlap (R273). -/
theorem blockTransfers_disjoint (p u : Bool) (base : Word) (list : BitVec 16) :
   ((blockRegs list).map fun r => (r, accessed .word (blockAddress p u base list r))).Pairwise
      fun x y => ∀ b, inAccess .word x.2 b = true → inAccess .word y.2 b = false := by
  rw [List.pairwise_map]
  refine (blockRegs_pairwise list).imp_of_mem fun {q r} hq hr hqr b hb => ?_
  have hlt := blockRank_lt (mem_blockRegs.mp hq) hqr
  have h16 := blockRank_lt_16 list r
  simp only [inAccess, Bool.or_eq_true, decide_eq_true_eq, Bool.or_eq_false_iff, decide_eq_false_iff_not] at hb ⊢
  simp only [accessed_blockAddress] at hb ⊢
  generalize blockRank list q = m at *
  generalize blockRank list r = n at *
  generalize accessed .word (blockStart p u base list) = s at *
  have f : ∀ m n c d : Nat, m < n → n < 16 → c < 4 → d < 4 →
      s + BitVec.ofNat 32 (4*m) + BitVec.ofNat 32 c ≠ s + BitVec.ofNat 32 (4*n) + BitVec.ofNat 32 d := by
    intro m n c d h1 h2 h3 h4 h
    rw [BitVec.add_assoc, BitVec.add_assoc] at h
    have h := (BitVec.add_right_inj s).mp h
    have := congrArg BitVec.toNat h; simp at this; omega
  have g := fun c d hc hd => f m n c d hlt h16 hc hd
  rcases hb with ((rfl | rfl) | rfl) | rfl
  · exact ⟨⟨⟨by simpa using g 0 0, by simpa using g 0 1⟩, by simpa using g 0 2⟩, by simpa using g 0 3⟩
  · exact ⟨⟨⟨by simpa using g 1 0, by simpa using g 1 1⟩, by simpa using g 1 2⟩, by simpa using g 1 3⟩
  · exact ⟨⟨⟨by simpa using g 2 0, by simpa using g 2 1⟩, by simpa using g 2 2⟩, by simpa using g 2 3⟩
  · exact ⟨⟨⟨by simpa using g 3 0, by simpa using g 3 1⟩, by simpa using g 3 2⟩, by simpa using g 3 3⟩

/-- The lowest listed register is the one with rank 0. -/
theorem blockRegs_head_iff {list : BitVec 16} {r : Reg} (h : inList list r = true) :
    (blockRegs list).head? = some r ↔ blockRank list r = 0 := by
  have pw := blockRegs_pairwise list
  have hm := mem_blockRegs.mpr h
  have m0 : ∀ q ∈ blockRegs list, inList list q = true := fun q hq => mem_blockRegs.mp hq
  constructor
  · intro hh
    by_contra hne
    have : 0 < ((List.range r.toNat).filter fun k => list.getLsbD k).length := Nat.pos_of_ne_zero hne
    obtain ⟨k, hk⟩ := List.exists_mem_of_length_pos this
    have hk' := List.mem_filter.mp hk
    have hkr := List.mem_range.mp hk'.1
    have hr := r.isLt
    have hq : inList list (BitVec.ofNat 4 k) = true := by
      simp only [inList, BitVec.toNat_ofNat]; rw [Nat.mod_eq_of_lt (by omega)]; exact hk'.2
    have hq' := mem_blockRegs.mpr hq
    cases hl : blockRegs list with
    | nil => rw [hl] at hm; cases hm
    | cons x l =>
      rw [hl] at hh hq' pw; simp at hh; subst hh
      rw [List.pairwise_cons] at pw
      rcases List.mem_cons.mp hq' with e | e
      · have := congrArg BitVec.toNat e; simp at this; omega
      · have := pw.1 _ e; simp at this; omega
  · intro h0
    cases hl : blockRegs list with
    | nil => rw [hl] at hm; cases hm
    | cons x l =>
      rw [hl] at hm pw
      rw [List.pairwise_cons] at pw
      rcases List.mem_cons.mp hm with e | e
      · rw [e]; rfl
      · have hx := blockRank_lt (m0 x (by rw [hl]; exact List.mem_cons_self ..)) (pw.1 _ e)
        omega

end Sys2Proof.Machine
end

