-- ==== Sys2Proof/Laws/PerInstr.lean ====
section
/-! SUPPORT. What holds of each instruction, one lemma per constructor: bits 31:28 of its word are its condition field
(R300). -/

namespace Sys2Proof.Laws.CondField

/-- Bits 31:28 of the word of `i` are its condition field, 1111 for the reserved words that have no condition (R112, R300). -/
def Statement (i : Instr) : Prop := ∀ bit4 : Bool, (encodeWord bit4 i).extractLsb' 28 4 = i.condBits

/-- The condition field of any word the encoder writes. -/
theorem of_encode (i : Instr) : Statement i := fun _ => by
  rw [encodeWord, extract_cat_high _ _ _ (by decide)]; simp

theorem reservedCond1111 (w : BitVec 28) :
    Statement (.reservedCond1111 w) :=
  of_encode _

theorem nop (c : Cond) :
    Statement (.nop c) :=
  of_encode _

theorem mul (c : Cond) (s : Bool) (rd : Reg) (sbz : BitVec 4) (rm rn : Reg) :
    Statement (.mul c s rd sbz rm rn) :=
  of_encode _

theorem mla (c : Cond) (s : Bool) (rd ra rm rn : Reg) :
    Statement (.mla c s rd ra rm rn) :=
  of_encode _

theorem umull (c : Cond) (s : Bool) (rd ra rm rn : Reg) :
    Statement (.umull c s rd ra rm rn) :=
  of_encode _

theorem umlal (c : Cond) (s : Bool) (rd ra rm rn : Reg) :
    Statement (.umlal c s rd ra rm rn) :=
  of_encode _

theorem smull (c : Cond) (s : Bool) (rd ra rm rn : Reg) :
    Statement (.smull c s rd ra rm rn) :=
  of_encode _

theorem smlal (c : Cond) (s : Bool) (rd ra rm rn : Reg) :
    Statement (.smlal c s rd ra rm rn) :=
  of_encode _

theorem reservedMultiplyCmd (c : Cond) (w : BitVec 28) :
    Statement (.reservedMultiplyCmd c w) :=
  of_encode _

theorem swp (c : Cond) (rn rd : Reg) (sbz : BitVec 4) (rm : Reg) :
    Statement (.swp c rn rd sbz rm) :=
  of_encode _

theorem swpb (c : Cond) (rn rd : Reg) (sbz : BitVec 4) (rm : Reg) :
    Statement (.swpb c rn rd sbz rm) :=
  of_encode _

theorem reservedOp001001 (c : Cond) (w : BitVec 28) :
    Statement (.reservedOp001001 c w) :=
  of_encode _

theorem strh (c : Cond) (idx : ExtraIndex) (u : Bool) (rn rd : Reg) (off : ExtraOffset) :
    Statement (.strh c idx u rn rd off) :=
  of_encode _

theorem ldrh (c : Cond) (idx : ExtraIndex) (u : Bool) (rn rd : Reg) (off : ExtraOffset) :
    Statement (.ldrh c idx u rn rd off) :=
  of_encode _

theorem ldrsb (c : Cond) (idx : ExtraIndex) (u : Bool) (rn rd : Reg) (off : ExtraOffset) :
    Statement (.ldrsb c idx u rn rd off) :=
  of_encode _

theorem ldrsh (c : Cond) (idx : ExtraIndex) (u : Bool) (rn rd : Reg) (off : ExtraOffset) :
    Statement (.ldrsh c idx u rn rd off) :=
  of_encode _

theorem reservedExtraStoreSigned (c : Cond) (w : BitVec 28) :
    Statement (.reservedExtraStoreSigned c w) :=
  of_encode _

theorem mrs (c : Cond) (r : Bool) (sbo : BitVec 4) (rd : Reg) (sbzHi sbzLo : BitVec 4) :
    Statement (.mrs c r sbo rd sbzHi sbzLo) :=
  of_encode _

theorem msr (c : Cond) (r : Bool) (fieldMask : BitVec 4) (sbo : BitVec 4) (operand : MsrOperand) :
    Statement (.msr c r fieldMask sbo operand) :=
  of_encode _

theorem reservedDpCompareS0 (c : Cond) (w : BitVec 28) :
    Statement (.reservedDpCompareS0 c w) :=
  of_encode _

theorem and (c : Cond) (s : Bool) (rn rd : Reg) (op2 : Src2) :
    Statement (.and c s rn rd op2) :=
  of_encode _

theorem eor (c : Cond) (s : Bool) (rn rd : Reg) (op2 : Src2) :
    Statement (.eor c s rn rd op2) :=
  of_encode _

theorem sub (c : Cond) (s : Bool) (rn rd : Reg) (op2 : Src2) :
    Statement (.sub c s rn rd op2) :=
  of_encode _

theorem rsb (c : Cond) (s : Bool) (rn rd : Reg) (op2 : Src2) :
    Statement (.rsb c s rn rd op2) :=
  of_encode _

theorem add (c : Cond) (s : Bool) (rn rd : Reg) (op2 : Src2) :
    Statement (.add c s rn rd op2) :=
  of_encode _

theorem adc (c : Cond) (s : Bool) (rn rd : Reg) (op2 : Src2) :
    Statement (.adc c s rn rd op2) :=
  of_encode _

theorem sbc (c : Cond) (s : Bool) (rn rd : Reg) (op2 : Src2) :
    Statement (.sbc c s rn rd op2) :=
  of_encode _

theorem rsc (c : Cond) (s : Bool) (rn rd : Reg) (op2 : Src2) :
    Statement (.rsc c s rn rd op2) :=
  of_encode _

theorem tst (c : Cond) (rn : Reg) (sbz : BitVec 4) (op2 : Src2) :
    Statement (.tst c rn sbz op2) :=
  of_encode _

theorem teq (c : Cond) (rn : Reg) (sbz : BitVec 4) (op2 : Src2) :
    Statement (.teq c rn sbz op2) :=
  of_encode _

theorem cmp (c : Cond) (rn : Reg) (sbz : BitVec 4) (op2 : Src2) :
    Statement (.cmp c rn sbz op2) :=
  of_encode _

theorem cmn (c : Cond) (rn : Reg) (sbz : BitVec 4) (op2 : Src2) :
    Statement (.cmn c rn sbz op2) :=
  of_encode _

theorem orr (c : Cond) (s : Bool) (rn rd : Reg) (op2 : Src2) :
    Statement (.orr c s rn rd op2) :=
  of_encode _

theorem bic (c : Cond) (s : Bool) (rn rd : Reg) (op2 : Src2) :
    Statement (.bic c s rn rd op2) :=
  of_encode _

theorem mvn (c : Cond) (s : Bool) (sbz : BitVec 4) (rd : Reg) (op2 : Src2) :
    Statement (.mvn c s sbz rd op2) :=
  of_encode _

theorem mov (c : Cond) (s : Bool) (sbz : BitVec 4) (rd : Reg) (src : MovSrc) :
    Statement (.mov c s sbz rd src) :=
  of_encode _

theorem lsl (c : Cond) (s : Bool) (sbz : BitVec 4) (rd : Reg) (amt : ShiftAmount) (rm : Reg) :
    Statement (.lsl c s sbz rd amt rm) :=
  of_encode _

theorem lsr (c : Cond) (s : Bool) (sbz : BitVec 4) (rd : Reg) (amt : ShiftAmount) (rm : Reg) :
    Statement (.lsr c s sbz rd amt rm) :=
  of_encode _

theorem asr (c : Cond) (s : Bool) (sbz : BitVec 4) (rd : Reg) (amt : ShiftAmount) (rm : Reg) :
    Statement (.asr c s sbz rd amt rm) :=
  of_encode _

theorem rrx (c : Cond) (s : Bool) (sbz : BitVec 4) (rd rm : Reg) :
    Statement (.rrx c s sbz rd rm) :=
  of_encode _

theorem ror (c : Cond) (s : Bool) (sbz : BitVec 4) (rd : Reg) (amt : ShiftAmount) (rm : Reg) :
    Statement (.ror c s sbz rd amt rm) :=
  of_encode _

theorem reservedUndefinedSpace (c : Cond) (w : BitVec 28) :
    Statement (.reservedUndefinedSpace c w) :=
  of_encode _

theorem strt (c : Cond) (u : Bool) (rn rd : Reg) (off : MemOffset) :
    Statement (.strt c u rn rd off) :=
  of_encode _

theorem str (c : Cond) (idx : Index) (u : Bool) (rn rd : Reg) (off : MemOffset) :
    Statement (.str c idx u rn rd off) :=
  of_encode _

theorem ldrt (c : Cond) (u : Bool) (rn rd : Reg) (off : MemOffset) :
    Statement (.ldrt c u rn rd off) :=
  of_encode _

theorem ldr (c : Cond) (idx : Index) (u : Bool) (rn rd : Reg) (off : MemOffset) :
    Statement (.ldr c idx u rn rd off) :=
  of_encode _

theorem strbt (c : Cond) (u : Bool) (rn rd : Reg) (off : MemOffset) :
    Statement (.strbt c u rn rd off) :=
  of_encode _

theorem strb (c : Cond) (idx : Index) (u : Bool) (rn rd : Reg) (off : MemOffset) :
    Statement (.strb c idx u rn rd off) :=
  of_encode _

theorem ldrbt (c : Cond) (u : Bool) (rn rd : Reg) (off : MemOffset) :
    Statement (.ldrbt c u rn rd off) :=
  of_encode _

theorem ldrb (c : Cond) (idx : Index) (u : Bool) (rn rd : Reg) (off : MemOffset) :
    Statement (.ldrb c idx u rn rd off) :=
  of_encode _

theorem b (c : Cond) (imm24 : BitVec 24) :
    Statement (.b c imm24) :=
  of_encode _

theorem bl (c : Cond) (imm24 : BitVec 24) :
    Statement (.bl c imm24) :=
  of_encode _

theorem stm (c : Cond) (p u s w : Bool) (rn : Reg) (list : BitVec 16) :
    Statement (.stm c p u s w rn list) :=
  of_encode _

theorem ldm (c : Cond) (p u s w : Bool) (rn : Reg) (list : BitVec 16) :
    Statement (.ldm c p u s w rn list) :=
  of_encode _

theorem stc (c : Cond) (p u n w : Bool) (rn crd cp : BitVec 4) (imm8 : BitVec 8) :
    Statement (.stc c p u n w rn crd cp imm8) :=
  of_encode _

theorem ldc (c : Cond) (p u n w : Bool) (rn crd cp : BitVec 4) (imm8 : BitVec 8) :
    Statement (.ldc c p u n w rn crd cp imm8) :=
  of_encode _

theorem cdp (c : Cond) (opc1 crn crd cp : BitVec 4) (opc2 : BitVec 3) (crm : BitVec 4) :
    Statement (.cdp c opc1 crn crd cp opc2 crm) :=
  of_encode _

theorem mcr (c : Cond) (opc1 : BitVec 3) (crn : BitVec 4) (rd : Reg) (cp : BitVec 4) (opc2 : BitVec 3) (crm : BitVec 4) :
    Statement (.mcr c opc1 crn rd cp opc2 crm) :=
  of_encode _

theorem mrc (c : Cond) (opc1 : BitVec 3) (crn : BitVec 4) (rd : Reg) (cp : BitVec 4) (opc2 : BitVec 3) (crm : BitVec 4) :
    Statement (.mrc c opc1 crn rd cp opc2 crm) :=
  of_encode _

theorem swi (c : Cond) (imm24 : BitVec 24) :
    Statement (.swi c imm24) :=
  of_encode _

end Sys2Proof.Laws.CondField
end

