-- ==== Sys2Proof/Tests/Slice0.lean ====
section
/-! SUPPORT. Tests: the checks of well-formedness, words written out from the encodings, one step each of the vectors of
95_test_vectors.md (V<n> is the vector) and of the profile S rules, and a witness for the hypotheses of every statement. -/

namespace Sys2Proof.Tests
open Sys2Proof Sys2Proof.Machine

/-! ## Well-formedness: one ill-formed term for each check -/

/-- Refused by `Instr.canonical` and by `Instr.fieldsOk`, under `MEM_REG_BIT4 = 0`. -/
def noEncoding (i : Instr) : Bool := !i.canonical false && i.fieldsOk && !i.wellFormed false
def badField (i : Instr) : Bool := i.canonical false && !i.fieldsOk && !i.wellFormed false

theorem test_wellFormed_lsl_zero : (noEncoding (.lsl .al false 0 0 (.imm 0) 1)) = true := by decide
theorem test_wellFormed_ror_zero : (noEncoding (.ror .al false 0 0 (.imm 0) 1)) = true := by decide
theorem test_wellFormed_mov_nop : (noEncoding (.mov .al false 0 0 (.reg 0))) = true := by decide
theorem test_wellFormed_multiply_cmd : (noEncoding (.reservedMultiplyCmd .al 0x0800291)) = true := by decide
theorem test_wellFormed_op00_1001 : (noEncoding (.reservedOp001001 .al 0x1000091)) = true := by decide
theorem test_wellFormed_extra_store_signed : (noEncoding (.reservedExtraStoreSigned .al 0x1D100F0)) = true := by decide
theorem test_wellFormed_dp_compare_S0 : (noEncoding (.reservedDpCompareS0 .al 0x10F0000) && noEncoding (.reservedDpCompareS0 .al 0x328F20F)) = true := by decide
theorem test_wellFormed_undefined_space : (noEncoding (.reservedUndefinedSpace .al 0x7910002)) = true := by decide
theorem test_wellFormed_mul : (badField (.mul .al false 0 3 2 1)) = true := by decide
theorem test_wellFormed_swp : (badField (.swp .al 2 0 1 1) && badField (.swpb .al 2 0 1 1)) = true := by decide
theorem test_wellFormed_extra : (badField (.strh .al (.mode .offset) true 1 0 (.reg 1 2)) && badField (.ldrh .al (.mode .offset) true 1 0 (.reg 1 2)) &&
    badField (.ldrsb .al (.mode .offset) true 1 0 (.reg 1 2)) && badField (.ldrsh .al (.mode .offset) true 1 0 (.reg 1 2))) = true := by decide
theorem test_wellFormed_mrs : (badField (.mrs .al false 0 0 0 0) && badField (.mrs .al false 15 0 1 0) && badField (.mrs .al false 15 0 0 1)) = true := by decide
theorem test_wellFormed_msr : (badField (.msr .al false 8 0 (.imm 2 15)) && badField (.msr .al false 8 15 (.reg 1 0))) = true := by decide
theorem test_wellFormed_compare : (badField (.tst .al 1 1 (.imm 0 0)) && badField (.teq .al 1 1 (.imm 0 0)) && badField (.cmp .al 1 1 (.imm 0 0)) &&
    badField (.cmn .al 1 1 (.imm 0 0))) = true := by decide
theorem test_wellFormed_move : (badField (.mvn .al false 1 0 (.imm 0 0)) && badField (.mov .al false 1 0 (.reg 0)) && badField (.lsl .al false 1 0 (.imm 1) 0) &&
    badField (.lsr .al false 1 0 (.imm 1) 0) && badField (.asr .al false 1 0 (.imm 1) 0) && badField (.rrx .al false 1 0 0) &&
    badField (.ror .al false 1 0 (.imm 1) 0)) = true := by decide

/-! ## Decoding: each word written out field by field from the tables of 30_encoding.md; and its encoding -/

def spells (w : Word) (i : Instr) : Bool := decodeWord false w = i && encodeWord false i = w && i.canonical false

theorem test_decode_reservedCond1111 : spells 0b1111_0001101000000000000000000000 (.reservedCond1111 0x1A00000) = true := by decide
theorem test_decode_nop : spells 0b1110_00_0_1101_0_0000_0000_00000_00_0_0000 (.nop .al) = true := by decide
theorem test_decode_mul : spells 0b1110_00_0000_0_1_0000_0000_0010_1001_0001 (.mul .al true 0 0 2 1) = true := by decide
theorem test_decode_mla : spells 0b1110_00_0000_1_1_0000_0011_0010_1001_0001 (.mla .al true 0 3 2 1) = true := by decide
theorem test_decode_umull : spells 0b1110_00_0010_0_1_0001_0000_0011_1001_0010 (.umull .al true 1 0 3 2) = true := by decide
theorem test_decode_umlal : spells 0b1110_00_0010_1_0_0001_0000_0011_1001_0010 (.umlal .al false 1 0 3 2) = true := by decide
theorem test_decode_smull : spells 0b1110_00_0011_0_1_0001_0000_0011_1001_0010 (.smull .al true 1 0 3 2) = true := by decide
theorem test_decode_smlal : spells 0b1110_00_0011_1_0_0001_0000_0011_1001_0010 (.smlal .al false 1 0 3 2) = true := by decide
theorem test_decode_reservedMultiplyCmd : spells 0b1110_00_0001_1_0_0000_0000_0010_1001_0001 (.reservedMultiplyCmd .al 0x0600291) = true := by decide
theorem test_decode_swp : spells 0b1110_00010_0_00_0010_0000_0000_1001_0001 (.swp .al 2 0 0 1) = true := by decide
theorem test_decode_swpb : spells 0b1110_00010_1_00_0010_0000_0000_1001_0001 (.swpb .al 2 0 0 1) = true := by decide
theorem test_decode_reservedOp001001 : spells 0b1110_00_010010_0000_0000_0000_1001_0001 (.reservedOp001001 .al 0x1200091) = true := by decide
theorem test_decode_strh : spells 0b1110_000_1_1_1_0_0_0001_0000_0000_1_01_1_0010 (.strh .al (.mode .offset) true 1 0 (.imm 2)) = true := by decide
theorem test_decode_ldrh : spells 0b1110_000_0_1_0_0_1_0001_0000_0000_1_01_1_0010 (.ldrh .al (.mode .post) true 1 0 (.reg 0 2)) = true := by decide
theorem test_decode_ldrh_imm : spells 0b1110_000_1_1_1_0_1_0001_0000_1111_1_01_1_1111 (.ldrh .al (.mode .offset) true 1 0 (.imm 0xFF)) = true := by decide
theorem test_decode_ldrsb : spells 0b1110_000_1_1_1_0_1_0001_0000_0000_1_10_1_0001 (.ldrsb .al (.mode .offset) true 1 0 (.imm 1)) = true := by decide
theorem test_decode_ldrsh : spells 0b1110_000_1_0_1_1_1_0001_0000_0000_1_11_1_0010 (.ldrsh .al (.mode .pre) false 1 0 (.imm 2)) = true := by decide
theorem test_decode_reservedExtraStoreSigned : spells 0b1110_000_1_1_1_0_0_0001_0000_0000_1_11_1_0000 (.reservedExtraStoreSigned .al 0x1C100F0) = true := by decide
theorem test_decode_mrs : spells 0b1110_00010_1_00_1111_0000_0000_0000_0000 (.mrs .al true 15 0 0 0) = true := by decide
theorem test_decode_msr : spells 0b1110_00010_0_10_1001_1111_0000_0000_0000 (.msr .al false 9 15 (.reg 0 0)) = true := by decide
theorem test_decode_msr_imm : spells 0b1110_00110_0_10_1000_1111_0010_00001111 (.msr .al false 8 15 (.imm 2 15)) = true := by decide
theorem test_decode_reservedDpCompareS0 : spells 0b1110_00_0_1001_0_1111_1111_1111_0001_1110 (.reservedDpCompareS0 .al 0x12FFF1E) = true := by decide
theorem test_decode_and : spells 0b1110_00_1_0000_1_0100_0011_0100_11111111 (.and .al true 4 3 (.imm 4 0xFF)) = true := by decide
theorem test_decode_eor : spells 0b1110_00_0_0001_1_0101_0101_00000_00_0_0101 (.eor .al true 5 5 (.shiftImm .lsl 0 5)) = true := by decide
theorem test_decode_sub : spells 0b1110_00_1_0010_1_0001_0000_0000_00000001 (.sub .al true 1 0 (.imm 0 1)) = true := by decide
theorem test_decode_rsb : spells 0b1110_00_1_0011_0_0001_0000_0000_00000000 (.rsb .al false 1 0 (.imm 0 0)) = true := by decide
theorem test_decode_add : spells 0b0000_00_1_0100_0_0000_0000_0000_00000001 (.add .eq false 0 0 (.imm 0 1)) = true := by decide
theorem test_decode_add_reg : spells 0b1110_00_0_0100_0_0001_0000_0011_0_00_1_0010 (.add .al false 1 0 (.shiftReg .lsl 3 2)) = true := by decide
theorem test_decode_adc : spells 0b1110_00_0_0101_1_0001_0000_00000_00_0_0010 (.adc .al true 1 0 (.shiftImm .lsl 0 2)) = true := by decide
theorem test_decode_sbc : spells 0b1110_00_0_0110_1_0001_0000_00000_00_0_0010 (.sbc .al true 1 0 (.shiftImm .lsl 0 2)) = true := by decide
theorem test_decode_rsc : spells 0b1110_00_1_0111_1_0001_0000_0000_00000000 (.rsc .al true 1 0 (.imm 0 0)) = true := by decide
theorem test_decode_tst : spells 0b1110_00_1_1000_1_0001_0000_0001_00000010 (.tst .al 1 0 (.imm 1 2)) = true := by decide
theorem test_decode_teq : spells 0b1110_00_0_1001_1_0001_0000_00001_01_0_0010 (.teq .al 1 0 (.shiftImm .lsr 1 2)) = true := by decide
theorem test_decode_cmp : spells 0b1110_00_0_1010_1_0001_0001_00000_00_0_0010 (.cmp .al 1 1 (.shiftImm .lsl 0 2)) = true := by decide
theorem test_decode_cmn : spells 0b1110_00_1_1011_1_0001_0000_0000_00000001 (.cmn .al 1 0 (.imm 0 1)) = true := by decide
theorem test_decode_orr : spells 0b1110_00_0_1100_1_0001_0000_11111_00_0_0010 (.orr .al true 1 0 (.shiftImm .lsl 31 2)) = true := by decide
theorem test_decode_bic : spells 0b1110_00_1_1110_0_0001_0000_0000_11111111 (.bic .al false 1 0 (.imm 0 0xFF)) = true := by decide
theorem test_decode_mvn : spells 0b1110_00_0_1111_1_0000_0000_00100_01_0_0010 (.mvn .al true 0 0 (.shiftImm .lsr 4 2)) = true := by decide
theorem test_decode_mov : spells 0b1110_00_0_1101_1_0000_1111_00000_00_0_1110 (.mov .al true 0 15 (.reg 14)) = true := by decide
theorem test_decode_mov_imm : spells 0b1110_00_1_1101_0_0000_0000_1100_11111111 (.mov .al false 0 0 (.imm 12 0xFF)) = true := by decide
theorem test_decode_lsl : spells 0b1110_00_0_1101_0_0000_0000_0000_0_00_1_0001 (.lsl .al false 0 0 (.reg 0) 1) = true := by decide
theorem test_decode_lsr : spells 0b1110_00_0_1101_0_0000_0000_00000_01_0_0001 (.lsr .al false 0 0 (.imm 0) 1) = true := by decide
theorem test_decode_asr : spells 0b1110_00_0_1101_1_0000_0000_0010_0_10_1_0001 (.asr .al true 0 0 (.reg 2) 1) = true := by decide
theorem test_decode_rrx : spells 0b1110_00_0_1101_1_0000_0000_00000_11_0_0001 (.rrx .al true 0 0 1) = true := by decide
theorem test_decode_ror : spells 0b1110_00_0_1101_0_0000_0000_0000_0_11_1_0001 (.ror .al false 0 0 (.reg 0) 1) = true := by decide
theorem test_decode_ror_imm : spells 0b1110_00_0_1101_1_0000_0000_00001_11_0_0001 (.ror .al true 0 0 (.imm 1) 1) = true := by decide
theorem test_decode_reservedUndefinedSpace : spells 0b1110_01_1_1_1_0_0_1_0001_0000_00000_00_1_0010 (.reservedUndefinedSpace .al 0x7910012) = true := by decide
theorem test_decode_strt : spells 0b1110_01_0_0_1_0_1_0_0001_0000_000000000100 (.strt .al true 1 0 (.imm 4)) = true := by decide
theorem test_decode_str : spells 0b1110_01_1_0_0_0_0_0_0001_0000_00000_00_0_0010 (.str .al .post false 1 0 (.reg .lsl 0 2)) = true := by decide
theorem test_decode_ldrt : spells 0b1110_01_0_0_1_0_1_1_0001_0000_000000000100 (.ldrt .al true 1 0 (.imm 4)) = true := by decide
theorem test_decode_ldr : spells 0b1110_01_1_1_0_0_0_1_0001_0000_00001_01_0_0010 (.ldr .al .offset false 1 0 (.reg .lsr 1 2)) = true := by decide
theorem test_decode_ldr_pre : spells 0b1110_01_0_1_1_0_1_1_0001_0000_000000000100 (.ldr .al .pre true 1 0 (.imm 4)) = true := by decide
theorem test_decode_strbt : spells 0b1110_01_0_0_1_1_1_0_0001_0000_000000000001 (.strbt .al true 1 0 (.imm 1)) = true := by decide
theorem test_decode_strb : spells 0b1110_01_0_1_1_1_0_0_0001_0000_000000000001 (.strb .al .offset true 1 0 (.imm 1)) = true := by decide
theorem test_decode_ldrbt : spells 0b1110_01_0_0_1_1_1_1_0001_0000_000000000001 (.ldrbt .al true 1 0 (.imm 1)) = true := by decide
theorem test_decode_ldrb : spells 0b1110_01_0_1_1_1_0_1_0001_0000_000000000011 (.ldrb .al .offset true 1 0 (.imm 3)) = true := by decide
theorem test_decode_b : spells 0b0000_10_1_0_000000000000000000000010 (.b .eq 2) = true := by decide
theorem test_decode_bl : spells 0b1110_10_1_1_000000000000001111111110 (.bl .al 0x3FE) = true := by decide
theorem test_decode_stm : spells 0b1110_100_1_0_0_1_0_1101_0100000000110000 (.stm .al true false false true 13 0x4030) = true := by decide
theorem test_decode_ldm : spells 0b1110_100_0_1_1_0_1_0000_0000000000000110 (.ldm .al false true true false 0 6) = true := by decide
theorem test_decode_stc : spells 0b1110_110_1_1_0_0_0_0001_0001_0000_00000000 (.stc .al true true false false 1 1 0 0) = true := by decide
theorem test_decode_ldc : spells 0b1110_110_1_1_0_0_1_0001_0001_0000_00000000 (.ldc .al true true false false 1 1 0 0) = true := by decide
theorem test_decode_cdp : spells 0b1110_1110_0000_0000_0000_0000_000_0_0000 (.cdp .al 0 0 0 0 0 0) = true := by decide
theorem test_decode_mcr : spells 0b1110_1110_000_0_0001_0000_1111_000_1_0000 (.mcr .al 0 1 0 15 0 0) = true := by decide
theorem test_decode_mrc : spells 0b1110_1110_000_1_0001_0000_1111_000_1_0000 (.mrc .al 0 1 0 15 0 0) = true := by decide
theorem test_decode_swi : spells 0b1110_1111_000100100011010001010110 (.swi .al 0x123456) = true := by decide

/-- `MEM_REG_BIT4 = 1` gives bit 4 the other meaning (R92). -/
theorem test_decode_bit4 :
    decodeWord true 0xE7910012 = .ldr .al .offset true 1 0 (.reg .lsl 0 2) ∧
    decodeWord true 0xE7910002 = .reservedUndefinedSpace .al 0x7910002 := by decide

/-! ## Execution -/

/-- What a test looks at after a step: some registers of the current mode, N Z C V, the pc; or why the machine stopped. -/
inductive Seen where
  | ran (regs : List Word) (nzcv : BitVec 4) (pc : Word)
  | trap (e : Exc) (info : Word)
  | refused (r : Refusal)
  deriving DecidableEq, Repr

def look (rs : List Reg) : Result → Seen
  | .next t => .ran (rs.map fun r => t.regIn t.bank r) (t.psr.toWord.extractLsb' 28 4) t.pc
  | .fault (.trap e info) => .trap e info
  | .refused r => .refused r

/-- The word a step leaves at an address. -/
def wordAt (a : Word) : Result → Option Word
  | .next t => t.loadBytes .word a
  | .fault _ => none
  | .refused _ => none

/-- The next state has a property. -/
def ends (o : Result) (p : State → Bool) : Bool :=
  match o with
  | .next t => p t
  | .fault _ => false
  | .refused _ => false

theorem next_of_ends {o : Result} {p : State → Bool} (h : ends o p = true) : ∃ t, o = .next t := by
  cases o <;> simp [ends] at h ⊢

/-- The state of the vectors (95_test_vectors.md section 2): profile U, pc = 0x8000, some registers, flags and words. Only the
page of the instruction and those words are mapped. -/
def user (regs : List (Reg × Word)) (f : BitVec 4) (words : List (Nat × Word)) : State :=
  let s := State.launch
    { Params.default with memMap := ⟨0x8000, 0x1000⟩ :: words.map fun x => ⟨x.1, 4⟩ } 0x8000 []
    (Vector.replicate 30 0) ⟨f.getLsbD 3, f.getLsbD 2, f.getLsbD 1, f.getLsbD 0⟩
  let s := regs.foldl (fun s x => s.setReg x.1 x.2) s
  words.foldl (fun s x => { s.storeBytes .word (BitVec.ofNat 32 x.1) x.2 with stored := [] }) s

/-- The same under profile S, in a mode; I and F are 0. -/
def inMode (m : Mode) (s : State) : State :=
  { s with params := { s.params with profile := .S }, cpsr := { s.cpsr with mode := m } }

def run (w : Word) (s : State) : Result := step (s.placeWord w)

theorem test_and_V2 :
    look [3] (run 0xE21434FF (user [(4, 0x12345678)] 0b0000 [])) =
      .ran [0x12000000] 0b0010 0x8004 := by decide
theorem test_and_V3 :
    look [3] (run 0xE21430FF (user [(4, 0x12345600)] 0b1011 [])) =
      .ran [0] 0b0111 0x8004 := by decide
theorem test_eor_V4 :
    look [0] (run 0xE0210002 (user [(1, 0xFF00FF00), (2, 0x0FF00FF0)] 0b0101 [])) =
      .ran [0xF0F0F0F0] 0b0101 0x8004 := by decide
theorem test_eor_V5 :
    look [5] (run 0xE0355005 (user [(5, 0xDEADBEEF)] 0b1011 [])) =
      .ran [0] 0b0111 0x8004 := by decide
theorem test_sub_V7 :
    look [0] (run 0xE0510002 (user [(1, 5), (2, 7)] 0b0000 [])) =
      .ran [0xFFFFFFFE] 0b1000 0x8004 := by decide
theorem test_sub_V8 :
    look [0] (run 0xE2510001 (user [(1, 0x80000000)] 0b0000 [])) =
      .ran [0x7FFFFFFF] 0b0011 0x8004 := by decide
theorem test_rsb_V11 :
    look [0] (run 0xE2610000 (user [(1, 5)] 0b0101 [])) =
      .ran [0xFFFFFFFB] 0b0101 0x8004 := by decide
theorem test_rsb_V13 :
    look [0] (run 0xE2710000 (user [(1, 0x80000000)] 0b0000 [])) =
      .ran [0x80000000] 0b1001 0x8004 := by decide
theorem test_add_V17 :
    look [0] (run 0xE0910102 (user [(1, 0x100), (2, 0x40000001)] 0b0001 [])) =
      .ran [0x104] 0b0000 0x8004 := by decide
theorem test_add_V104 :
    look [0] (run 0xE08FF100 (user [(0, 3)] 0b0000 [])) =
      .ran [3] 0b0000 0x8014 := by decide
theorem test_adc_V19 :
    look [0] (run 0xE2B10000 (user [(1, 0xFFFFFFFF)] 0b0010 [])) =
      .ran [0] 0b0110 0x8004 := by decide
theorem test_adc_V21 :
    look [0] (run 0xE0B10002 (user [(1, 0x7FFFFFFF), (2, 0)] 0b0010 [])) =
      .ran [0x80000000] 0b1001 0x8004 := by decide
theorem test_sbc_V22 :
    look [0] (run 0xE0C10002 (user [(1, 5), (2, 3)] 0b0000 [])) =
      .ran [1] 0b0000 0x8004 := by decide
theorem test_sbc_V26 :
    look [0] (run 0xE0D10002 (user [(1, 0x80000000), (2, 0)] 0b0000 [])) =
      .ran [0x7FFFFFFF] 0b0011 0x8004 := by decide
theorem test_rsc_V27 :
    look [0] (run 0xE0E10002 (user [(1, 3), (2, 5)] 0b0000 [])) =
      .ran [1] 0b0000 0x8004 := by decide
theorem test_rsc_V29 :
    look [0] (run 0xE2F10000 (user [(1, 1)] 0b0010 [])) =
      .ran [0xFFFFFFFF] 0b1000 0x8004 := by decide
theorem test_tst_V30 :
    look [1] (run 0xE3110102 (user [(1, 0x80000001)] 0b0001 [])) =
      .ran [0x80000001] 0b1011 0x8004 := by decide
theorem test_tst_V31 :
    look [1] (run 0xE1110002 (user [(1, 0xF0), (2, 0xF)] 0b1010 [])) =
      .ran [0xF0] 0b0110 0x8004 := by decide
theorem test_teq_V32 :
    look [1] (run 0xE1310002 (user [(1, 0x55), (2, 0x55)] 0b1011 [])) =
      .ran [0x55] 0b0111 0x8004 := by decide
theorem test_teq_V33 :
    look [1] (run 0xE13100A2 (user [(1, 0x80000000), (2, 3)] 0b0000 [])) =
      .ran [0x80000000] 0b1010 0x8004 := by decide
theorem test_cmp_V36 :
    look [1] (run 0xE3510001 (user [(1, 0x80000000)] 0b0000 [])) =
      .ran [0x80000000] 0b0011 0x8004 := by decide
theorem test_cmp_V108 :
    look [1] (run 0xE1511002 (user [(1, 1), (2, 1)] 0b0000 [])) =
      .refused .sbzViolation := by decide
theorem test_cmn_V37 :
    look [1] (run 0xE3710001 (user [(1, 0xFFFFFFFF)] 0b0000 [])) =
      .ran [0xFFFFFFFF] 0b0110 0x8004 := by decide
theorem test_cmn_V38 :
    look [1] (run 0xE1710002 (user [(1, 0x40000000), (2, 0x40000000)] 0b0000 [])) =
      .ran [0x40000000] 0b1001 0x8004 := by decide
theorem test_orr_V39 :
    look [0] (run 0xE1810002 (user [(1, 0xF0F00000), (2, 0xF0F0)] 0b0000 [])) =
      .ran [0xF0F0F0F0] 0b0000 0x8004 := by decide
theorem test_orr_V40 :
    look [0] (run 0xE1910F82 (user [(1, 0), (2, 3)] 0b0101 [])) =
      .ran [0x80000000] 0b1011 0x8004 := by decide
theorem test_bic_V41 :
    look [0] (run 0xE3C100FF (user [(1, 0x12345678)] 0b0000 [])) =
      .ran [0x12345600] 0b0000 0x8004 := by decide
theorem test_bic_V42 :
    look [0] (run 0xE1D10001 (user [(1, 0xFFFF)] 0b1010 [])) =
      .ran [0] 0b0110 0x8004 := by decide
theorem test_mvn_V44 :
    look [0] (run 0xE1E00002 (user [(2, 0xFFFF)] 0b0000 [])) =
      .ran [0xFFFF0000] 0b0000 0x8004 := by decide
theorem test_mvn_V45 :
    look [0] (run 0xE1F00222 (user [(2, 0xFFFFFFF8)] 0b0001 [])) =
      .ran [0xF0000000] 0b1011 0x8004 := by decide
theorem test_mov_V57 :
    look [0] (run 0xE3B001FF (user [] 0b0000 [])) =
      .ran [0xC000003F] 0b1010 0x8004 := by decide
theorem test_nop_V58 :
    look [0] (run 0xE1A00000 (user [(0, 0x1234)] 0b1010 [])) =
      .ran [0x1234] 0b1010 0x8004 := by decide
theorem test_lsl_V69 :
    look [0] (run 0xE1B00211 (user [(1, 0x80000001), (2, 32)] 0b0000 [])) =
      .ran [0] 0b0110 0x8004 := by decide
theorem test_lsl_V72 :
    look [0] (run 0xE1B00211 (user [(1, 0x80000001), (2, 256)] 0b0000 [])) =
      .ran [0x80000001] 0b1000 0x8004 := by decide
theorem test_lsr_V74 :
    look [0] (run 0xE1B00021 (user [(1, 0x80000000)] 0b0000 [])) =
      .ran [0] 0b0110 0x8004 := by decide
theorem test_lsr_V80 :
    look [0] (run 0xE1B00231 (user [(1, 0x80000001), (2, 33)] 0b0000 [])) =
      .ran [0] 0b0100 0x8004 := by decide
theorem test_asr_V83 :
    look [0] (run 0xE1B00041 (user [(1, 0x7FFFFFFF)] 0b0010 [])) =
      .ran [0] 0b0100 0x8004 := by decide
theorem test_asr_V88 :
    look [0] (run 0xE1B00251 (user [(1, 0x80000001), (2, 200)] 0b0000 [])) =
      .ran [0xFFFFFFFF] 0b1010 0x8004 := by decide
theorem test_rrx_V89 :
    look [0] (run 0xE1A00061 (user [(1, 3)] 0b0010 [])) =
      .ran [0x80000001] 0b0010 0x8004 := by decide
theorem test_rrx_V90 :
    look [0] (run 0xE1B00061 (user [(1, 3)] 0b0000 [])) =
      .ran [1] 0b0010 0x8004 := by decide
theorem test_ror_V96 :
    look [0] (run 0xE1B00271 (user [(1, 0x80000001), (2, 32)] 0b0000 [])) =
      .ran [0x80000001] 0b1010 0x8004 := by decide
theorem test_ror_V99 :
    look [0] (run 0xE1B00271 (user [(1, 0x80000001), (2, 40)] 0b0000 [])) =
      .ran [0x01800000] 0b0000 0x8004 := by decide
theorem test_mul_V114 :
    look [0] (run 0xE0100291 (user [(1, 0xFFFFFFFF), (2, 2)] 0b0111 [])) =
      .ran [0xFFFFFFFE] 0b1011 0x8004 := by decide
theorem test_mul_V129 :
    look [0] (run 0xE0000290 (user [(0, 1), (2, 2)] 0b0000 [])) =
      .refused .mulRdEqRn := by decide
theorem test_mla_V116 :
    look [0] (run 0xE0203291 (user [(1, 6), (2, 7), (3, 0x64)] 0b0000 [])) =
      .ran [0x8E] 0b0000 0x8004 := by decide
theorem test_mla_V117 :
    look [0] (run 0xE0303291 (user [(1, 0xFFFFFFFF), (2, 1), (3, 1)] 0b1010 [])) =
      .ran [0] 0b0110 0x8004 := by decide
theorem test_umull_V118 :
    look [0, 1] (run 0xE0810392 (user [(2, 0xFFFFFFFF), (3, 0xFFFFFFFF)] 0b0000 [])) =
      .ran [1, 0xFFFFFFFE] 0b0000 0x8004 := by decide
theorem test_umull_V131 :
    look [0, 1] (run 0xE0811392 (user [(2, 1), (3, 2)] 0b0000 [])) =
      .refused .mullRegs := by decide
theorem test_umlal_V121 :
    look [0, 1] (run 0xE0A10392 (user [(0, 0xFFFFFFFF), (1, 0), (2, 1), (3, 1)] 0b0000 [])) =
      .ran [0, 1] 0b0000 0x8004 := by decide
theorem test_umlal_V122 :
    look [0, 1] (run 0xE0B10392 (user [(0, 0xFFFFFFFF), (1, 0xFFFFFFFF), (2, 1), (3, 1)] 0b1000 [])) =
      .ran [0, 0] 0b0100 0x8004 := by decide
theorem test_smull_V124 :
    look [0, 1] (run 0xE0C10392 (user [(2, 0xFFFFFFFE), (3, 3)] 0b0000 [])) =
      .ran [0xFFFFFFFA, 0xFFFFFFFF] 0b0000 0x8004 := by decide
theorem test_smull_V126 :
    look [0, 1] (run 0xE0D10392 (user [(2, 0x80000000), (3, 0x7FFFFFFF)] 0b0000 [])) =
      .ran [0x80000000, 0xC0000000] 0b1000 0x8004 := by decide
theorem test_smlal_V127 :
    look [0, 1] (run 0xE0E10392 (user [(0, 5), (1, 0), (2, 0xFFFFFFFF), (3, 10)] 0b0000 [])) =
      .ran [0xFFFFFFFB, 0xFFFFFFFF] 0b0000 0x8004 := by decide
theorem test_smlal_V128 :
    look [0, 1] (run 0xE0F10392 (user [(0, 10), (1, 0), (2, 0xFFFFFFFF), (3, 10)] 0b1011 [])) =
      .ran [0, 0] 0b0111 0x8004 := by decide
theorem test_multiply_cmd_V132 :
    look [] (run 0xE0400291 (user [] 0b0000 [])) =
      .trap .undefinedInstruction 0xE0400291 := by decide
theorem test_op00_1001_V249 :
    look [] (run 0xE1200091 (user [] 0b0000 [])) =
      .trap .undefinedInstruction 0xE1200091 := by decide
theorem test_extra_store_signed_V169 :
    look [] (run 0xE1C100D2 (user [(1, 0x1004)] 0b0000 [])) =
      .trap .undefinedInstruction 0xE1C100D2 := by decide
theorem test_dp_compare_S0_V265 :
    look [] (run 0xE12FFF1E (user [] 0b0000 [])) =
      .trap .undefinedInstruction 0xE12FFF1E := by decide
theorem test_undefined_space_V168 :
    look [] (run 0xE7910012 (user [(1, 0x1000), (2, 4)] 0b0000 [])) =
      .trap .undefinedInstruction 0xE7910012 := by decide
theorem test_cond_1111_V176 :
    look [] (run 0xF1A00000 (user [] 0b0000 [])) =
      .trap .undefinedInstruction 0xF1A00000 := by decide
theorem test_ldr_V139 :
    look [0] (run 0xE71100A2 (user [(1, 0x1008), (2, 8)] 0b0000 [(0x1004, 0x11223344)])) =
      .ran [0x11223344] 0b0000 0x8004 := by decide
theorem test_ldr_V149 :
    look [] (run 0xE591F000 (user [(1, 0x1004)] 0b0000 [(0x1004, 0x9000)])) =
      .ran [] 0b0000 0x9000 := by decide
theorem test_ldrb_V145 :
    look [0] (run 0xE5D10003 (user [(1, 0x1004)] 0b0000 [(0x1004, 0x80223344)])) =
      .ran [0x80] 0b0000 0x8004 := by decide
theorem test_ldrb_V166 :
    look [] (run 0xE5D1F000 (user [(1, 0x1004)] 0b0000 [(0x1004, 0x11223344)])) =
      .refused .bytePc := by decide
theorem test_ldrt_V209 :
    look [0, 1] (run 0xE4B10004 (user [(1, 0x1004)] 0b0000 [(0x1004, 0x11223344)])) =
      .ran [0x11223344, 0x1008] 0b0000 0x8004 := by decide
theorem test_ldrbt_V210 :
    look [0, 1] (run 0xE4F10001 (user [(1, 0x1004)] 0b0000 [(0x1004, 0x11223344)])) =
      .ran [0x44, 0x1005] 0b0000 0x8004 := by decide
theorem test_ldrh_V157 :
    look [0] (run 0xE1D10FBF (user [(1, 0xF07)] 0b0000 [(0x1004, 0x8001F00F)])) =
      .ran [0x8001] 0b0000 0x8004 := by decide
theorem test_ldrh_V158 :
    look [0, 1] (run 0xE0D100B2 (user [(1, 0x1004)] 0b0000 [(0x1004, 0x8001F00F)])) =
      .ran [0xF00F, 0x1006] 0b0000 0x8004 := by decide
theorem test_ldrsb_V153 :
    look [0] (run 0xE1D100D1 (user [(1, 0x1004)] 0b0000 [(0x1004, 0x8001F00F)])) =
      .ran [0xFFFFFFF0] 0b0000 0x8004 := by decide
theorem test_ldrsb_V154 :
    look [0] (run 0xE1D100D0 (user [(1, 0x1004)] 0b0000 [(0x1004, 0x8001F00F)])) =
      .ran [0xF] 0b0000 0x8004 := by decide
theorem test_ldrsh_V156 :
    look [0] (run 0xE1D100F0 (user [(1, 0x1004)] 0b0000 [(0x1004, 0x8001700F)])) =
      .ran [0x700F] 0b0000 0x8004 := by decide
theorem test_ldrsh_V159 :
    look [0, 1] (run 0xE17100F2 (user [(1, 0x1008)] 0b0000 [(0x1004, 0x8001F00F)])) =
      .ran [0xFFFF8001, 0x1006] 0b0000 0x8004 := by decide
theorem test_ldm_V185 :
    look [0, 1, 2, 3] (run 0xE9B0000E (user [(0, 0x1000)] 0b0000 [(0x1004, 0xA1), (0x1008, 0xA2), (0x100C, 0xA3)])) =
      .ran [0x100C, 0xA1, 0xA2, 0xA3] 0b0000 0x8004 := by decide
theorem test_b_V183 :
    look [] (run 0xEA800000 (user [] 0b0000 [])) =
      .ran [] 0b0000 0xFE008008 := by decide
theorem test_b_V174 :
    look [] (run 0x0A000002 (user [] 0b0000 [])) =
      .ran [] 0b0000 0x8004 := by decide
theorem test_bl_V180 :
    look [14] (run 0xEB0003FE (user [] 0b0000 [])) =
      .ran [0x8004] 0b0000 0x9000 := by decide
theorem test_bl_V175 :
    look [14] (run 0x1B000002 (user [(14, 7)] 0b0100 [])) =
      .ran [7] 0b0100 0x8004 := by decide
theorem test_mrs_V219 :
    look [0] (run 0xE10F0000 (user [] 0b0110 [])) =
      .ran [0x60000010] 0b0110 0x8004 := by decide
theorem test_mrs_V221 :
    look [] (run 0xE14F0000 (user [] 0b0110 [])) =
      .refused .spsrInUserMode := by decide
theorem test_msr_V226 :
    look [] (run 0xE129F000 (user [(0, 0xA00000D3)] 0b0000 [])) =
      .ran [] 0b1010 0x8004 := by decide
theorem test_swi_V213 :
    look [] (run 0xEF123456 (user [] 0b0000 [])) =
      .trap .swi 0x123456 := by decide
theorem test_cdp_V214 :
    look [] (run 0xEE000000 (user [] 0b0000 [])) =
      .trap .undefinedInstruction 0xEE000000 := by decide
theorem test_mcr_V215 :
    look [] (run 0xEE010F10 (user [] 0b0000 [])) =
      .trap .undefinedInstruction 0xEE010F10 := by decide
theorem test_mrc_V216 :
    look [] (run 0xEE110F10 (user [] 0b0000 [])) =
      .trap .undefinedInstruction 0xEE110F10 := by decide
theorem test_ldc_V217 :
    look [] (run 0xED911000 (user [] 0b0000 [])) =
      .trap .undefinedInstruction 0xED911000 := by decide
theorem test_stc_V218 :
    look [] (run 0xED811000 (user [] 0b0000 [])) =
      .trap .undefinedInstruction 0xED811000 := by decide
theorem test_str_V143 :
    wordAt 0x1004 (run 0xE6010002 (user [(0, 0xAABBCCDD), (1, 0x1004), (2, 0x10)] 0 [(0x1004, 0)])) = some 0xAABBCCDD := by decide
theorem test_strb_V144 :
    wordAt 0x1004 (run 0xE5C10001 (user [(0, 0xAABBCCDD), (1, 0x1004)] 0 [(0x1004, 0x11223344)])) = some 0x1122DD44 := by decide
theorem test_strh_V150 :
    wordAt 0x1004 (run 0xE1C100B2 (user [(0, 0xAABBCCDD), (1, 0x1004)] 0 [(0x1004, 0x11223344)])) = some 0xCCDD3344 := by decide
theorem test_strt_V211 :
    wordAt 0x1004 (run 0xE4A10004 (user [(0, 0xAABBCCDD), (1, 0x1004)] 0 [(0x1004, 0x11223344)])) = some 0xAABBCCDD := by decide
theorem test_strbt_V212 :
    wordAt 0x1004 (run 0xE4E10001 (user [(0, 0xAABBCCDD), (1, 0x1005)] 0 [(0x1004, 0x11223344)])) = some 0x1122DD44 := by decide
theorem test_stm_V188 :
    wordAt 0x100C (run 0xE92D4030 (user [(4, 0x44), (5, 0x55), (13, 0x1010), (14, 0x8123)] 0 [(0x1004, 0), (0x1008, 0), (0x100C, 0)])) = some 0x8123 := by decide
theorem test_stm_V195 :
    wordAt 0x1004 (run 0xE8A00003 (user [(0, 0x1004), (1, 5)] 0 [(0x1004, 0x11223344), (0x1008, 0x11223344)])) = some 0x1004 := by decide
theorem test_swp_V204 :
    wordAt 0x1004 (run 0xE1020090 (user [(0, 0xAABBCCDD), (2, 0x1004)] 0 [(0x1004, 0x11223344)])) = some 0xAABBCCDD := by decide
theorem test_swpb_V203 :
    wordAt 0x1004 (run 0xE1420091 (user [(1, 0xAABBCCDD), (2, 0x1005)] 0 [(0x1004, 0x11223344)])) = some 0x1122DD44 := by decide

/-! ### Profile S -/

/-- R349: SWI from User mode. -/
theorem test_swi_R349 :
    ends (run 0xEF000011 (inMode .usr (user [] 0b0110 []))) (fun t => t.pc = 8 && t.psr.toWord = 0x60000093 &&
      t.reg 14 = 0x8004 && t.spsr.svc.toWord = 0x60000010 && t.regIn .usr 14 = 0) = true := by decide

/-- R346: `MOVS PC, R14` in Supervisor mode. -/
theorem test_exception_return_R346 :
    ends (run 0xE1B0F00E { (inMode .svc (user [] 0 [])).setReg 14 0x8004 with
      spsr := { State.reset.spsr with svc := Psr.ofWord 0x60000010 } })
      (fun t => t.pc = 0x8004 && t.psr.toWord = 0x60000010) = true := by decide

/-- R347: MSR of the control byte in Supervisor mode enters System mode. -/
theorem test_msr_R347 :
    ends (run 0xE321F0DF (inMode .svc (user [] 0b1001 []))) (fun t => t.psr.toWord = 0x900000DF) = true := by decide

/-- R343, R344: a data abort links pc + 8 and leaves memory and the base as they were. -/
theorem test_data_abort_R344 :
    ends (run 0xE4810004 (inMode .sys (user [(1, 0x2000)] 0 []))) (fun t => t.pc = 0x10 && t.psr.toWord = 0x97 &&
      t.reg 14 = 0x8008 && t.reg 1 = 0x2000 && t.stored = []) = true := by decide

/-- R335, R344: FIQ before IRQ; the interrupted instruction has not run. -/
theorem test_fiq_R335 :
    ends (step { (inMode .usr (user [] 0 [])).placeWord 0xE3A00001 with inputs := [⟨false, true, true⟩] })
      (fun t => t.pc = 0x1C && t.psr.toWord = 0xD1 && t.reg 14 = 0x8004 && t.reg 0 = 0 && t.inputs = []) = true := by decide

/-- R348: the reset input. -/
theorem test_reset_R348 :
    ends (step { inMode .usr (user [] 0 []) with inputs := [⟨true, true, true⟩] })
      (fun t => t.pc = 0 && t.cpsr.mode = .svc && t.cpsr.i && t.cpsr.f) = true := by decide

/-- The first instruction after reset, placed by the host's interface. -/
theorem test_withFetchWord :
    look [0] (step (State.reset.withFetchWord 32 0xE3A000FF)) = .ran [0xFF] 0 4 ∧
    decodeTableWord 32 0xE3A000FF = some (.mov .al false 0 0 (.imm 0 0xFF)) := by decide

/-- R373 (a): LDM with ^ loads the User copy and is followed by one instruction that must not read a banked register. -/
theorem test_ldm_user_R275 :
    ends (run 0xE8D06000 (inMode .svc (user [(0, 0x1004)] 0 [(0x1004, 0xA1), (0x1008, 0xA2)])))
      (fun t => t.regIn .usr 13 = 0xA1 && t.regIn .usr 14 = 0xA2 && t.regIn .svc 13 = 0 && t.hazard = .fresh) = true := by decide

/-- R365: the run ends at an agreed `SWI`, at the return address, and at `B .`; R6: the launch is in profile U. -/
theorem test_exit_R365 :
    let s := user [] 0 []
    runsOk (exitBySwi 1) 5 (s.placeWord 0xEF000001) ∧ runEnds (exitAtAddress 0x8000) s ∧
    runsOk exitBySelfBranch 5 (s.placeWord 0xEAFFFFFE) ∧
    s.params.profile = .U ∧ Params.default.profile = .U :=
  ⟨.inl rfl, .inl rfl, .inl (by unfold exitBySelfBranch; decide), rfl, rfl⟩

/-! ## Witnesses: states and operands that meet the hypotheses of each statement, clause by clause -/

/-- The launch state with the word 0x11223344 at 0x1004, and that address in R1. -/
def base : State := user [(1, 0x1004), (2, 4), (3, 7)] 0b0110 [(0x1004, 0x11223344)]

/-- The same state under `MISALIGNED_POLICY = armv4`. -/
def armv4 (s : State) : State := { s with params := { s.params with misaligned := .armv4 } }

/-- The same state at the top of the address space. -/
def atTop (s : State) : State := s.setPc 0xFFFFFFFC

theorem witness_EncodeThenDecode :
    (Instr.lsl .al false 0 0 (.imm 1) 1).canonical false = true ∧
    (Instr.reservedUndefinedSpace .al 0x7910012).canonical false = true := by decide

theorem witness_StepRunsDecoded :
    let s := user [] 0 [(0x8000, 0xE1A03007)]
    event s = none ∧ codeModified s = false ∧ s.canAccess .word s.pc = true ∧ s.byteAt s.pc = some 0x07 ∧
    s.byteAt (s.pc + 1#32) = some 0x30 ∧ s.byteAt (s.pc + 2#32) = some 0xA0 ∧ s.byteAt (s.pc + 3#32) = some 0xE1 ∧
    decode s.params.memRegBit4 [0x07, 0x30, 0xA0, 0xE1] = .ok (.mov .al false 0 3 (.reg 7), []) := by decide

theorem witness_FetchStops :
    let s := { base with stored := [0x8003] }
    let t := { base with pc := 0x9000 }
    (event s = none ∧ s.pc.extractLsb' 0 2 = 0#2 ∧ codeModified s = true) ∧
    (event t = none ∧ t.pc.extractLsb' 0 2 = 0#2 ∧ codeModified t = false ∧ allMapped t.params t.pc 4 = false ∧
      t.params.profile = .U ∧ (inMode .usr t).params.profile = .S ∧ event (inMode .usr t) = none ∧
      codeModified (inMode .usr t) = false ∧ allMapped (inMode .usr t).params (inMode .usr t).pc 4 = false) ∧
    event base = none ∧ base.pc.extractLsb' 0 2 = 0#2 ∧ codeModified base = false ∧ allMapped base.params base.pc 4 = true ∧
      base.loadBytes .word base.pc = none := by decide

theorem witness_StoredBytesAreNotFetched :
    event base = none ∧ inAccess .byte 0x8003 (base.pc + 3#32) = true ∧ inAccess .word 0x7FFD base.pc = true := by decide

theorem witness_InterruptEntry :
    let s := inMode .usr base
    let fiq := { s with inputs := [⟨false, true, false⟩] }
    let irq := { s with inputs := [⟨false, true, true⟩], cpsr := { s.cpsr with f := true } }
    let off := { s with inputs := [⟨false, true, true⟩], cpsr := { s.cpsr with f := true, i := true } }
    base.params.profile = .U ∧
    (fiq.params.profile = .S ∧ fiq.inputs = ⟨false, true, false⟩ :: [] ∧ fiq.cpsr.f = false) ∧
    (irq.params.profile = .S ∧ irq.inputs = ⟨false, true, true⟩ :: [] ∧ irq.cpsr.f = true ∧ irq.cpsr.i = false) ∧
    off.params.profile = .S ∧ off.inputs = ⟨false, true, true⟩ :: [] ∧ off.cpsr.f = true ∧ off.cpsr.i = true := by decide

theorem witness_ResetEntry :
    let s := { inMode .usr base with inputs := [⟨true, false, false⟩] }
    s.params.profile = .S ∧ s.inputs = ⟨true, false, false⟩ :: [] := by decide

theorem witness_StepKeepsWellFormed :
    (base.placeWord 0xE5810000).wf ∧ ∃ t, step (base.placeWord 0xE5810000) = .next t :=
  ⟨⟨by decide, by decide, by decide⟩, next_of_ends (p := fun _ => true) (by decide)⟩

theorem witness_StepKeepsParameters :
    let s := { base with stored := [0x1000] }
    0x1000 ∈ s.stored ∧ ∃ t, step (s.placeWord 0xE5810000) = .next t :=
  ⟨by decide, next_of_ends (p := fun _ => true) (by decide)⟩

theorem witness_UserModeIsConfined :
    let s := inMode .usr base
    s.params.profile = .S ∧ s.cpsr.mode = .usr ∧ (∃ t, step (s.placeWord 0xE5810000) = .next t) ∧
    ∃ t, step (s.placeWord 0xEF000000) = .next t :=
  ⟨by decide, by decide, next_of_ends (p := fun _ => true) (by decide), next_of_ends (p := fun _ => true) (by decide)⟩

theorem witness_OnlyStoresWriteMemory :
    isStore (.ldr .al .post true 1 0 (.imm 4)) = false ∧ ∃ t, exec (.ldr .al .post true 1 0 (.imm 4)) base = .next t :=
  ⟨by decide, next_of_ends (p := fun _ => true) (by decide)⟩

theorem witness_OnlyFlagWritersWriteFlags :
    mayWriteFlags (.add .al false 1 0 (.imm 0 4)) = false ∧ ∃ t, exec (.add .al false 1 0 (.imm 0 4)) base = .next t :=
  ⟨by decide, next_of_ends (p := fun _ => true) (by decide)⟩

theorem witness_FailedConditionAdvances :
    (Instr.swi .ne 0).cond = some .ne ∧ condPassed .ne base.cpsr.flags = false ∧
    (base.setPc 0xFFFFFFF8).pc ≠ 0xFFFFFFFC#32 ∧ (base.setPc 0xFFFFFFFC).pc = 0xFFFFFFFC#32 := by decide

theorem witness_ShiftByConstant : (1 : BitVec 5) ≠ 0#5 ∧ (31 : BitVec 5) ≠ 0#5 := by decide

theorem witness_ShiftByRegister : 1 ≤ 1 ∧ 1 ≤ 255 ∧ 255 ≤ 255 := by decide

theorem witness_ShifterResults : (1 : BitVec 4) ≠ 0#4 ∧ (15 : BitVec 4) ≠ 0#4 := by decide

theorem witness_ReadOutcomes :
    let armv4 := { base with params := { base.params with misaligned := .armv4 } }
    (base.canAccess .word 0x1004 = true ∧ base.loadBytes .word 0x1004 = some 0x11223344) ∧
    (base.canAccess .word 0x8000 = true ∧ base.loadBytes .word 0x8000 = none) ∧
    (alignedFor .half 0x1002 = true ∧ allMapped base.params 0x1002 Width.half.bytes = false) ∧
    (alignedFor .word 0x1005 = false ∧ base.params.misaligned = .fault) ∧
    (alignedFor .half 0x1005 = false ∧ armv4.params.misaligned = .armv4) ∧
    alignedFor .word 0x1007 = false ∧ allMapped armv4.params (alignDown 0x1007) 4 = true ∧
    armv4.loadBytes .word (alignDown 0x1007) = some 0x11223344 := by decide

theorem witness_RegisterBanks :
    let live := { inMode .fiq base with hazard := .live }
    (14 : Reg) ≠ 15#4 ∧ (0 : Reg) ≠ 15#4 ∧ base.params.profile = .U ∧ (inMode .fiq base).params.profile = .S ∧
    (inMode .fiq base).hazard ≠ .live ∧ live.hazard = .live ∧ slot live.bank 7 = slot .usr 7 := by decide

/-- LogicalResults, MoveResults, ArithmeticResults and CompareAndNopResults. -/
theorem witness_data_processing :
    base.runs .al ∧ (14 : Reg) ≠ 15#4 ∧ r15InShift (.shiftReg .ror 14 2) [14, 1] = false ∧
    r15InShift (.imm 0 0) [14, 15] = false ∧ (1 : BitVec 4) ≠ 0#4 ∧ r15InShift (amountSrc2 .lsl 2 (.reg 3)) [14] = false :=
  ⟨⟨by decide, by decide⟩, by decide, by decide, by decide, by decide, by decide⟩

theorem witness_DpWritesPc :
    let i : Instr := .mov .al false 0 15 (.reg 1)
    let j : Instr := .mov .al false 0 15 (.reg 3)
    dpForm i = some ⟨.al, false, 0, 15, [15], .shiftImm .lsl 0 1⟩ ∧ condPassed .al base.cpsr.flags = true ∧
    r15InShift (.shiftImm .lsl 0 1) [15] = false ∧ (dpValue i base).extractLsb' 0 2 = 0#2 ∧
    dpForm j = some ⟨.al, false, 0, 15, [15], .shiftImm .lsl 0 3⟩ ∧ r15InShift (.shiftImm .lsl 0 3) [15] = false ∧
    (dpValue j base).extractLsb' 0 2 ≠ 0#2 := by decide

/-- Supervisor mode with a given SPSR. -/
def saved (p : Word) : State := { inMode .svc base with spsr := { base.spsr with svc := Psr.ofWord p } }

theorem witness_DpReturnsFromException :
    let i : Instr := .mov .al true 0 15 (.reg 1)
    let j : Instr := .mov .al true 0 15 (.reg 3)
    dpForm i = some ⟨.al, true, 0, 15, [15], .shiftImm .lsl 0 1⟩ ∧ dpForm j = some ⟨.al, true, 0, 15, [15], .shiftImm .lsl 0 3⟩ ∧
    condPassed .al (saved 0x10).cpsr.flags = true ∧ r15InShift (.shiftImm .lsl 0 1) [15] = false ∧
    r15InShift (.shiftImm .lsl 0 3) [15] = false ∧ (inMode .sys base).mode = .sys ∧ base.mode = .usr ∧
    (saved 0x10).spsrNow = some (Psr.ofWord 0x10) ∧ (dpValue j (saved 0x10)).extractLsb' 0 2 ≠ 0#2 ∧
    (dpValue i (saved 0x10)).extractLsb' 0 2 = 0#2 ∧ (Psr.ofWord 0x10).t = false ∧
    Mode.ofBits (Psr.ofWord 0x10).m = some .usr ∧ (saved 0x30).spsrNow = some (Psr.ofWord 0x30) ∧ (Psr.ofWord 0x30).t = true ∧
    (dpValue i (saved 0x30)).extractLsb' 0 2 = 0#2 ∧ (saved 0x0F).spsrNow = some (Psr.ofWord 0x0F) ∧
    (dpValue i (saved 0x0F)).extractLsb' 0 2 = 0#2 ∧ (Psr.ofWord 0x0F).t = false ∧ Mode.ofBits (Psr.ofWord 0x0F).m = none := by decide

theorem witness_DpStops :
    let i : Instr := .mov .al false 8 0 (.reg 1)
    let j : Instr := .add .al false 15 0 (.shiftReg .lsl 1 2)
    dpForm i = some ⟨.al, false, 8, 0, [0], .shiftImm .lsl 0 1⟩ ∧ condPassed .al base.cpsr.flags = true ∧ (8 : BitVec 4) ≠ 0#4 ∧
    dpForm j = some ⟨.al, false, 0, 0, [0, 15], .shiftReg .lsl 1 2⟩ ∧ r15InShift (.shiftReg .lsl 1 2) [0, 15] = true ∧
    r15InShift (.shiftReg .lsl 1 15) [1] = true ∧ r15InShift (.shiftReg .lsl 1 2) [0, 14] = false ∧
    (atTop base).pc = 0xFFFFFFFC#32 ∧ condPassed .al (atTop base).cpsr.flags = true := by decide

/-- MultiplyResults and LongMultiplyResults, with Rd = R14, Ra = R0, Rm = Rn = R1. -/
theorem witness_multiply :
    condPassed .al base.cpsr.flags = true ∧ base.pc ≠ 0xFFFFFFFC#32 ∧ condPassed .al (atTop base).cpsr.flags = true ∧
    (atTop base).pc = 0xFFFFFFFC#32 ∧ (14 : Reg) ≠ 15#4 ∧ (0 : Reg) ≠ 15#4 ∧ (1 : Reg) ≠ 15#4 ∧ (14 : Reg) ≠ 1#4 ∧ (0 : Reg) ≠ 14#4 ∧
    (0 : Reg) ≠ 1#4 ∧ base.params.mulCV = .unchanged := by decide

theorem witness_MultiplyStops :
    condPassed .al base.cpsr.flags = true ∧ (1 : BitVec 4) ≠ 0#4 ∧ (14 : Reg) ≠ 15#4 ∧
    (Instr.umull .al false 1 1 2 3) ≠ .mla .al false 1 1 2 3 := by decide

/-- Post-indexed from R1 = 0x1004; at the top; from 0x1007 under `armv4`; and from a word that nothing has written. -/
theorem witness_LoadResults :
    let one := user [(1, 0x1004)] 0 [(0x1004, 0x11223344)]
    let m := memAddressing .post true 1 (.imm 4) one
    let odd := armv4 (user [(1, 0x1007)] 0 [(0x1004, 0x11223344)])
    let bare := user [(1, 0x8004)] 0 []
    condPassed .al one.cpsr.flags = true ∧ one.pc ≠ 0xFFFFFFFC#32 ∧ baseOk (writesBack .post) 1 0 (memOffsetReg (.imm 4)) ∧
    baseOk true 1 0 (memOffsetReg (.reg .lsl 0 2)) ∧ one.reaches .word m.adr = true ∧
    one.loadBytes .word (accessed .word m.adr) = some 0x11223344 ∧ one.reaches .byte m.adr = true ∧
    one.loadBytes .byte (accessed .byte m.adr) = some 0x44 ∧ condPassed .al (atTop one).cpsr.flags = true ∧
    (atTop one).pc = 0xFFFFFFFC#32 ∧ (atTop one).reaches .word m.adr = true ∧
    (atTop one).loadBytes .word (accessed .word m.adr) = some 0x11223344 ∧ condPassed .al odd.cpsr.flags = true ∧
    odd.reaches .word (memAddressing .post true 1 (.imm 4) odd).adr = true ∧
    odd.loadBytes .word (accessed .word (memAddressing .post true 1 (.imm 4) odd).adr) = some 0x11223344 ∧
    condPassed .al bare.cpsr.flags = true ∧ bare.reaches .word (memAddressing .post true 1 (.imm 4) bare).adr = true ∧
    bare.loadBytes .word (accessed .word (memAddressing .post true 1 (.imm 4) bare).adr) = none ∧
    bare.reaches .byte (memAddressing .post true 1 (.imm 4) bare).adr = true ∧
    bare.loadBytes .byte (accessed .byte (memAddressing .post true 1 (.imm 4) bare).adr) = none := by unfold baseOk; decide

theorem witness_ExtraLoadResults :
    let m := extraAddressing (.mode .pre) true 1 (.imm 2) base
    let odd := armv4 (user [(1, 0x1005)] 0 [])
    let bare := user [(1, 0x8002)] 0 []
    condPassed .al base.cpsr.flags = true ∧ base.pc ≠ 0xFFFFFFFC#32 ∧ (ExtraOffset.imm 2).sbzOk = true ∧
    baseOk (writesBack .pre) 1 0 (extraOffsetReg (.imm 2)) ∧ base.reaches .half m.adr = true ∧
    base.loadBytes .half m.adr = some 0x1122 ∧ base.reaches .byte m.adr = true ∧ base.loadBytes .byte m.adr = some 0x22 ∧
    condPassed .al (atTop base).cpsr.flags = true ∧ (atTop base).pc = 0xFFFFFFFC#32 ∧ (atTop base).reaches .half m.adr = true ∧
    (atTop base).loadBytes .half m.adr = some 0x1122 ∧ condPassed .al odd.cpsr.flags = true ∧
    alignedFor .half (extraAddressing (.mode .pre) true 1 (.imm 2) odd).adr = false ∧ odd.params.misaligned = .armv4 ∧
    condPassed .al bare.cpsr.flags = true ∧ bare.reaches .half (extraAddressing (.mode .pre) true 1 (.imm 2) bare).adr = true ∧
    bare.loadBytes .half (extraAddressing (.mode .pre) true 1 (.imm 2) bare).adr = none ∧
    bare.reaches .byte (extraAddressing (.mode .pre) true 1 (.imm 2) bare).adr = true ∧
    bare.loadBytes .byte (extraAddressing (.mode .pre) true 1 (.imm 2) bare).adr = none := by unfold baseOk; decide

theorem witness_LoadWritesPc :
    let m := memAddressing .post true 1 (.imm 4) base
    let odd := armv4 (user [(1, 0x1005)] 0 [])
    let bare := user [(1, 0x8004)] 0 []
    condPassed .al base.cpsr.flags = true ∧ baseOk (writesBack .post) 1 15 (memOffsetReg (.imm 4)) ∧
    base.canAccess .word m.adr = true ∧ base.loadBytes .word m.adr = some 0x11223344 ∧
    (0x11223344#32).extractLsb' 0 2 = 0#2 ∧
    (user [(1, 0x1004)] 0 [(0x1004, 0x9002)]).loadBytes .word 0x1004 = some 0x9002 ∧
    (0x9002#32).extractLsb' 0 2 ≠ 0#2 ∧ condPassed .al odd.cpsr.flags = true ∧
    alignedFor .word (memAddressing .post true 1 (.imm 4) odd).adr = false ∧ odd.params.misaligned = .armv4 ∧
    condPassed .al bare.cpsr.flags = true ∧ bare.canAccess .word (memAddressing .post true 1 (.imm 4) bare).adr = true ∧
    bare.loadBytes .word (memAddressing .post true 1 (.imm 4) bare).adr = none := by unfold baseOk; decide

theorem witness_StoreResults :
    let k (p : StorePcOffset) : State := { base with params := { base.params with storePc := p } }
    let m := memAddressing .pre false 1 (.imm 0) base
    let x := extraAddressing (.mode .pre) true 1 (.imm 2) base
    let odd := armv4 (user [(1, 0x1007)] 0 [(0x1004, 0)])
    condPassed .al base.cpsr.flags = true ∧ base.pc ≠ 0xFFFFFFFC#32 ∧ baseOk (writesBack .pre) 1 0 (memOffsetReg (.imm 0)) ∧
    baseOk (writesBack .pre) 1 15 (memOffsetReg (.imm 0)) ∧ base.reaches .word m.adr = true ∧ base.reaches .byte m.adr = true ∧
    (k .eight).params.storePc = .eight ∧ (k .twelve).params.storePc = .twelve ∧
    condPassed .al (k .eight).cpsr.flags = true ∧ condPassed .al (k .twelve).cpsr.flags = true ∧
    (k .eight).reaches .word (memAddressing .pre false 1 (.imm 0) (k .eight)).adr = true ∧
    (k .twelve).reaches .word (memAddressing .pre false 1 (.imm 0) (k .twelve)).adr = true ∧
    baseOk (writesBack .pre) 1 0 (extraOffsetReg (.imm 2)) ∧ base.reaches .half x.adr = true ∧
    condPassed .al (atTop base).cpsr.flags = true ∧ (atTop base).pc = 0xFFFFFFFC#32 ∧ (atTop base).reaches .word m.adr = true ∧
    condPassed .al odd.cpsr.flags = true ∧ odd.reaches .word (memAddressing .pre false 1 (.imm 0) odd).adr = true ∧
    alignedFor .half (extraAddressing (.mode .pre) true 1 (.imm 2) odd).adr = false ∧ odd.params.misaligned = .armv4 := by
  unfold baseOk; decide

theorem witness_MemoryStops :
    baseBroken (writesBack .pre) 15 0 none = some .wbPc ∧ baseBroken (writesBack .post) 1 1 none = some .wbRdEqRn ∧
    baseBroken (writesBack .post) 1 0 (some 1) = some .wbRmEqRn ∧ baseBroken (writesBack .offset) 1 0 (some 15) = some .rmPc ∧
    baseBroken (writesBack .offset) 15 15 none = none ∧ baseBroken true 1 15 none = none ∧ base.params.storePc = .none ∧
    condPassed .al base.cpsr.flags = true := by decide

theorem witness_ExtraMemoryStops :
    (ExtraOffset.reg 1 2).sbzOk = false ∧ (ExtraOffset.reg 0 2).sbzOk = true ∧
    baseBroken (writesBack .pre) 1 1 (extraOffsetReg (.reg 0 2)) = some .wbRdEqRn ∧
    baseBroken (writesBack .offset) 1 15 (extraOffsetReg (.reg 0 2)) = none ∧ condPassed .al base.cpsr.flags = true := by decide

/-- Misaligned; aligned but outside `MEMMAP`, to a general register and to register 15; and outside under `armv4`. -/
theorem witness_AccessesRaise :
    let odd := user [(1, 0x1005)] 0 []
    let out := user [(1, 0x8FFE)] 0 []
    let soft := armv4 (user [(1, 0x9001)] 0 [])
    let k := { out with params := { out.params with storePc := .eight } }
    condPassed .al odd.cpsr.flags = true ∧ baseOk (writesBack .offset) 1 0 (memOffsetReg (.imm 0)) ∧
    baseOk (writesBack .offset) 1 15 (memOffsetReg (.imm 0)) ∧
    baseOk true 1 0 (memOffsetReg (.imm 0)) ∧ baseOk (writesBack .post) 1 0 (extraOffsetReg (.imm 0)) ∧
    alignedFor .half (extraAddressing (.mode .post) true 1 (.imm 0) odd).adr = false ∧ odd.params.misaligned = .fault ∧
    alignedFor .word (memAddressing .offset true 1 (.imm 2) out).adr = true ∧
    allMapped out.params (accessed .word (memAddressing .offset true 1 (.imm 2) out).adr) Width.word.bytes = false ∧
    alignedFor .byte (memAddressing .offset true 1 (.imm 2) out).adr = true ∧
    allMapped out.params (accessed .byte (memAddressing .offset true 1 (.imm 2) out).adr) Width.byte.bytes = false ∧
    k.params.storePc ≠ .none ∧ condPassed .al k.cpsr.flags = true ∧
    allMapped k.params (accessed .word (memAddressing .offset true 1 (.imm 2) k).adr) Width.word.bytes = false ∧
    condPassed .al soft.cpsr.flags = true ∧ soft.params.misaligned = .armv4 ∧
    allMapped soft.params (accessed .word (memAddressing .offset true 1 (.imm 0) soft).adr) Width.word.bytes = false := by
  unfold baseOk; decide

/-- Two words at 0x1004, their address in R0; in Supervisor mode. -/
def block : State :=
  { inMode .svc (user [(0, 0x1004)] 0 [(0x1004, 0xA1), (0x1008, 0x9000)]) with
    spsr := { State.reset.spsr with svc := Psr.ofWord 0x10 } }

/-- The words of the block by register: R1 (or R13) and R15, or R1 and R2. -/
def words (r : Reg) : Word := if r = 1#4 ∨ r = 13#4 then 0xA1 else 0x9000

theorem witness_LoadMultipleResults :
    let bare := user [(0, 0x8004)] 0 []
    condPassed .al block.cpsr.flags = true ∧ block.ldmAllowed false true 0 0x0006 ∧ block.ldmAllowed false true 0 0x8002 ∧
    block.canAccessBlock false true (block.reg 0) 0x0006 ∧
    block.blockHolds false true (block.reg 0) 0x0006 words ∧ block.canAccessBlock false true (block.reg 0) 0x8002 ∧
    block.blockHolds false true (block.reg 0) 0x8002 words ∧ inList 0x0006 15#4 = false ∧ block.pc ≠ 0xFFFFFFFC#32 ∧
    inList 0x8002 15#4 = true ∧ (words 15#4).extractLsb' 0 2 = 0#2 ∧ condPassed .al bare.cpsr.flags = true ∧
    bare.ldmAllowed false true 0 0x0006 ∧ bare.canAccessBlock false true (bare.reg 0) 0x0006 ∧ inList 0x0006 2 = true ∧
    bare.loadBytes .word (accessed .word (blockAddress false true (bare.reg 0) 0x0006 2)) = none := by
  unfold State.canAccessBlock State.blockHolds State.ldmAllowed; repeat' apply And.intro
  all_goals decide

/-- The other clauses of LoadMultipleResults and LoadMultipleWithSResults: at the top, and with a misaligned base under `armv4`. -/
theorem witness_LoadMultipleEdges :
    let top := atTop block
    let odd := armv4 { inMode .svc (user [(0, 0x1006)] 0 [(0x1004, 0xA1), (0x1008, 0x9000)]) with spsr := block.spsr }
    condPassed .al top.cpsr.flags = true ∧ top.pc = 0xFFFFFFFC#32 ∧ top.ldmAllowed false true 0 0x0006 ∧
    top.ldmAllowed true false 0 0x0006 ∧ top.canAccessBlock false true (top.reg 0) 0x0006 ∧
    top.blockHolds false true (top.reg 0) 0x0006 words ∧ condPassed .al odd.cpsr.flags = true ∧
    odd.ldmAllowed false true 0 0x0006 ∧ odd.ldmAllowed true true 0 0x8002 ∧
    odd.canAccessBlock false true (odd.reg 0) 0x0006 ∧ odd.blockHolds false true (odd.reg 0) 0x0006 words ∧
    odd.canAccessBlock false true (odd.reg 0) 0x8002 ∧ odd.blockHolds false true (odd.reg 0) 0x8002 words := by
  unfold State.canAccessBlock State.blockHolds State.ldmAllowed; repeat' apply And.intro
  all_goals decide

/-- The pc that is not aligned, with S = 0 in User mode and with S = 1 in Supervisor mode. -/
theorem witness_LoadMultipleUnaligned :
    let s := user [(0, 0x1004)] 0 [(0x1004, 0xA1), (0x1008, 0x9002)]
    let v : Reg → Word := fun r => if r = 1#4 then 0xA1 else 0x9002
    let t := { inMode .svc s with spsr := block.spsr }
    condPassed .al s.cpsr.flags = true ∧ s.ldmAllowed false true 0 0x8002 ∧ t.ldmAllowed true true 0 0x8002 ∧
    condPassed .al t.cpsr.flags = true ∧ t.canAccessBlock false true (t.reg 0) 0x8002 ∧
    t.blockHolds false true (t.reg 0) 0x8002 v ∧ t.spsrNow = some (Psr.ofWord 0x10) ∧ inList 0x8002 15#4 = true ∧ s.canAccessBlock false true (s.reg 0) 0x8002 ∧
    s.blockHolds false true (s.reg 0) 0x8002 v ∧ (v 15#4).extractLsb' 0 2 ≠ 0#2 := by
  unfold State.canAccessBlock State.blockHolds State.ldmAllowed; repeat' apply And.intro
  all_goals decide

theorem witness_LoadMultipleWithSResults :
    let back (p : Word) : State := { block with spsr := { block.spsr with svc := Psr.ofWord p } }
    let bare := inMode .svc (user [(0, 0x8004)] 0 [])
    condPassed .al block.cpsr.flags = true ∧ block.ldmAllowed true true 0 0x8002 ∧ block.ldmAllowed true false 0 0x2004 ∧
    block.spsrNow = some (Psr.ofWord 0x10) ∧ (words 15#4).extractLsb' 0 2 = 0#2 ∧ (Psr.ofWord 0x10).t = false ∧
    Mode.ofBits (Psr.ofWord 0x10).m = some .usr ∧ inList 0x8002 15#4 = true ∧ inList 0x2004 15#4 = false ∧
    block.pc ≠ 0xFFFFFFFC#32 ∧
    block.canAccessBlock false true (block.reg 0) 0x8002 ∧ block.blockHolds false true (block.reg 0) 0x8002 words ∧
    block.canAccessBlock false true (block.reg 0) 0x2004 ∧
    block.blockHolds false true (block.reg 0) 0x2004 (fun r => if r = 2#4 then 0xA1 else 0x9000) ∧
    (back 0x30).ldmAllowed true true 0 0x8002 ∧ (back 0x30).canAccessBlock false true ((back 0x30).reg 0) 0x8002 ∧
    (back 0x30).blockHolds false true ((back 0x30).reg 0) 0x8002 words ∧ (back 0x30).spsrNow = some (Psr.ofWord 0x30) ∧
    (Psr.ofWord 0x30).t = true ∧ (back 0x0F).ldmAllowed true true 0 0x8002 ∧
    (back 0x0F).canAccessBlock false true ((back 0x0F).reg 0) 0x8002 ∧
    (back 0x0F).blockHolds false true ((back 0x0F).reg 0) 0x8002 words ∧ (back 0x0F).spsrNow = some (Psr.ofWord 0x0F) ∧
    (Psr.ofWord 0x0F).t = false ∧ Mode.ofBits (Psr.ofWord 0x0F).m = none ∧ condPassed .al bare.cpsr.flags = true ∧
    bare.ldmAllowed true false 0 0x0006 ∧ bare.canAccessBlock false true (bare.reg 0) 0x0006 ∧ inList 0x0006 1 = true ∧
    bare.loadBytes .word (accessed .word (blockAddress false true (bare.reg 0) 0x0006 1)) = none := by
  unfold State.canAccessBlock State.blockHolds State.ldmAllowed; repeat' apply And.intro
  all_goals decide

/-- With the base lowest in the list and written back; the User copies in Supervisor mode; at the top; a misaligned base. -/
theorem witness_StoreMultipleResults :
    let k := { block with params := { block.params with storePc := .twelve } }
    let odd := armv4 { block with regs := block.regs.set 0 0x1006 }
    condPassed .al k.cpsr.flags = true ∧ k.pc ≠ 0xFFFFFFFC#32 ∧ k.stmAllowed false true 0 0x8001 ∧
    k.stmAllowed true false 0 0x8001 ∧ inList 0x8001 0 = true ∧ k.canAccessBlock false true (k.reg 0) 0x8001 ∧
    condPassed .al (atTop k).cpsr.flags = true ∧ (atTop k).pc = 0xFFFFFFFC#32 ∧ (atTop k).stmAllowed false true 0 0x8001 ∧
    (atTop k).canAccessBlock false true ((atTop k).reg 0) 0x8001 ∧ condPassed .al odd.cpsr.flags = true ∧
    odd.stmAllowed false true 0 0x0003 ∧ odd.canAccessBlock false true (odd.reg 0) 0x0003 := by
  unfold State.canAccessBlock State.stmAllowed; repeat' apply And.intro
  all_goals decide

theorem witness_BlockStops :
    condPassed .al block.cpsr.flags = true ∧ base.mode = .usr ∧ (inMode .sys base).mode = .sys ∧ inList 0x8001 15#4 = true ∧
    block.mode ≠ .usr ∧ block.mode ≠ .sys ∧ inList 0x0003 15#4 = false ∧ inList 0x0003 1 = true ∧ blockRank 0x0003 1 ≠ 0 ∧
    inList 0x8001 0 = true ∧ blockRank 0x8001 0 = 0 ∧ block.params.storePc = .none := by decide

/-- LDM and STM without register 15; and both with it, S = 1 or the base lowest in the list, the second word outside `MEMMAP`. -/
theorem witness_BlockAccessesRaise :
    let odd := user [(0, 0x1006)] 0 []
    let half := user [(0, 0x1004)] 0 [(0x1004, 0xA1)]
    let svc := { inMode .svc half with params := { half.params with profile := .S, storePc := .eight } }
    let soft := armv4 (user [(0, 0x1006)] 0 [(0x1004, 0xA1)])
    (condPassed .al odd.cpsr.flags = true ∧ odd.ldmAllowed false true 0 0x0006 ∧ odd.stmAllowed false true 0 0x0006 ∧
      alignedFor .word (odd.reg 0) = false ∧ odd.params.misaligned = .fault) ∧
    (condPassed .al half.cpsr.flags = true ∧ half.ldmAllowed false true 0 0x0006 ∧ alignedFor .word (half.reg 0) = true ∧
      inList 0x0006 2 = true ∧ allMapped half.params (accessed .word (blockAddress false true (half.reg 0) 0x0006 2)) 4 = false ∧
      ∀ q, inList 0x0006 q = true → q.toNat < (2 : Reg).toNat →
        allMapped half.params (accessed .word (blockAddress false true (half.reg 0) 0x0006 q)) 4 = true) ∧
    (condPassed .al svc.cpsr.flags = true ∧ svc.ldmAllowed true true 0 0x8002 ∧ svc.stmAllowed true false 0 0x8001 ∧
      svc.stmAllowed false true 0 0x8001 ∧ alignedFor .word (svc.reg 0) = true ∧ inList 0x8001 15 = true ∧
      allMapped svc.params (accessed .word (blockAddress false true (svc.reg 0) 0x8001 15)) 4 = false ∧
      ∀ q, inList 0x8001 q = true → q.toNat < (15 : Reg).toNat →
        allMapped svc.params (accessed .word (blockAddress false true (svc.reg 0) 0x8001 q)) 4 = true) ∧
    condPassed .al soft.cpsr.flags = true ∧ soft.ldmAllowed false true 0 0x0006 ∧ soft.params.misaligned = .armv4 ∧
    allMapped soft.params (accessed .word (blockAddress false true (soft.reg 0) 0x0006 2)) 4 = false ∧
    ∀ q, inList 0x0006 q = true → q.toNat < (2 : Reg).toNat →
      allMapped soft.params (accessed .word (blockAddress false true (soft.reg 0) 0x0006 q)) 4 = true := by
  unfold State.ldmAllowed State.stmAllowed; repeat' apply And.intro
  all_goals decide

theorem witness_SwapResults :
    let odd := armv4 (user [(1, 0x1007)] 0 [(0x1004, 0x11223344)])
    let bare := user [(1, 0x8004)] 0 []
    condPassed .al base.cpsr.flags = true ∧ base.pc ≠ 0xFFFFFFFC#32 ∧ (1 : Reg) ≠ 15#4 ∧ (0 : Reg) ≠ 15#4 ∧ (1 : Reg) ≠ 0#4 ∧
    base.reaches .word (base.reg 1) = true ∧ base.loadBytes .word (accessed .word (base.reg 1)) = some 0x11223344 ∧
    base.reaches .byte (base.reg 1) = true ∧ base.loadBytes .byte (accessed .byte (base.reg 1)) = some 0x44 ∧
    condPassed .al (atTop base).cpsr.flags = true ∧ (atTop base).pc = 0xFFFFFFFC#32 ∧
    (atTop base).reaches .word ((atTop base).reg 1) = true ∧
    (atTop base).loadBytes .word (accessed .word ((atTop base).reg 1)) = some 0x11223344 ∧
    condPassed .al odd.cpsr.flags = true ∧ odd.reaches .word (odd.reg 1) = true ∧
    odd.loadBytes .word (accessed .word (odd.reg 1)) = some 0x11223344 ∧
    condPassed .al bare.cpsr.flags = true ∧ bare.reaches .word (bare.reg 1) = true ∧
    bare.loadBytes .word (accessed .word (bare.reg 1)) = none ∧ bare.reaches .byte (bare.reg 1) = true ∧
    bare.loadBytes .byte (accessed .byte (bare.reg 1)) = none := by decide

theorem witness_SwapStops :
    let odd := user [(1, 0x1006)] 0 []
    let out := user [(1, 0x9000)] 0 []
    let soft := armv4 (user [(1, 0x9001)] 0 [])
    condPassed .al base.cpsr.flags = true ∧ (1 : BitVec 4) ≠ 0#4 ∧
    ¬((1 : Reg) = 15#4 ∨ (0 : Reg) = 15#4 ∨ (0 : Reg) = 15#4 ∨ (1 : Reg) = 0#4 ∨ (1 : Reg) = 0#4) ∧
    alignedFor .word (odd.reg 1) = false ∧ odd.params.misaligned = .fault ∧ condPassed .al odd.cpsr.flags = true ∧
    alignedFor .word (out.reg 1) = true ∧ allMapped out.params (accessed .word (out.reg 1)) 4 = false ∧
    soft.params.misaligned = .armv4 ∧ allMapped soft.params (accessed .word (soft.reg 1)) 4 = false ∧
    condPassed .al soft.cpsr.flags = true ∧
    allMapped out.params (out.reg 1) 1 = false ∧ condPassed .al out.cpsr.flags = true := by decide

/-- BranchTargetValue and BranchResults. -/
theorem witness_branches :
    base.pc.extractLsb' 0 2 = 0#2 ∧ condPassed .al base.cpsr.flags = true := by decide

theorem witness_StatusReadResults :
    condPassed .al base.cpsr.flags = true ∧ base.pc ≠ 0xFFFFFFFC#32 ∧ (14 : Reg) ≠ 15#4 ∧ base.params.profile = .U ∧
    condPassed .al block.cpsr.flags = true ∧ block.pc ≠ 0xFFFFFFFC#32 ∧ block.params.profile = .S ∧
    block.spsrNow = some (Psr.ofWord 0x10) ∧ condPassed .al (atTop block).cpsr.flags = true ∧
    (atTop block).pc = 0xFFFFFFFC#32 ∧ (atTop block).params.profile = .S ∧ (atTop block).spsrNow = some (Psr.ofWord 0x10) := by
  decide

theorem witness_StatusWriteResults :
    let v (w : Word) : State := block.setReg 1 w
    (MsrOperand.imm 2 15).sbzOk = true ∧ msrRmIsPc (.imm 2 15) = false ∧ (atTop block).pc = 0xFFFFFFFC#32 ∧
    (atTop block).mode ≠ .usr ∧ condPassed .al (atTop block).cpsr.flags = true ∧ (MsrOperand.reg 0 1).sbzOk = true ∧ msrRmIsPc (.reg 0 1) = false ∧ block.pc ≠ 0xFFFFFFFC#32 ∧
    (8 : BitVec 4).getLsbD 0 = false ∧ base.mode = .usr ∧ (9 : BitVec 4).getLsbD 0 = true ∧ block.mode ≠ .usr ∧
    condPassed .al block.cpsr.flags = true ∧ (msrValue (.reg 0 1) (v 0x30)).getLsbD 5 = true ∧
    (msrValue (.reg 0 1) (v 0x0F)).getLsbD 5 = false ∧ Mode.ofBits ((msrValue (.reg 0 1) (v 0x0F)).extractLsb' 0 5) = none ∧
    (msrValue (.reg 0 1) (v 0xDF)).getLsbD 5 = false ∧
    Mode.ofBits ((msrValue (.reg 0 1) (v 0xDF)).extractLsb' 0 5) = some .sys := by decide

theorem witness_SavedStatusWriteResults :
    condPassed .al block.cpsr.flags = true ∧ block.pc ≠ 0xFFFFFFFC#32 ∧ (MsrOperand.imm 2 15).sbzOk = true ∧
    msrRmIsPc (.imm 2 15) = false ∧ block.spsrNow = some (Psr.ofWord 0x10) ∧ condPassed .al (atTop block).cpsr.flags = true ∧
    (atTop block).pc = 0xFFFFFFFC#32 ∧ (atTop block).spsrNow = some (Psr.ofWord 0x10) := by decide

theorem witness_StatusMoveStops :
    condPassed .al base.cpsr.flags = true ∧ (14 : BitVec 4) ≠ 15#4 ∧ (1 : BitVec 4) ≠ 0#4 ∧ (MsrOperand.reg 1 0).sbzOk = false ∧
    (MsrOperand.reg 0 15).sbzOk = true ∧ msrRmIsPc (.reg 0 15) = true ∧ msrRmIsPc (.reg 0 14) = false ∧ base.mode = .usr ∧
    (inMode .sys base).mode = .sys := by decide

/-- SoftwareInterruptTaken and UndefinedInstructionTaken. -/
theorem witness_exceptions :
    condPassed .eq base.cpsr.flags = true ∧ base.params.profile = .U ∧ (inMode .usr base).params.profile = .S ∧
    condPassed .eq (inMode .usr base).cpsr.flags = true := by decide

theorem witness_SystemCallReturns :
    let s := inMode .fiq base
    s.params.profile = .S ∧ s.pc.extractLsb' 0 2 = 0#2 ∧ s.hazard ≠ .live := by decide

end Sys2Proof.Tests
end

/-! What holds of the next state an operation gives, if it gives one: one rule per shared operation, and all that a
step can do. -/

namespace Sys2Proof.Machine

/-- The next state of an outcome, where it has one, meets `P`; a fault or a refusal meets anything. -/
def Leaves (P : State → Prop) (o : Result) : Prop := ∀ t, o = .next t → P t

variable {P : State → Prop}

theorem leaves_next {t : State} (h : P t) : Leaves P (.next t) := by
  rintro _ ⟨⟩; exact h

theorem leaves_refused (r : Refusal) : Leaves P (.refused r) := by
  rintro _ ⟨⟩

/-! ## The end of an instruction -/

theorem leaves_advance {s : State} (h : P (s.setPc (s.pc + 4#32))) : Leaves P (advance s) := fun _ ht =>
  (advance_eq_next.mp ht).2 ▸ h

theorem leaves_branchWritePC {v : Word} {s : State} (h : P (s.setPc v)) : Leaves P (branchWritePC v s) := fun _ ht =>
  (branchWritePC_eq_next.mp ht).2 ▸ h

theorem leaves_writeResult {r : Reg} {v : Word} {s : State} (hpc : P (s.setPc v))
    (hreg : P ((s.setReg r v).setPc (s.pc + 4#32))) : Leaves P (writeResult r v s) := by
  intro t ht
  obtain ⟨-, -, rfl⟩ | ⟨-, -, rfl⟩ := writeResult_eq_next.mp ht
  · exact hpc
  · exact hreg

theorem leaves_guarded {c : Cond} {s : State} {k : Result} (hfail : P (s.setPc (s.pc + 4#32))) (hpass : Leaves P k) :
    Leaves P (guarded c s k) := by
  intro t ht
  obtain ⟨-, hk⟩ | ⟨-, -, rfl⟩ := guarded_eq_next.mp ht
  · exact hpass t hk
  · exact hfail

theorem leaves_checks {l : List (Bool × Refusal)} {k : Result} (h : Leaves P k) : Leaves P (checks l k) := fun t ht =>
  h t (checks_eq_next.mp ht).2

/-! ## Exceptions and accesses -/

theorem leaves_raise {e : Exc} {info : Word} {s : State} (h : P (enterException e s)) : Leaves P (raise e info s) :=
  fun _ ht => (raise_eq_next.mp ht).2 ▸ h

theorem leaves_exceptionReturn {r : Refusal} {target : Word} {s : State} (h : ∀ c, P ((s.setCpsr c).setPc target)) :
    Leaves P (exceptionReturn r target s) := by
  intro t ht
  obtain ⟨_, c, -, -, -, rfl⟩ := exceptionReturn_eq_next.mp ht
  exact h c

theorem leaves_run {α : Type} {x : Access α} {s : State} {k : α → Result} (hexc : ∀ e, P (enterException e s))
    (hok : ∀ v, x = .ok v → Leaves P (k v)) : Leaves P (x.run s k) := by
  intro t ht
  obtain ⟨v, hv, hk⟩ | ⟨e, _, -, -, rfl⟩ := Access.run_eq_next.mp ht
  · exact hok v hv t hk
  · exact hexc e

/-! ## Reset -/

@[simp] theorem takeReset_params (s : State) : (takeReset s).params = s.params := by simp [takeReset, State.scrambled]
@[simp] theorem takeReset_mem (s : State) : (takeReset s).mem = s.mem := by simp [takeReset, State.scrambled]
@[simp] theorem takeReset_stored (s : State) : (takeReset s).stored = s.stored := by simp [takeReset, State.scrambled]
@[simp] theorem takeReset_inputs (s : State) : (takeReset s).inputs = s.inputs := by simp [takeReset, State.scrambled]

/-! ## The step -/

/-- A word is fetched where no byte of it was stored to, the pc is aligned, and its bytes are mapped and written (R58, R65). -/
theorem fetchWord_eq_ok {s : State} {w : Word} :
    fetchWord s = .ok w ↔ codeModified s = false ∧ s.pc.extractLsb' 0 2 = 0#2 ∧ allMapped s.params s.pc 4 = true ∧
      s.loadBytes .word s.pc = some w := by
  unfold fetchWord
  split_ifs <;> simp_all [loadChecked_eq_ok]

theorem step_of_fetchWord {s : State} {w : Word} (he : event s = none) (hw : fetchWord s = .ok w) :
    step s = exec (decodeWord s.params.memRegBit4 w) s.sampled.ticked := by
  simp [step, he, hw, Access.run]

/-- All a step can do: take an event, execute the word fetched, or take the exception the fetch raises. -/
theorem step_eq_next {s t : State} :
    step s = .next t ↔
      (∃ e, event s = some e ∧ t = takeEvent e s.sampled) ∨
      (∃ w, event s = none ∧ fetchWord s = .ok w ∧
        exec (decodeWord s.params.memRegBit4 w) s.sampled.ticked = .next t) ∨
      (∃ e info, event s = none ∧ fetchWord s = .raises e info ∧ s.params.profile = .S ∧
        t = enterException e s.sampled) := by
  unfold step
  cases event s with
  | some e => simp [eq_comm]
  | none => simp [Access.run_eq_next]

/-- `decode` of four bytes is the decoder on the word they spell (R53, R80). -/
theorem decode_eq_ok {bit4 : Bool} {b0 b1 b2 b3 : Byte} {i : Instr} {rest : List Byte} :
    decode bit4 [b0, b1, b2, b3] = .ok (i, rest) ↔ i = decodeWord bit4 (wordOfBytes b0 b1 b2 b3) ∧ rest = [] := by
  simp [decode, eq_comm]

end Sys2Proof.Machine

/-! No instruction changes a parameter, uses an input sample or forgets a store. -/

namespace Sys2Proof.Machine

/-- What no instruction may disturb: the parameters (R6) and the samples still to come (R335) are as before, and every
address stored to is so still (R65). -/
def State.keepsRecord (s t : State) : Prop :=
  t.params = s.params ∧ t.inputs = s.inputs ∧ s.stored ⊆ t.stored

/-! ## The updates of the state -/

@[simp] theorem State.keepsRecord_refl (s : State) : s.keepsRecord s := ⟨rfl, rfl, fun _ h => h⟩

/-- What `keepsRecord` says does not depend on any other field. -/
theorem State.keepsRecord_congr {s t u : State} (hp : u.params = t.params) (hi : u.inputs = t.inputs)
    (hs : u.stored = t.stored) : s.keepsRecord u ↔ s.keepsRecord t := by
  simp only [State.keepsRecord, hp, hi, hs]

variable {s t : State}

@[simp] theorem State.keepsRecord_of_ticked : s.ticked.keepsRecord t ↔ s.keepsRecord t := .rfl

@[simp] theorem State.keepsRecord_setPc {v : Word} : s.keepsRecord (t.setPc v) ↔ s.keepsRecord t := .rfl

@[simp] theorem State.keepsRecord_setCpsr {c : Cpsr} : s.keepsRecord (t.setCpsr c) ↔ s.keepsRecord t := .rfl

@[simp] theorem State.keepsRecord_setSpsr {b : Bank} {p : Psr} : s.keepsRecord (t.setSpsr b p) ↔ s.keepsRecord t := .rfl

@[simp] theorem State.keepsRecord_setFlags {f : Flags} : s.keepsRecord (t.setFlags f) ↔ s.keepsRecord t := .rfl

@[simp] theorem State.keepsRecord_setFlagsWhen {b : Bool} {f : Flags} :
    s.keepsRecord (t.setFlagsWhen b f) ↔ s.keepsRecord t :=
  State.keepsRecord_congr (by simp) (by simp) (by simp)

@[simp] theorem State.keepsRecord_setReg {r : Reg} {v : Word} : s.keepsRecord (t.setReg r v) ↔ s.keepsRecord t :=
  State.keepsRecord_congr (by simp) (by simp) (by simp)

@[simp] theorem State.keepsRecord_setRegsIn {b : Bank} {l : List (Reg × Word)} :
    s.keepsRecord (setRegsIn b l t) ↔ s.keepsRecord t :=
  State.keepsRecord_congr (by simp) (by simp) (by simp)

@[simp] theorem State.keepsRecord_enterException {e : Exc} : s.keepsRecord (enterException e t) ↔ s.keepsRecord t := .rfl

@[simp] theorem State.keepsRecord_takeReset : s.keepsRecord (takeReset t) ↔ s.keepsRecord t :=
  State.keepsRecord_congr (by simp) (by simp) (by simp)

@[simp] theorem State.keepsRecord_takeEvent {e : Exc} : s.keepsRecord (takeEvent e t) ↔ s.keepsRecord t := by
  cases e with
  | reset => exact State.keepsRecord_takeReset
  | fiq | irq | undefinedInstruction | swi | prefetchAbort | dataAbort | alignmentFault =>
    exact State.keepsRecord_enterException

@[simp] theorem State.keepsRecord_mulDrawn {b : Bool} : s.keepsRecord (mulDrawn b t) ↔ s.keepsRecord t := by
  unfold mulDrawn; split
  · exact .rfl
  · split <;> exact .rfl

@[simp] theorem State.keepsRecord_writeBack {rn : Reg} {m : Addressing} :
    s.keepsRecord (t.writeBack rn m) ↔ s.keepsRecord t := by
  unfold State.writeBack; split
  · exact .rfl
  · exact State.keepsRecord_setReg

@[simp] theorem State.keepsRecord_blockBase {u w : Bool} {rn : Reg} {list : BitVec 16} {base : Word} :
    s.keepsRecord (blockBase u w rn list base t) ↔ s.keepsRecord t := by
  unfold blockBase; split
  · exact State.keepsRecord_setReg
  · exact .rfl

/-- A byte stored is noted; none is forgotten (R65). -/
theorem State.keepsRecord_storeByte {a : Word} {v : Byte} (h : s.keepsRecord t) : s.keepsRecord (t.storeByte a v) := by
  obtain ⟨hp, hi, hs⟩ := h
  exact ⟨hp, hi, fun b hb => by simp [hs hb]⟩

theorem State.keepsRecord_storeBytes {w : Width} {a v : Word} (h : s.keepsRecord t) :
    s.keepsRecord (t.storeBytes w a v) := by
  cases w with
  | byte => exact keepsRecord_storeByte h
  | half => exact keepsRecord_storeByte (keepsRecord_storeByte h)
  | word => exact keepsRecord_storeByte (keepsRecord_storeByte (keepsRecord_storeByte (keepsRecord_storeByte h)))

theorem State.keepsRecord_storeBlock {f : Reg → Word} {l : List (Reg × Word)} (h : s.keepsRecord t) :
    s.keepsRecord (storeBlock f l t) := by
  induction l generalizing t with
  | nil => exact h
  | cons x l ih => exact ih (keepsRecord_storeBytes h)

theorem State.keepsRecord_memWrite {w : Width} {a v : Word} (h : memWrite s w a v = .ok t) : s.keepsRecord t := by
  obtain ⟨b, -, rfl⟩ := memWrite_eq_ok.mp h
  exact keepsRecord_storeBytes s.keepsRecord_refl

/-! ## The shared operations of the families -/

theorem guarded_keepsRecord {c : Cond} {k : Result} (h : Leaves s.keepsRecord k) :
    Leaves s.keepsRecord (guarded c s k) :=
  leaves_guarded (by simp) h

theorem guarded_checks_keepsRecord {c : Cond} {l : List (Bool × Refusal)} {k : Result} (h : Leaves s.keepsRecord k) :
    Leaves s.keepsRecord (guarded c s (checks l k)) :=
  guarded_keepsRecord (leaves_checks h)

theorem guarded_raise_keepsRecord {c : Cond} {e : Exc} {info : Word} :
    Leaves s.keepsRecord (guarded c s (raise e info s)) :=
  guarded_keepsRecord (leaves_raise (by simp))

theorem dpWrite_keepsRecord {sBit : Bool} {rd : Reg} {result : Word} {f : Flags} :
    Leaves s.keepsRecord (dpWrite sBit rd result f s) := by
  unfold dpWrite
  split_ifs
  · exact leaves_exceptionReturn (by simp)
  · exact leaves_branchWritePC (by simp)
  · exact leaves_advance (by simp)

theorem setFlags_keepsRecord {f : Flags} : Leaves s.keepsRecord (advance (s.setFlags f)) :=
  leaves_advance (by simp)

theorem mulWrite_keepsRecord {sBit : Bool} {rd : Reg} {result : Word} :
    Leaves s.keepsRecord (mulWrite sBit rd result s) :=
  leaves_advance (by simp)

theorem mullWrite_keepsRecord {sBit : Bool} {rd ra : Reg} {p : BitVec 64} :
    Leaves s.keepsRecord (mullWrite sBit rd ra p s) :=
  leaves_advance (by simp)

theorem loadReg_keepsRecord {w : Width} {ext : Word → Word} {rn rd : Reg} {m : Addressing} :
    Leaves s.keepsRecord (loadReg w ext rn rd m s) :=
  leaves_run (by simp) fun _ _ => leaves_writeResult (by simp) (by simp)

theorem storeValue_keepsRecord {w : Width} {rn : Reg} {v : Word} {m : Addressing} :
    Leaves s.keepsRecord (storeValue w rn v m s) :=
  leaves_run (by simp) fun _ hw => leaves_advance (by simpa using State.keepsRecord_memWrite hw)

theorem swap_keepsRecord {w : Width} {rn rd rm : Reg} : Leaves s.keepsRecord (swap w rn rd rm s) :=
  leaves_run (by simp) fun _ _ =>
    leaves_run (by simp) fun _ hw => leaves_advance (by simpa using State.keepsRecord_memWrite hw)

theorem ldmWrite_keepsRecord {u sBit w : Bool} {rn : Reg} {list : BitVec 16} {vals : List (Reg × Word)} :
    Leaves s.keepsRecord (ldmWrite u sBit w rn list vals s) := by
  unfold ldmWrite
  split_ifs
  · exact leaves_exceptionReturn (by simp)
  · exact leaves_branchWritePC (by simp)
  · exact leaves_advance ((State.keepsRecord_setRegsIn (b := .usr) (l := vals)).mpr s.keepsRecord_refl)
  · exact leaves_advance (by simp)

theorem execLdm_keepsRecord {c : Cond} {p u sBit w : Bool} {rn : Reg} {list : BitVec 16} :
    Leaves s.keepsRecord (execLdm c p u sBit w rn list s) :=
  guarded_checks_keepsRecord (leaves_run (by simp) fun _ _ => ldmWrite_keepsRecord)

theorem execStm_keepsRecord {c : Cond} {p u sBit w : Bool} {rn : Reg} {list : BitVec 16} :
    Leaves s.keepsRecord (execStm c p u sBit w rn list s) :=
  guarded_checks_keepsRecord <| leaves_run (by simp) fun _ _ =>
    leaves_advance (by simpa using State.keepsRecord_storeBlock s.keepsRecord_refl)

theorem execMrs_keepsRecord {c : Cond} {r : Bool} {sbo sbzHi sbzLo : BitVec 4} {rd : Reg} :
    Leaves s.keepsRecord (execMrs c r sbo rd sbzHi sbzLo s) := by
  refine guarded_checks_keepsRecord ?_
  split
  · split
    · exact leaves_refused _
    · exact leaves_advance (by simp)
  · exact leaves_advance (by simp)

theorem msrCpsr_keepsRecord {mask : BitVec 4} {v : Word} : Leaves s.keepsRecord (msrCpsr mask v s) := by
  unfold msrCpsr
  split
  · split
    · exact leaves_refused _
    · exact leaves_advance (by simp)
  · exact leaves_advance (by simp [msrFlags])

theorem msrSpsr_keepsRecord {mask : BitVec 4} {v : Word} : Leaves s.keepsRecord (msrSpsr mask v s) := by
  unfold msrSpsr
  split
  · exact leaves_refused _
  · exact leaves_advance (by simp)

theorem execMsr_keepsRecord {c : Cond} {r : Bool} {mask sbo : BitVec 4} {operand : MsrOperand} :
    Leaves s.keepsRecord (execMsr c r mask sbo operand s) := by
  refine guarded_checks_keepsRecord ?_
  split
  · exact msrSpsr_keepsRecord
  · exact msrCpsr_keepsRecord

/-! ## Every instruction, every step -/

/-- Whatever the instruction, the record is kept. -/
theorem exec_keepsRecord (i : Instr) (s : State) : Leaves s.keepsRecord (exec i s) := by
  cases i with
  | and | eor | orr | bic | mvn | sub | rsb | add | adc | sbc | rsc | mov | lsl | lsr | asr | rrx | ror =>
    exact guarded_checks_keepsRecord dpWrite_keepsRecord
  | tst | teq | cmp | cmn => exact guarded_checks_keepsRecord setFlags_keepsRecord
  | nop => exact guarded_keepsRecord (leaves_advance (by simp))
  | mul | mla => exact guarded_checks_keepsRecord mulWrite_keepsRecord
  | umull | umlal | smull | smlal => exact guarded_checks_keepsRecord mullWrite_keepsRecord
  | ldr | ldrb | ldrt | ldrbt | ldrh | ldrsb | ldrsh => exact guarded_checks_keepsRecord loadReg_keepsRecord
  | str | strb | strt | strbt | strh => exact guarded_checks_keepsRecord storeValue_keepsRecord
  | swp | swpb => exact guarded_checks_keepsRecord swap_keepsRecord
  | ldm => exact execLdm_keepsRecord
  | stm => exact execStm_keepsRecord
  | b | bl => exact guarded_keepsRecord (leaves_next (by simp))
  | mrs => exact execMrs_keepsRecord
  | msr => exact execMsr_keepsRecord
  | reservedCond1111 => exact leaves_raise (by simp)
  | swi | cdp | ldc | stc | mcr | mrc | reservedMultiplyCmd | reservedOp001001 | reservedExtraStoreSigned
  | reservedDpCompareS0 | reservedUndefinedSpace => exact guarded_raise_keepsRecord

/-- A step keeps the record of the state whose input sample is used up. -/
theorem step_keepsRecord {s t : State} (h : step s = .next t) : s.sampled.keepsRecord t := by
  obtain ⟨e, -, rfl⟩ | ⟨w, -, -, hexec⟩ | ⟨e, _, -, -, -, rfl⟩ := step_eq_next.mp h
  · simp
  · exact State.keepsRecord_of_ticked.mp (exec_keepsRecord _ _ t hexec)
  · simp

end Sys2Proof.Machine

/-! The statements of 00_scope.md: the parameters and samples across a step (R6, R335), `AddWithCarry` (R11), and the
step as fetch, decode and execute (R12). -/

namespace Sys2Proof.Machine

/-- Settles O12: each arm of the step keeps the record of the sampled state. -/
theorem stepKeepsParameters : Obligations.StepKeepsParameters := fun _ _ h => step_keepsRecord h

/-! ## AddWithCarry -/

theorem addWithCarry_carry (a b : Word) (cin : Bool) :
    (addWithCarry a b cin).carry = true ↔ 2 ^ 32 ≤ a.toNat + b.toNat + cin.toNat :=
  decide_eq_true_iff

theorem addWithCarry_overflow (a b : Word) (cin : Bool) :
    (addWithCarry a b cin).overflow = true ↔
      a.toInt + b.toInt + (cin.toNat : Int) < -2 ^ 31 ∨ 2 ^ 31 - 1 < a.toInt + b.toInt + (cin.toNat : Int) := by
  simp [addWithCarry]

/-- Settles O17: the sums of the model are the exact ones of R11. -/
theorem addWithCarryMeaning : Obligations.AddWithCarryMeaning := by
  intro a b cin
  refine ⟨?_, addWithCarry_carry a b cin, ?_⟩
  · rw [addWithCarry_value]
    cases cin <;> rfl
  · rw [addWithCarry_overflow, not_and_or, not_le, not_le]

/-! ## Fetch, decode, execute -/

/-- The word at an address, from its four bytes (R53). -/
theorem State.loadBytes_word_of_bytes {s : State} {a : Word} {b0 b1 b2 b3 : Byte} (h0 : s.byteAt a = some b0)
    (h1 : s.byteAt (a + 1#32) = some b1) (h2 : s.byteAt (a + 2#32) = some b2) (h3 : s.byteAt (a + 3#32) = some b3) :
    s.loadBytes .word a = some (wordOfBytes b0 b1 b2 b3) := by
  simp [State.loadBytes, h0, h1, h2, h3]

/-- A word access that raises nothing is aligned and mapped (R56). -/
theorem State.canAccess_word {s : State} {a : Word} :
    s.canAccess .word a = true ↔ a.extractLsb' 0 2 = 0#2 ∧ allMapped s.params a 4 = true := by
  simp [State.canAccess, alignedFor, Width.bytes]

/-- Settles O4: the fetch gives the word the bytes spell, which decodes to `i`. -/
theorem stepRunsDecoded : Obligations.StepRunsDecoded := by
  intro s i b0 b1 b2 b3 hevent hcode haccess h0 h1 h2 h3 hdecode
  obtain ⟨halign, hmap⟩ := State.canAccess_word.mp haccess
  have hfetch : fetchWord s = .ok (wordOfBytes b0 b1 b2 b3) :=
    fetchWord_eq_ok.mpr ⟨hcode, halign, hmap, State.loadBytes_word_of_bytes h0 h1 h2 h3⟩
  obtain ⟨rfl, -⟩ := decode_eq_ok.mp hdecode
  exact step_of_fetchWord hevent hfetch

end Sys2Proof.Machine

/-! By field: what a multiply's draw and a write-back leave alone, and the pc after Reset. -/

namespace Sys2Proof.Machine

/-- Drawing a free value changes no field but the counter (R211). -/
@[simp] theorem mulDrawn_others (b : Bool) (s : State) :
    (mulDrawn b s).pc = s.pc ∧ (mulDrawn b s).cpsr = s.cpsr ∧ (mulDrawn b s).mem = s.mem ∧
    (mulDrawn b s).stored = s.stored := by
  unfold mulDrawn; split
  · simp
  · split <;> simp

/-- The write-back of a single access changes no field but the registers (R224). -/
@[simp] theorem State.writeBack_others (s : State) (rn : Reg) (m : Addressing) :
    (s.writeBack rn m).pc = s.pc ∧ (s.writeBack rn m).cpsr = s.cpsr ∧ (s.writeBack rn m).mem = s.mem ∧
    (s.writeBack rn m).stored = s.stored := by
  unfold State.writeBack; split <;> simp

@[simp] theorem takeReset_pc (s : State) : (takeReset s).pc = Exc.reset.vector := by simp [takeReset, State.scrambled]

end Sys2Proof.Machine

/-! Every step keeps the canonical form of a state: the pc is word-aligned (R27), the memory and the set of addresses
stored to are canonical lists. -/

namespace Sys2Proof.Machine

/-! ## Word-aligned addresses -/

theorem aligned_iff (a : Word) : a.extractLsb' 0 2 = 0#2 ↔ a.toNat % 4 = 0 := by
  rw [← BitVec.toNat_inj]; simp [BitVec.extractLsb'_toNat]

theorem aligned_add {a b : Word} (ha : a.extractLsb' 0 2 = 0#2) (hb : b.extractLsb' 0 2 = 0#2) :
    (a + b).extractLsb' 0 2 = 0#2 := by
  rw [aligned_iff] at *
  rw [BitVec.toNat_add]; omega

/-- The two zeros below the offset of a branch survive its sign extension (R261). -/
theorem aligned_branchOffset (imm24 : BitVec 24) :
    ((cat imm24 0b00#2 : BitVec 26).signExtend 32).extractLsb' 0 2 = 0#2 := by
  refine BitVec.eq_of_getLsbD_eq fun k hk => ?_
  rw [BitVec.getLsbD_extractLsb', BitVec.getLsbD_signExtend, bit_cat_low _ _ _ (by omega)]
  simp [show k < 26 by omega]

theorem aligned_branchTarget {s : State} (imm24 : BitVec 24) (h : s.pc.extractLsb' 0 2 = 0#2) :
    (branchTarget imm24 s).extractLsb' 0 2 = 0#2 :=
  aligned_add (aligned_add h rfl) (aligned_branchOffset imm24)

/-- The vectors are word addresses (R343). -/
theorem Exc.aligned_vector (e : Exc) : e.vector.extractLsb' 0 2 = 0#2 := by cases e <;> rfl

/-! ## The updates of the state -/

/-- The canonical form does not depend on any other field. -/
theorem State.wf_congr {t u : State} (hpc : u.pc = t.pc) (hm : u.mem = t.mem) (hs : u.stored = t.stored) :
    u.wf ↔ t.wf := by
  simp only [State.wf, hpc, hm, hs]

variable {s t : State}

/-- A state stays canonical when its pc becomes any aligned address. -/
theorem State.wf_setPc {v : Word} (hv : v.extractLsb' 0 2 = 0#2) (h : t.wf) : (t.setPc v).wf := ⟨hv, h.2⟩

theorem State.wf_setPc_next (h : t.wf) : (t.setPc (t.pc + 4#32)).wf := wf_setPc (aligned_add h.1 rfl) h

@[simp] theorem State.wf_sampled : s.sampled.wf ↔ s.wf := .rfl

@[simp] theorem State.wf_ticked : s.ticked.wf ↔ s.wf := .rfl

@[simp] theorem State.wf_setCpsr {c : Cpsr} : (t.setCpsr c).wf ↔ t.wf := .rfl

@[simp] theorem State.wf_setSpsr {b : Bank} {p : Psr} : (t.setSpsr b p).wf ↔ t.wf := .rfl

@[simp] theorem State.wf_setFlags {f : Flags} : (t.setFlags f).wf ↔ t.wf := .rfl

@[simp] theorem State.wf_setFlagsWhen {b : Bool} {f : Flags} : (t.setFlagsWhen b f).wf ↔ t.wf :=
  State.wf_congr (by simp) (by simp) (by simp)

@[simp] theorem State.wf_setReg {r : Reg} {v : Word} : (t.setReg r v).wf ↔ t.wf :=
  State.wf_congr (by simp) (by simp) (by simp)

@[simp] theorem State.wf_setRegsIn {b : Bank} {l : List (Reg × Word)} : (setRegsIn b l t).wf ↔ t.wf :=
  State.wf_congr (by simp) (by simp) (by simp)

@[simp] theorem State.wf_mulDrawn {b : Bool} : (mulDrawn b t).wf ↔ t.wf :=
  State.wf_congr (by simp) (by simp) (by simp)

@[simp] theorem State.wf_writeBack {rn : Reg} {m : Addressing} : (t.writeBack rn m).wf ↔ t.wf :=
  State.wf_congr (by simp) (by simp) (by simp)

@[simp] theorem State.wf_blockBase {u w : Bool} {rn : Reg} {list : BitVec 16} {base : Word} :
    (blockBase u w rn list base t).wf ↔ t.wf :=
  State.wf_congr (by simp [blockBase_others]) (by simp [blockBase_others]) (by simp [blockBase_others])

/-- A store of any width keeps both lists canonical and leaves the pc alone (R50, R65). -/
theorem State.wf_store {w : Width} {a v : Word} (h : t.wf) : (t.storeBytes w a v).wf := by
  obtain ⟨hpc, hmem, hstored⟩ := h
  exact ⟨by simpa using hpc, State.wf_storeBytes w a v hmem, State.stored_wf_storeBytes w a v hstored⟩

theorem State.wf_storeBlock {f : Reg → Word} {l : List (Reg × Word)} (h : t.wf) : (storeBlock f l t).wf := by
  induction l generalizing t with
  | nil => exact h
  | cons x l ih => exact ih (wf_store h)

theorem State.wf_memWrite {w : Width} {a v : Word} (hs : s.wf) (h : memWrite s w a v = .ok t) : t.wf := by
  obtain ⟨b, -, rfl⟩ := memWrite_eq_ok.mp h
  exact wf_store hs

theorem State.wf_enterException {e : Exc} (h : t.wf) : (enterException e t).wf := ⟨e.aligned_vector, h.2⟩

theorem State.wf_takeReset (h : t.wf) : (takeReset t).wf :=
  (State.wf_congr (t := enterException .reset t) (by simp) (by simp) (by simp)).mpr (wf_enterException h)

theorem State.wf_takeEvent {e : Exc} (h : t.wf) : (takeEvent e t).wf := by
  cases e with
  | reset => exact wf_takeReset h
  | fiq | irq | undefinedInstruction | swi | prefetchAbort | dataAbort | alignmentFault => exact wf_enterException h

/-! ## The end of an instruction -/

theorem advance_wf (h : t.wf) : Leaves State.wf (advance t) := leaves_advance (State.wf_setPc_next h)

theorem branchWritePC_wf {v : Word} (h : t.wf) : Leaves State.wf (branchWritePC v t) := by
  intro u hu
  obtain ⟨hv, rfl⟩ := branchWritePC_eq_next.mp hu
  exact State.wf_setPc hv h

theorem exceptionReturn_wf {r : Refusal} {target : Word} (h : t.wf) : Leaves State.wf (exceptionReturn r target t) := by
  intro u hu
  obtain ⟨_, c, -, htarget, -, rfl⟩ := exceptionReturn_eq_next.mp hu
  exact State.wf_setPc htarget (State.wf_setCpsr.mpr h)

theorem writeResult_wf {r : Reg} {v : Word} (h : t.wf) : Leaves State.wf (writeResult r v t) := by
  unfold writeResult; split
  · exact branchWritePC_wf h
  · exact advance_wf (by simpa using h)

theorem raise_wf {e : Exc} {info : Word} (h : t.wf) : Leaves State.wf (raise e info t) :=
  leaves_raise (State.wf_enterException h)

/-! ## The shared operations of the families -/

theorem guarded_wf {c : Cond} {k : Result} (hs : s.wf) (h : Leaves State.wf k) : Leaves State.wf (guarded c s k) :=
  leaves_guarded (State.wf_setPc_next hs) h

theorem guarded_checks_wf {c : Cond} {l : List (Bool × Refusal)} {k : Result} (hs : s.wf) (h : Leaves State.wf k) :
    Leaves State.wf (guarded c s (checks l k)) :=
  guarded_wf hs (leaves_checks h)

theorem run_wf {α : Type} {x : Access α} {k : α → Result} (hs : s.wf) (h : ∀ v, x = .ok v → Leaves State.wf (k v)) :
    Leaves State.wf (x.run s k) :=
  leaves_run (fun _ => State.wf_enterException hs) h

theorem dpWrite_wf {sBit : Bool} {rd : Reg} {result : Word} {f : Flags} (hs : s.wf) :
    Leaves State.wf (dpWrite sBit rd result f s) := by
  unfold dpWrite
  split_ifs
  · exact exceptionReturn_wf hs
  · exact branchWritePC_wf hs
  · exact advance_wf (by simpa using hs)

theorem mulWrite_wf {sBit : Bool} {rd : Reg} {result : Word} (hs : s.wf) :
    Leaves State.wf (mulWrite sBit rd result s) :=
  advance_wf (by simpa using hs)

theorem mullWrite_wf {sBit : Bool} {rd ra : Reg} {p : BitVec 64} (hs : s.wf) :
    Leaves State.wf (mullWrite sBit rd ra p s) :=
  advance_wf (by simpa using hs)

theorem loadReg_wf {w : Width} {ext : Word → Word} {rn rd : Reg} {m : Addressing} (hs : s.wf) :
    Leaves State.wf (loadReg w ext rn rd m s) :=
  run_wf hs fun _ _ => writeResult_wf (by simpa using hs)

theorem storeValue_wf {w : Width} {rn : Reg} {v : Word} {m : Addressing} (hs : s.wf) :
    Leaves State.wf (storeValue w rn v m s) :=
  run_wf hs fun _ hw => advance_wf (by simpa using State.wf_memWrite hs hw)

theorem swap_wf {w : Width} {rn rd rm : Reg} (hs : s.wf) : Leaves State.wf (swap w rn rd rm s) :=
  run_wf hs fun _ _ => run_wf hs fun _ hw => advance_wf (by simpa using State.wf_memWrite hs hw)

theorem ldmWrite_wf {u sBit w : Bool} {rn : Reg} {list : BitVec 16} {vals : List (Reg × Word)} (hs : s.wf) :
    Leaves State.wf (ldmWrite u sBit w rn list vals s) := by
  unfold ldmWrite
  split_ifs
  · exact exceptionReturn_wf (by simpa using hs)
  · exact branchWritePC_wf (by simpa using hs)
  · exact advance_wf (State.wf_setRegsIn (b := .usr) (l := vals) |>.mpr hs)
  · exact advance_wf (by simpa using hs)

theorem execLdm_wf {c : Cond} {p u sBit w : Bool} {rn : Reg} {list : BitVec 16} (hs : s.wf) :
    Leaves State.wf (execLdm c p u sBit w rn list s) :=
  guarded_checks_wf hs (run_wf hs fun _ _ => ldmWrite_wf hs)

theorem execStm_wf {c : Cond} {p u sBit w : Bool} {rn : Reg} {list : BitVec 16} (hs : s.wf) :
    Leaves State.wf (execStm c p u sBit w rn list s) :=
  guarded_checks_wf hs (run_wf hs fun _ _ => advance_wf (by simpa using State.wf_storeBlock hs))

theorem execB_wf {c : Cond} {imm24 : BitVec 24} (hs : s.wf) : Leaves State.wf (execB c imm24 s) :=
  guarded_wf hs (leaves_next (State.wf_setPc (aligned_branchTarget imm24 hs.1) hs))

theorem execBl_wf {c : Cond} {imm24 : BitVec 24} (hs : s.wf) : Leaves State.wf (execBl c imm24 s) :=
  guarded_wf hs (leaves_next (State.wf_setPc (aligned_branchTarget imm24 hs.1) (State.wf_setReg.mpr hs)))

theorem execMrs_wf {c : Cond} {r : Bool} {sbo sbzHi sbzLo : BitVec 4} {rd : Reg} (hs : s.wf) :
    Leaves State.wf (execMrs c r sbo rd sbzHi sbzLo s) := by
  refine guarded_checks_wf hs ?_
  split
  · split
    · exact leaves_refused _
    · exact advance_wf (by simpa using hs)
  · exact advance_wf (by simpa using hs)

theorem msrCpsr_wf {mask : BitVec 4} {v : Word} (hs : s.wf) : Leaves State.wf (msrCpsr mask v s) := by
  unfold msrCpsr
  split
  · split
    · exact leaves_refused _
    · exact advance_wf (by simpa using hs)
  · exact advance_wf (by simpa [msrFlags] using hs)

theorem msrSpsr_wf {mask : BitVec 4} {v : Word} (hs : s.wf) : Leaves State.wf (msrSpsr mask v s) := by
  unfold msrSpsr
  split
  · exact leaves_refused _
  · exact advance_wf (by simpa using hs)

theorem execMsr_wf {c : Cond} {r : Bool} {mask sbo : BitVec 4} {operand : MsrOperand} (hs : s.wf) :
    Leaves State.wf (execMsr c r mask sbo operand s) := by
  refine guarded_checks_wf hs ?_
  split
  · exact msrSpsr_wf hs
  · exact msrCpsr_wf hs

/-! ## Every instruction -/

/-- Whatever the instruction, the state it leaves is canonical. -/
theorem exec_wf (i : Instr) (hs : s.wf) : Leaves State.wf (exec i s) := by
  cases i with
  | and | eor | orr | bic | mvn | sub | rsb | add | adc | sbc | rsc | mov | lsl | lsr | asr | rrx | ror =>
    exact guarded_checks_wf hs (dpWrite_wf hs)
  | tst | teq | cmp | cmn => exact guarded_checks_wf hs (advance_wf (State.wf_setFlags.mpr hs))
  | nop => exact guarded_wf hs (advance_wf hs)
  | mul | mla => exact guarded_checks_wf hs (mulWrite_wf hs)
  | umull | umlal | smull | smlal => exact guarded_checks_wf hs (mullWrite_wf hs)
  | ldr | ldrb | ldrt | ldrbt | ldrh | ldrsb | ldrsh => exact guarded_checks_wf hs (loadReg_wf hs)
  | str | strb | strt | strbt | strh => exact guarded_checks_wf hs (storeValue_wf hs)
  | swp | swpb => exact guarded_checks_wf hs (swap_wf hs)
  | ldm => exact execLdm_wf hs
  | stm => exact execStm_wf hs
  | b => exact execB_wf hs
  | bl => exact execBl_wf hs
  | mrs => exact execMrs_wf hs
  | msr => exact execMsr_wf hs
  | reservedCond1111 => exact raise_wf hs
  | swi | cdp | ldc | stc | mcr | mrc | reservedMultiplyCmd | reservedOp001001 | reservedExtraStoreSigned
  | reservedDpCompareS0 | reservedUndefinedSpace => exact guarded_wf hs (raise_wf hs)

end Sys2Proof.Machine

/-! No instruction outside `mayWriteFlags` writes a flag (R29, R304, R305). -/

namespace Sys2Proof.Machine

/-! ## What leaves the status register alone -/

variable {s t : State}

theorem memWrite_cpsr {w : Width} {a v : Word} (h : memWrite s w a v = .ok t) : t.cpsr = s.cpsr := by
  obtain ⟨b, -, rfl⟩ := memWrite_eq_ok.mp h
  exact State.storeBytes_cpsr ..

theorem State.keepsFlags_of_cpsr (h : t.cpsr = s.cpsr) : s.keepsFlags t := congrArg Cpsr.flags h

/-- Exception entry leaves the flags alone (R344). -/
theorem State.keepsFlags_enterException (e : Exc) : s.keepsFlags (enterException e s) := rfl

/-! ## The shared operations of the families -/

theorem advance_keepsFlags (h : t.cpsr = s.cpsr) : Leaves s.keepsFlags (advance t) :=
  leaves_advance (State.keepsFlags_of_cpsr h)

theorem branchWritePC_keepsFlags {v : Word} (h : t.cpsr = s.cpsr) : Leaves s.keepsFlags (branchWritePC v t) :=
  leaves_branchWritePC (State.keepsFlags_of_cpsr h)

theorem raise_keepsFlags {e : Exc} {info : Word} : Leaves s.keepsFlags (raise e info s) :=
  leaves_raise (State.keepsFlags_enterException e)

theorem guarded_keepsFlags {c : Cond} {k : Result} (h : Leaves s.keepsFlags k) :
    Leaves s.keepsFlags (guarded c s k) :=
  leaves_guarded (State.keepsFlags_of_cpsr rfl) h

theorem guarded_checks_keepsFlags {c : Cond} {l : List (Bool × Refusal)} {k : Result} (h : Leaves s.keepsFlags k) :
    Leaves s.keepsFlags (guarded c s (checks l k)) :=
  guarded_keepsFlags (leaves_checks h)

theorem run_keepsFlags {α : Type} {x : Access α} {k : α → Result} (h : ∀ v, x = .ok v → Leaves s.keepsFlags (k v)) :
    Leaves s.keepsFlags (x.run s k) :=
  leaves_run State.keepsFlags_enterException h

/-- With S = 0 a data-processing instruction ends in a register write or a branch, never in an exception return. -/
theorem dpWrite_keepsFlags {sBit : Bool} {rd : Reg} {result : Word} {f : Flags} (h : sBit = false) :
    Leaves s.keepsFlags (dpWrite sBit rd result f s) := by
  subst h
  unfold dpWrite
  split
  · exact branchWritePC_keepsFlags rfl
  · exact advance_keepsFlags (by simp)

theorem mulWrite_keepsFlags {sBit : Bool} {rd : Reg} {result : Word} (h : sBit = false) :
    Leaves s.keepsFlags (mulWrite sBit rd result s) :=
  advance_keepsFlags (by simp [h])

theorem mullWrite_keepsFlags {sBit : Bool} {rd ra : Reg} {p : BitVec 64} (h : sBit = false) :
    Leaves s.keepsFlags (mullWrite sBit rd ra p s) :=
  advance_keepsFlags (by simp [h])

theorem loadReg_keepsFlags {w : Width} {ext : Word → Word} {rn rd : Reg} {m : Addressing} :
    Leaves s.keepsFlags (loadReg w ext rn rd m s) :=
  run_keepsFlags fun _ _ =>
    leaves_writeResult (State.keepsFlags_of_cpsr (by simp)) (State.keepsFlags_of_cpsr (by simp))

theorem storeValue_keepsFlags {w : Width} {rn : Reg} {v : Word} {m : Addressing} :
    Leaves s.keepsFlags (storeValue w rn v m s) :=
  run_keepsFlags fun _ hw => advance_keepsFlags (by simpa using memWrite_cpsr hw)

theorem swap_keepsFlags {w : Width} {rn rd rm : Reg} : Leaves s.keepsFlags (swap w rn rd rm s) :=
  run_keepsFlags fun _ _ => run_keepsFlags fun _ hw => advance_keepsFlags (by simpa using memWrite_cpsr hw)

/-- An LDM writes the flags in one of its forms alone, the exception return: S = 1 with register 15 in the list (R275). -/
theorem ldmWrite_keepsFlags {u sBit w : Bool} {rn : Reg} {list : BitVec 16} {vals : List (Reg × Word)}
    (h : (sBit && list.getLsbD 15) = false) : Leaves s.keepsFlags (ldmWrite u sBit w rn list vals s) := by
  unfold ldmWrite
  split_ifs with hpc hs
  · rw [hpc, hs] at h; cases h
  · exact branchWritePC_keepsFlags (by simp [blockBase_others])
  · exact advance_keepsFlags (by simp)
  · exact advance_keepsFlags (by simp [blockBase_others])

theorem execLdm_keepsFlags {c : Cond} {p u sBit w : Bool} {rn : Reg} {list : BitVec 16}
    (h : (sBit && list.getLsbD 15) = false) : Leaves s.keepsFlags (execLdm c p u sBit w rn list s) :=
  guarded_checks_keepsFlags (run_keepsFlags fun _ _ => ldmWrite_keepsFlags h)

theorem execStm_keepsFlags {c : Cond} {p u sBit w : Bool} {rn : Reg} {list : BitVec 16} :
    Leaves s.keepsFlags (execStm c p u sBit w rn list s) :=
  guarded_checks_keepsFlags (run_keepsFlags fun _ _ => advance_keepsFlags (by simp [blockBase_others]))

theorem execMrs_keepsFlags {c : Cond} {r : Bool} {sbo sbzHi sbzLo : BitVec 4} {rd : Reg} :
    Leaves s.keepsFlags (execMrs c r sbo rd sbzHi sbzLo s) := by
  refine guarded_checks_keepsFlags ?_
  split
  · split
    · exact leaves_refused _
    · exact advance_keepsFlags (by simp)
  · exact advance_keepsFlags (by simp)

/-! ## Every instruction -/

theorem exec_keepsFlags {i : Instr} (h : mayWriteFlags i = false) : Leaves s.keepsFlags (exec i s) := by
  cases i with
  | and | eor | orr | bic | mvn | sub | rsb | add | adc | sbc | rsc | mov | lsl | lsr | asr | rrx | ror =>
    exact guarded_checks_keepsFlags (dpWrite_keepsFlags h)
  | tst | teq | cmp | cmn | msr => cases h
  | nop => exact guarded_keepsFlags (advance_keepsFlags rfl)
  | mul | mla => exact guarded_checks_keepsFlags (mulWrite_keepsFlags h)
  | umull | umlal | smull | smlal => exact guarded_checks_keepsFlags (mullWrite_keepsFlags h)
  | ldr | ldrb | ldrt | ldrbt | ldrh | ldrsb | ldrsh => exact guarded_checks_keepsFlags loadReg_keepsFlags
  | str | strb | strt | strbt | strh => exact guarded_checks_keepsFlags storeValue_keepsFlags
  | swp | swpb => exact guarded_checks_keepsFlags swap_keepsFlags
  | ldm => exact execLdm_keepsFlags h
  | stm => exact execStm_keepsFlags
  | b => exact guarded_keepsFlags (leaves_next rfl)
  | bl => exact guarded_keepsFlags (leaves_next (State.keepsFlags_of_cpsr (by simp)))
  | mrs => exact execMrs_keepsFlags
  | reservedCond1111 => exact raise_keepsFlags
  | swi | cdp | ldc | stc | mcr | mrc | reservedMultiplyCmd | reservedOp001001 | reservedExtraStoreSigned
  | reservedDpCompareS0 | reservedUndefinedSpace => exact guarded_keepsFlags raise_keepsFlags

end Sys2Proof.Machine

/-! The statements of 10_state.md: the canonical form and the flags across a step (R27, R29, R50), and the state after
reset (R36, R348). -/

namespace Sys2Proof.Machine

/-- Settles O11: an event and a raised fetch enter a vector, and every instruction keeps the form. -/
theorem stepKeepsWellFormed : Obligations.StepKeepsWellFormed := by
  intro s t hs h
  obtain ⟨e, -, rfl⟩ | ⟨w, -, -, hexec⟩ | ⟨e, _, -, -, -, rfl⟩ := step_eq_next.mp h
  · exact State.wf_takeEvent (State.wf_sampled.mpr hs)
  · exact exec_wf _ (State.wf_ticked.mpr (State.wf_sampled.mpr hs)) t hexec
  · exact State.wf_enterException (State.wf_sampled.mpr hs)

/-- Settles O15: each family of instructions that writes no flag keeps the flags. -/
theorem onlyFlagWritersWriteFlags : Obligations.OnlyFlagWritersWriteFlags := fun _ _ t h => exec_keepsFlags h t

/-! ## After reset -/

theorem State.reset_psr : State.reset.psr = ⟨⟨false, false, false, false⟩, true, true, false, Mode.svc.bits⟩ := rfl

/-- Settles O9: Supervisor mode at the Reset vector, the fields of the CPSR read from its word. -/
theorem resetState : Obligations.ResetState := by
  refine ⟨rfl, rfl, rfl, rfl, ?_, ?_⟩
  · change State.reset.psr.toWord.extractLsb' 0 8 = _
    rw [State.reset_psr]; decide
  · change State.reset.psr.toWord.extractLsb' 8 20 = _
    rw [State.reset_psr]; decide

/-- Settles O10: the pc is 0 and both lists are empty. -/
theorem resetIsWellFormed : Obligations.ResetIsWellFormed := ⟨rfl, State.reset_mem_wf, rfl⟩

end Sys2Proof.Machine

/-! No instruction outside `isStore` changes a byte of memory or notes a store (R52, R65). -/

namespace Sys2Proof.Machine

variable {s t : State}

/-- Exception entry leaves memory alone (R344). -/
theorem State.keepsMemory_enterException (e : Exc) : s.keepsMemory (enterException e s) := ⟨fun _ => rfl, rfl⟩

/-! ## The end of an instruction -/

theorem advance_keepsMemory (h : t.mem = s.mem ∧ t.stored = s.stored) : Leaves s.keepsMemory (advance t) :=
  leaves_advance (State.keepsMemory_of_eq h.1 h.2)

theorem branchWritePC_keepsMemory {v : Word} (h : t.mem = s.mem ∧ t.stored = s.stored) :
    Leaves s.keepsMemory (branchWritePC v t) :=
  leaves_branchWritePC (State.keepsMemory_of_eq h.1 h.2)

/-- An exception return restores the pc and the CPSR, never memory (R346). -/
theorem exceptionReturn_keepsMemory {r : Refusal} {target : Word} (h : t.mem = s.mem ∧ t.stored = s.stored) :
    Leaves s.keepsMemory (exceptionReturn r target t) :=
  leaves_exceptionReturn fun _ => State.keepsMemory_of_eq h.1 h.2

theorem raise_keepsMemory {e : Exc} {info : Word} : Leaves s.keepsMemory (raise e info s) :=
  leaves_raise (State.keepsMemory_enterException e)

theorem guarded_keepsMemory {c : Cond} {k : Result} (h : Leaves s.keepsMemory k) :
    Leaves s.keepsMemory (guarded c s k) :=
  leaves_guarded (State.keepsMemory_of_eq rfl rfl) h

theorem guarded_checks_keepsMemory {c : Cond} {l : List (Bool × Refusal)} {k : Result} (h : Leaves s.keepsMemory k) :
    Leaves s.keepsMemory (guarded c s (checks l k)) :=
  guarded_keepsMemory (leaves_checks h)

/-! ## The shared operations of the families -/

theorem dpWrite_keepsMemory {sBit : Bool} {rd : Reg} {result : Word} {f : Flags} :
    Leaves s.keepsMemory (dpWrite sBit rd result f s) := by
  unfold dpWrite
  split_ifs
  · exact exceptionReturn_keepsMemory ⟨rfl, rfl⟩
  · exact branchWritePC_keepsMemory ⟨rfl, rfl⟩
  · exact advance_keepsMemory (by simp)

theorem mulWrite_keepsMemory {sBit : Bool} {rd : Reg} {result : Word} :
    Leaves s.keepsMemory (mulWrite sBit rd result s) :=
  advance_keepsMemory (by simp)

theorem mullWrite_keepsMemory {sBit : Bool} {rd ra : Reg} {p : BitVec 64} :
    Leaves s.keepsMemory (mullWrite sBit rd ra p s) :=
  advance_keepsMemory (by simp)

theorem loadReg_keepsMemory {w : Width} {ext : Word → Word} {rn rd : Reg} {m : Addressing} :
    Leaves s.keepsMemory (loadReg w ext rn rd m s) :=
  leaves_run State.keepsMemory_enterException fun _ _ =>
    leaves_writeResult (State.keepsMemory_of_eq (by simp) (by simp)) (State.keepsMemory_of_eq (by simp) (by simp))

theorem ldmWrite_keepsMemory {u sBit w : Bool} {rn : Reg} {list : BitVec 16} {vals : List (Reg × Word)} :
    Leaves s.keepsMemory (ldmWrite u sBit w rn list vals s) := by
  unfold ldmWrite
  split_ifs
  · exact exceptionReturn_keepsMemory (by simp [blockBase_others])
  · exact branchWritePC_keepsMemory (by simp [blockBase_others])
  · exact advance_keepsMemory (by simp)
  · exact advance_keepsMemory (by simp [blockBase_others])

theorem execLdm_keepsMemory {c : Cond} {p u sBit w : Bool} {rn : Reg} {list : BitVec 16} :
    Leaves s.keepsMemory (execLdm c p u sBit w rn list s) :=
  guarded_checks_keepsMemory (leaves_run State.keepsMemory_enterException fun _ _ => ldmWrite_keepsMemory)

theorem execMrs_keepsMemory {c : Cond} {r : Bool} {sbo sbzHi sbzLo : BitVec 4} {rd : Reg} :
    Leaves s.keepsMemory (execMrs c r sbo rd sbzHi sbzLo s) := by
  refine guarded_checks_keepsMemory ?_
  split
  · split
    · exact leaves_refused _
    · exact advance_keepsMemory (by simp)
  · exact advance_keepsMemory (by simp)

theorem msrCpsr_keepsMemory {mask : BitVec 4} {v : Word} : Leaves s.keepsMemory (msrCpsr mask v s) := by
  unfold msrCpsr
  split
  · split
    · exact leaves_refused _
    · exact advance_keepsMemory (by simp)
  · exact advance_keepsMemory (by simp [msrFlags])

theorem msrSpsr_keepsMemory {mask : BitVec 4} {v : Word} : Leaves s.keepsMemory (msrSpsr mask v s) := by
  unfold msrSpsr
  split
  · exact leaves_refused _
  · exact advance_keepsMemory (by simp)

theorem execMsr_keepsMemory {c : Cond} {r : Bool} {mask sbo : BitVec 4} {operand : MsrOperand} :
    Leaves s.keepsMemory (execMsr c r mask sbo operand s) := by
  refine guarded_checks_keepsMemory ?_
  split
  · exact msrSpsr_keepsMemory
  · exact msrCpsr_keepsMemory

/-! ## Every instruction -/

theorem exec_keepsMemory {i : Instr} (h : isStore i = false) : Leaves s.keepsMemory (exec i s) := by
  cases i with
  | str | strb | strt | strbt | strh | stm | swp | swpb => cases h
  | and | eor | orr | bic | mvn | sub | rsb | add | adc | sbc | rsc | mov | lsl | lsr | asr | rrx | ror =>
    exact guarded_checks_keepsMemory dpWrite_keepsMemory
  | tst | teq | cmp | cmn => exact guarded_checks_keepsMemory (advance_keepsMemory (by simp))
  | nop => exact guarded_keepsMemory (advance_keepsMemory ⟨rfl, rfl⟩)
  | mul | mla => exact guarded_checks_keepsMemory mulWrite_keepsMemory
  | umull | umlal | smull | smlal => exact guarded_checks_keepsMemory mullWrite_keepsMemory
  | ldr | ldrb | ldrt | ldrbt | ldrh | ldrsb | ldrsh => exact guarded_checks_keepsMemory loadReg_keepsMemory
  | ldm => exact execLdm_keepsMemory
  | b | bl => exact guarded_keepsMemory (leaves_next (State.keepsMemory_of_eq (by simp) (by simp)))
  | mrs => exact execMrs_keepsMemory
  | msr => exact execMsr_keepsMemory
  | reservedCond1111 => exact raise_keepsMemory
  | swi | cdp | ldc | stc | mcr | mrc | reservedMultiplyCmd | reservedOp001001 | reservedExtraStoreSigned
  | reservedDpCompareS0 | reservedUndefinedSpace => exact guarded_keepsMemory raise_keepsMemory

/-- Settles O14: each family of instructions that does not store keeps memory. -/
theorem onlyStoresWriteMemory : Obligations.OnlyStoresWriteMemory := fun _ _ t h => exec_keepsMemory h t

end Sys2Proof.Machine

/-! The fetch: what it answers where it gives no word, and that it refuses what was stored to (R35, R58, R65). -/

namespace Sys2Proof.Machine

variable {s : State}

theorem fetchWord_modified (hc : codeModified s = true) : fetchWord s = .refuses .fetchOfModifiedCode := by
  simp [fetchWord, hc]

theorem fetchWord_unmapped (hc : codeModified s = false) (ha : s.pc.extractLsb' 0 2 = 0#2)
    (hm : allMapped s.params s.pc 4 = false) : fetchWord s = .raises .prefetchAbort s.pc := by
  simp [fetchWord, hc, ha, hm]

theorem fetchWord_unwritten (hc : codeModified s = false) (ha : s.pc.extractLsb' 0 2 = 0#2)
    (hm : allMapped s.params s.pc 4 = true) (hl : s.loadBytes .word s.pc = none) :
    fetchWord s = .refuses .readUnwritten := by
  simp [fetchWord, hc, ha, hm, loadChecked, hl]

theorem step_of_fetchWord_refuses {r : Refusal} (he : event s = none) (hw : fetchWord s = .refuses r) :
    step s = .refused r := by
  simp [step, he, hw, Access.run]

theorem step_of_fetchWord_raises {e : Exc} {info : Word} (he : event s = none) (hw : fetchWord s = .raises e info) :
    step s = raise e info s.sampled := by
  simp [step, he, hw, Access.run]

/-- Settles O5: the outcome of the fetch in each case, carried through the step. -/
theorem fetchStops : Obligations.FetchStops := by
  intro s hevent halign
  refine ⟨fun hcode => ?modified, fun hcode hmap => ?unmapped, fun hcode hmap hload => ?unwritten⟩
  case modified => exact step_of_fetchWord_refuses hevent (fetchWord_modified hcode)
  case unmapped =>
    have hstep := step_of_fetchWord_raises hevent (fetchWord_unmapped hcode halign hmap)
    exact ⟨fun hU => hstep.trans (raise_U hU),
      fun hS => ⟨_, hstep.trans (raise_S hS), enterException_entered .prefetchAbort s.sampled, rfl, rfl⟩⟩
  case unwritten => exact step_of_fetchWord_refuses hevent (fetchWord_unwritten hcode halign hmap hload)

/-! ## Modified code -/

theorem codeModified_iff : codeModified s = true ↔ ∃ k < 4, (s.pc + BitVec.ofNat 32 k).toNat ∈ s.stored := by
  simp [codeModified]

/-- A store changes nothing that decides whether an event is pending. -/
@[simp] theorem event_storeBytes (w : Width) (a v : Word) : event (s.storeBytes w a v) = event s := by
  simp [event, State.sample]

/-- A store to a byte of the instruction at the pc modifies its code (R57, R65). -/
theorem codeModified_storeBytes {w : Width} {a v : Word} {k : Nat} (hk : k < 4)
    (h : inAccess w a (s.pc + BitVec.ofNat 32 k) = true) : codeModified (s.storeBytes w a v) = true :=
  codeModified_iff.mpr ⟨k, hk, (State.mem_stored_storeBytes s w a v _).mpr (.inl (by simpa using h))⟩

/-- Settles O6: the byte stored to is noted, so the fetch refuses it. -/
theorem storedBytesAreNotFetched : Obligations.StoredBytesAreNotFetched := by
  intro s w a v hevent hin
  have hcode : codeModified (s.storeBytes w a v) = true := by
    obtain h | h | h | h := hin
    · exact codeModified_storeBytes (k := 0) (by decide) (by simpa using h)
    · exact codeModified_storeBytes (k := 1) (by decide) h
    · exact codeModified_storeBytes (k := 2) (by decide) h
    · exact codeModified_storeBytes (k := 3) (by decide) h
  exact step_of_fetchWord_refuses (by simpa using hevent) (fetchWord_modified hcode)

end Sys2Proof.Machine

/-! The accesses to memory: the bytes of a store and its read back (R53, R57), and the outcomes of a load (R54, R55, R56). -/

namespace Sys2Proof.Machine

variable {s : State} {w : Width} {a : Word}

/-! ## A store -/

/-- A store puts byte `k` of the value at `a + k` (R53, R57). -/
theorem State.byteAt_storeBytes (s : State) (a v : Word) {k : Nat} (hk : k < w.bytes) :
    (s.storeBytes w a v).byteAt (a + BitVec.ofNat 32 k) = some (v.extractLsb' (8 * k) 8) := by
  cases w with
  | byte =>
    obtain rfl : k = 0 := by simpa [Width.bytes] using hk
    simp [State.storeBytes]
  | half =>
    obtain rfl | rfl : k = 0 ∨ k = 1 := by simp only [Width.bytes] at hk; omega
    all_goals simp [State.storeBytes, State.byteAt_storeByte]
  | word =>
    obtain rfl | rfl | rfl | rfl : k = 0 ∨ k = 1 ∨ k = 2 ∨ k = 3 := by simp only [Width.bytes] at hk; omega
    all_goals simp [State.storeBytes, State.byteAt_storeByte]

theorem State.keepsMemoryOutside_storeBytes (s : State) (w : Width) (a v : Word) :
    s.keepsMemoryOutside (s.storeBytes w a v) w a := fun b hb =>
  ⟨State.byteAt_storeBytes_of_out s w a v hb, by simp [State.mem_stored_storeBytes, hb]⟩

/-- What a store of a width keeps of a value: its low bits (R53). -/
theorem getLsbD_narrow (w : Width) (v : Word) (k : Nat) :
    (narrow w v).getLsbD k = (decide (k < 8 * w.bytes) && v.getLsbD k) := by
  rw [Bool.eq_iff_iff, Bool.and_eq_true, decide_eq_true_iff]
  cases w with
  | byte => simp [narrow, bit_cat, Width.bytes]
  | half =>
    by_cases h : k < 8
    · simp [narrow, bit_cat, Width.bytes, h]
    · have hk : 8 + (k - 8) = k := by omega
      have hlt : k - 8 < 8 ↔ k < 16 := by omega
      simp [narrow, bit_cat, Width.bytes, h, hk, hlt]
  | word => simpa [narrow_word, Width.bytes] using v.lt_of_getLsbD

/-- Settles O23: the bytes of a store, its frame, and its read back bit by bit. -/
theorem storeThenLoad : Obligations.StoreThenLoad := fun s w a v =>
  ⟨fun _ hk => State.byteAt_storeBytes s a v hk, State.keepsMemoryOutside_storeBytes s w a v,
    narrow w v, State.loadBytes_storeBytes s w a v, fun k _ => getLsbD_narrow w v k⟩

/-! ## A load -/

theorem State.canAccess_iff : s.canAccess w a = true ↔ alignedFor w a = true ∧ allMapped s.params a w.bytes = true := by
  simp [State.canAccess]

/-- An access of a load that raises decides the load (R56). -/
theorem loadValue_of_raises {e : Exc} {info : Word} (h : checkAccess s w a = .raises e info) :
    loadValue s w a = .raises e info := by
  simp [loadValue, memRead, h, Access.bind]

theorem loadValue_unwritten_of_canAccess (hc : s.canAccess w a = true) (hl : s.loadBytes w a = none) :
    loadValue s w a = .refuses .readUnwritten := by
  obtain ⟨halign, -⟩ := State.canAccess_iff.mp hc
  exact loadValue_unwritten (State.reaches_of_canAccess hc) (by rwa [accessed_of_aligned halign])

/-- A halfword at an odd address has no meaning under `armv4` (R55). -/
theorem loadValue_misalignedHalfword (ha : alignedFor .half a = false) (hp : s.params.misaligned = .armv4) :
    loadValue s .half a = .refuses .misalignedHalfword := by
  have hodd : a.getLsbD 0 = true := by simpa [alignedFor] using ha
  simp [loadValue, memRead, checkAccess, alignedAddress, hodd, hp, Access.bind]

/-- Under `armv4` a word is accessed at its aligned address, whatever the low bits (R55). -/
theorem State.reaches_word_armv4 (hp : s.params.misaligned = .armv4) (hm : allMapped s.params (alignDown a) 4 = true) :
    s.reaches .word a = true := by
  simpa [State.reaches, hp, accessed, alignDown, Width.bytes] using hm

/-- The rotation of a loaded word, bit by bit (R55). -/
theorem getLsbD_rotateLoaded_word (a v : Word) {k : Nat} (hk : k < 32) :
    (rotateLoaded .word a v).getLsbD k = v.getLsbD ((k + 8 * (a.toNat % 4)) % 32) := by
  have hlow : (a.extractLsb' 0 2).toNat = a.toNat % 4 := by simp [BitVec.extractLsb'_toNat]
  have hr : 8 * (a.toNat % 4) % 32 = 8 * (a.toNat % 4) := by omega
  rw [rotateLoaded, hlow, BitVec.getLsbD_rotateRight, hr]
  by_cases hwrap : k < 32 - 8 * (a.toNat % 4)
  · rw [decide_eq_true hwrap, cond_true]; congr 1; omega
  · rw [decide_eq_false hwrap, cond_false, decide_eq_true hk, Bool.true_and]; congr 1; omega

/-- Settles O24: each outcome of the checks carried through the load. -/
theorem readOutcomes : Obligations.ReadOutcomes := fun _ _ a =>
  ⟨fun hc _ hv => loadValue_of_canAccess hc hv,
    loadValue_unwritten_of_canAccess,
    fun ha hm => loadValue_of_raises (checkAccess_unmapped ha hm),
    fun ha hp => loadValue_of_raises (checkAccess_misaligned ha hp),
    loadValue_misalignedHalfword,
    fun _ hp hm v hv => ⟨rotateLoaded .word a v, loadValue_of_reaches (State.reaches_word_armv4 hp hm) hv,
      fun _ => getLsbD_rotateLoaded_word a v⟩⟩

end Sys2Proof.Machine

/-! The single loads and stores whose access raises: nothing is done but to take the exception (R224, R320). -/

namespace Sys2Proof.Machine

variable {st : State} {w : Width} {m : Addressing} {rn rd : Reg} {rm : Option Reg}

/-- Outcome `o` is what R54 and R56 ask of an access of width `w` at `a` that raises: the AlignmentFault of a misaligned
one under `MISALIGNED_POLICY = fault`, the DataAbort of one outside `MEMMAP`. -/
def State.takesAccessFaults (st : State) (o : Result) (w : Width) (a : Word) : Prop :=
  (alignedFor w a = false → st.params.misaligned = .fault → st.takes o .alignmentFault a .abt 0x10#32 (st.pc + 8#32)) ∧
  (alignedFor w a = true ∨ (w = .word ∧ st.params.misaligned = .armv4) →
    allMapped st.params (accessed w a) w.bytes = false →
    st.takes o .dataAbort (accessed w a) .abt 0x10#32 (st.pc + 8#32))

/-- An outcome that raises whatever the checks of its access raise. -/
theorem State.takesAccessFaults_of_raise {o : Result} {a : Word}
    (h : ∀ e info, checkAccess st w a = .raises e info → o = raise e info st) : st.takesAccessFaults o w a := by
  refine ⟨fun ha hp => ?misaligned, fun ha hm => ?outside⟩
  case misaligned => rw [h _ _ (checkAccess_misaligned ha hp)]; exact raise_takes rfl
  case outside => rw [h _ _ (checkAccess_outside ha hm)]; exact raise_takes rfl

/-! ## The shared operations -/

theorem loadReg_of_raises {ext : Word → Word} {e : Exc} {info : Word}
    (h : checkAccess st w m.adr = .raises e info) : loadReg w ext rn rd m st = raise e info st := by
  simp [loadReg, loadValue_of_raises h, Access.run]

theorem storeValue_of_raises {v : Word} {e : Exc} {info : Word}
    (h : checkAccess st w m.adr = .raises e info) : storeValue w rn v m st = raise e info st := by
  simp [storeValue, memWrite, h, Access.bind, Access.run]

/-- An instruction whose condition passes and whose restrictions are met is its operation (R301, R324). -/
theorem guarded_checks_pass {c : Cond} {l : List (Bool × Refusal)} {k : Result}
    (hc : condPassed c st.cpsr.flags = true) (hl : ∀ x ∈ l, x.1 = false) : guarded c st (checks l k) = k :=
  (guarded_pass hc).trans (checks_pass hl)

theorem load_takesAccessFaults {c : Cond} {l : List (Bool × Refusal)} {ext : Word → Word}
    (hc : condPassed c st.cpsr.flags = true) (hl : ∀ x ∈ l, x.1 = false) :
    st.takesAccessFaults (guarded c st (checks l (loadReg w ext rn rd m st))) w m.adr :=
  State.takesAccessFaults_of_raise fun _ _ h => (guarded_checks_pass hc hl).trans (loadReg_of_raises h)

theorem store_takesAccessFaults {c : Cond} {l : List (Bool × Refusal)} {v : Word}
    (hc : condPassed c st.cpsr.flags = true) (hl : ∀ x ∈ l, x.1 = false) :
    st.takesAccessFaults (guarded c st (checks l (storeValue w rn v m st))) w m.adr :=
  State.takesAccessFaults_of_raise fun _ _ h => (guarded_checks_pass hc hl).trans (storeValue_of_raises h)

/-! ## The restrictions -/

theorem baseChecks_pass {wb : Bool} (h : baseOk wb rn rd rm) : ∀ x ∈ baseChecks wb rn rd rm, x.1 = false := by
  obtain ⟨hwb, hrm⟩ := h
  cases wb with
  | false => simp [baseChecks, hrm]
  | true =>
    obtain ⟨hpc, hne, hoff⟩ := hwb rfl
    simp [baseChecks, hpc, hne, hoff, hrm]

theorem memChecks_pass {idx : Index} {off : MemOffset} {bad : Bool} {r : Refusal}
    (h : baseOk (writesBack idx) rn rd (memOffsetReg off)) (hbad : bad = false) :
    ∀ x ∈ memChecks idx rn rd off [(bad, r)], x.1 = false := by
  simpa [memChecks, or_imp, forall_and, hbad] using baseChecks_pass h

theorem extraChecks_pass {idx : Index} {off : ExtraOffset} (h : baseOk (writesBack idx) rn rd (extraOffsetReg off))
    (hrd : rd ≠ 15#4) (hsbz : off.sbzOk = true) : ∀ x ∈ extraChecks (.mode idx) rn rd off, x.1 = false := by
  simpa [extraChecks, extraMode, or_imp, forall_and, hrd, hsbz] using baseChecks_pass h

/-- LDR of register 15 keeps its meaning at an aligned address and under `MISALIGNED_POLICY = fault` (R55, R227). -/
theorem pcLoadMisaligned_eq_false {adr : Word}
    (h : rd = 15#4 → alignedFor .word adr = true ∨ st.params.misaligned = .fault) : pcLoadMisaligned rd adr st = false := by
  by_cases hrd : rd = 15#4
  · obtain ha | hp := h hrd
    · have ha : adr.extractLsb' 0 2 = 0#2 := by simpa [alignedFor] using ha
      simp [pcLoadMisaligned, ha]
    · simp [pcLoadMisaligned, hp]
  · simp [pcLoadMisaligned, hrd]

/-- Settles O43: the condition passes and the restrictions are met, so each instruction is its load or its store. -/
theorem accessesRaise : Obligations.AccessesRaise := by
  intro c idx u rn rd off xoff st hc
  refine ⟨fun hb => ⟨fun hpc => ?ldr, fun hpc => ?str, fun hrd => ?byte⟩, fun hrd hb => ?translated,
    fun hrd hb hsbz => ?extra⟩
  case ldr => exact load_takesAccessFaults hc (memChecks_pass hb (pcLoadMisaligned_eq_false hpc))
  case str => exact store_takesAccessFaults hc (memChecks_pass hb (by simpa using hpc))
  case byte =>
    have hl := memChecks_pass (r := .bytePc) hb (decide_eq_false hrd)
    exact ⟨load_takesAccessFaults hc hl, store_takesAccessFaults hc hl⟩
  case translated =>
    have hl := memChecks_pass (idx := .post) (r := .tRdPc) hb (decide_eq_false hrd)
    exact ⟨load_takesAccessFaults hc hl, store_takesAccessFaults hc hl, load_takesAccessFaults hc hl,
      store_takesAccessFaults hc hl⟩
  case extra =>
    have hl := extraChecks_pass hb hrd hsbz
    exact ⟨load_takesAccessFaults hc hl, store_takesAccessFaults hc hl, load_takesAccessFaults hc hl,
      load_takesAccessFaults hc hl⟩

end Sys2Proof.Machine

/-! Reading and writing the fields of a word, bit by bit and field by field. -/

namespace Sys2Proof

section Fields

variable {k : Nat} {b : BitVec k}

/-- A field holds a value if its top bit and the rest of it do. With a literal width this rewrites to single bits. -/
theorem extract_succ_eq_iff {start n : Nat} {v : BitVec (n + 1)} :
    b.extractLsb' start (n + 1) = v ↔ b.getLsbD (start + n) = v.getLsbD n ∧ b.extractLsb' start n = v.setWidth n := by
  simp only [BitVec.eq_of_getLsbD_eq_iff, BitVec.getLsbD_extractLsb', BitVec.getLsbD_setWidth]
  constructor
  · intro h
    exact ⟨by simpa using h n (by omega), fun i hi => by simpa [hi, Nat.lt_succ_of_lt hi] using h i (by omega)⟩
  · rintro ⟨htop, hrest⟩ i hi
    obtain rfl | hlt := Nat.eq_or_lt_of_le (Nat.le_of_lt_succ hi)
    · simpa using htop
    · simpa [hlt, hi] using hrest i hlt

/-- Two fields side by side are one field. -/
theorem cat_extract_adjacent {m n l hi lo : Nat} (hl : m + n = l) (h : lo + n = hi) :
    cat (b.extractLsb' hi m) (b.extractLsb' lo n) hl = b.extractLsb' lo l := by
  subst h hl
  refine BitVec.eq_of_getLsbD_eq fun i hi => ?_
  simp only [bit_cat, BitVec.getLsbD_extractLsb']
  split
  · next h => simp [h, hi]
  · next h => simp [show i - n < m by omega, hi, show lo + n + (i - n) = lo + i by omega]

/-- A bit is a field of width 1. -/
theorem ofBool_getLsbD (b : BitVec k) (i : Nat) : BitVec.ofBool (b.getLsbD i) = b.extractLsb' i 1 := by
  refine BitVec.eq_of_getLsbD_eq fun j hj => ?_
  obtain rfl : j = 0 := by omega
  simp

end Fields

theorem ShiftType.bits_eq {v : BitVec 2} {sh : ShiftType} (h : ShiftType.ofBits v = sh) : v = sh.bits :=
  h ▸ (ShiftType.bits_ofBits v).symm

end Sys2Proof

/-! The formats of 30_encoding.md, read: what stands in each field of a body the encoder writes. -/

namespace Sys2Proof

section Read

theorem dataProcessingBody_get (i : Bool) (cmd : BitVec 4) (s : Bool) (rn rd : Reg) (src2 : BitVec 12) :
    let b := dataProcessingBody i cmd s rn rd src2
    (b.getLsbD 27 = false ∧ b.getLsbD 26 = false ∧ b.getLsbD 25 = i) ∧ b.extractLsb' 23 2 = cmd.extractLsb' 2 2 ∧
    b.extractLsb' 21 4 = cmd ∧ b.getLsbD 20 = s ∧ b.extractLsb' 16 4 = rn ∧ b.extractLsb' 12 4 = rd ∧
    b.extractLsb' 8 4 = src2.extractLsb' 8 4 ∧ b.extractLsb' 0 8 = src2.extractLsb' 0 8 ∧
    b.extractLsb' 7 5 = src2.extractLsb' 7 5 ∧ b.getLsbD 7 = src2.getLsbD 7 ∧
    b.extractLsb' 5 2 = src2.extractLsb' 5 2 ∧ b.getLsbD 4 = src2.getLsbD 4 ∧
    b.extractLsb' 0 4 = src2.extractLsb' 0 4 ∧ b.extractLsb' 0 12 = src2 := by
  simp (disch := decide) [dataProcessingBody, extract_cat_low, extract_cat_high, bit_cat_low, bit_cat_high,
    -BitVec.getLsbD_eq_getElem]

theorem shiftImmBits_get (sh : ShiftType) (n : BitVec 5) (bit4 : Bool) (rm : Reg) :
    let b := shiftImmBits sh n bit4 rm
    b.extractLsb' 7 5 = n ∧ b.extractLsb' 5 2 = sh.bits ∧ b.getLsbD 4 = bit4 ∧ b.extractLsb' 0 4 = rm := by
  simp (disch := decide) [shiftImmBits, extract_cat_low, extract_cat_high, bit_cat_low, bit_cat_high,
    -BitVec.getLsbD_eq_getElem]

theorem shiftRegBits_get (sh : ShiftType) (rs rm : Reg) :
    let b := shiftRegBits sh rs rm
    b.extractLsb' 8 4 = rs ∧ b.getLsbD 7 = false ∧ b.extractLsb' 5 2 = sh.bits ∧ b.getLsbD 4 = true ∧
    b.extractLsb' 0 4 = rm := by
  simp (disch := decide) [shiftRegBits, extract_cat_low, extract_cat_high, bit_cat_low, bit_cat_high,
    -BitVec.getLsbD_eq_getElem]

theorem format1001Body_get (top : BitVec 8) (f19 f15 f11 f3 : BitVec 4) :
    let b := format1001Body top f19 f15 f11 f3
    b.getLsbD 27 = top.getLsbD 7 ∧ b.getLsbD 26 = top.getLsbD 6 ∧ b.getLsbD 25 = top.getLsbD 5 ∧
    b.getLsbD 24 = top.getLsbD 4 ∧ b.getLsbD 23 = top.getLsbD 3 ∧ b.getLsbD 22 = top.getLsbD 2 ∧
    b.extractLsb' 21 3 = top.extractLsb' 1 3 ∧ b.extractLsb' 20 2 = top.extractLsb' 0 2 ∧
    b.getLsbD 20 = top.getLsbD 0 ∧ b.extractLsb' 16 4 = f19 ∧
    b.extractLsb' 12 4 = f15 ∧ b.extractLsb' 8 4 = f11 ∧ b.getLsbD 7 = true ∧ b.extractLsb' 5 2 = 0b00#2 ∧
    b.getLsbD 4 = true ∧ b.extractLsb' 0 4 = f3 := by
  simp (disch := decide) [format1001Body, extract_cat_low, extract_cat_high, bit_cat_low, bit_cat_high,
    -BitVec.getLsbD_eq_getElem]

theorem multiplyTop_get (cmd : BitVec 3) (s : Bool) :
    let t := multiplyTop cmd s
    t.getLsbD 7 = false ∧ t.getLsbD 6 = false ∧ t.getLsbD 5 = false ∧ t.getLsbD 4 = false ∧ t.extractLsb' 1 3 = cmd ∧
    t.getLsbD 0 = s := by
  simp (disch := decide) [multiplyTop, extract_cat_low, extract_cat_high, bit_cat_low, bit_cat_high,
    -BitVec.getLsbD_eq_getElem]

theorem extraBody_get (idx : ExtraIndex) (u l : Bool) (op2 : BitVec 2) (rn rd : Reg) (off : ExtraOffset) :
    let b := extraBody idx u l op2 rn rd off
    b.getLsbD 27 = false ∧ b.getLsbD 26 = false ∧ b.getLsbD 25 = false ∧ b.getLsbD 24 = idx.p ∧ b.getLsbD 23 = u ∧
    b.getLsbD 22 = off.isImm ∧ b.getLsbD 21 = idx.w ∧ b.getLsbD 20 = l ∧ b.extractLsb' 16 4 = rn ∧
    b.extractLsb' 12 4 = rd ∧ b.extractLsb' 8 4 = off.hi ∧ b.getLsbD 7 = true ∧ b.extractLsb' 5 2 = op2 ∧
    b.getLsbD 4 = true ∧ b.extractLsb' 0 4 = off.lo := by
  simp (disch := decide) [extraBody, extract_cat_low, extract_cat_high, bit_cat_low, bit_cat_high,
    -BitVec.getLsbD_eq_getElem]

theorem memoryBody_get (bit4 p w u b l : Bool) (rn rd : Reg) (off : MemOffset) :
    let x := memoryBody bit4 p w u b l rn rd off
    x.getLsbD 27 = false ∧ x.getLsbD 26 = true ∧ x.getLsbD 25 = off.isReg ∧ x.getLsbD 24 = p ∧ x.getLsbD 23 = u ∧
    x.getLsbD 22 = b ∧ x.getLsbD 21 = w ∧ x.getLsbD 20 = l ∧ x.extractLsb' 16 4 = rn ∧ x.extractLsb' 12 4 = rd ∧
    x.extractLsb' 0 12 = off.bits bit4 ∧ x.extractLsb' 7 5 = (off.bits bit4).extractLsb' 7 5 ∧
    x.extractLsb' 5 2 = (off.bits bit4).extractLsb' 5 2 ∧ x.getLsbD 4 = (off.bits bit4).getLsbD 4 ∧
    x.extractLsb' 0 4 = (off.bits bit4).extractLsb' 0 4 := by
  simp (disch := decide) [memoryBody, extract_cat_low, extract_cat_high, bit_cat_low, bit_cat_high,
    -BitVec.getLsbD_eq_getElem]

theorem blockBody_get (top : BitVec 3) (p u s w l : Bool) (rn : BitVec 4) (low : BitVec 16) :
    let b := blockBody top p u s w l rn low
    b.getLsbD 27 = top.getLsbD 2 ∧ b.getLsbD 26 = top.getLsbD 1 ∧ b.getLsbD 25 = top.getLsbD 0 ∧ b.getLsbD 24 = p ∧
    b.getLsbD 23 = u ∧ b.getLsbD 22 = s ∧ b.getLsbD 21 = w ∧ b.getLsbD 20 = l ∧ b.extractLsb' 16 4 = rn ∧
    b.extractLsb' 0 16 = low ∧ b.extractLsb' 12 4 = low.extractLsb' 12 4 ∧ b.extractLsb' 8 4 = low.extractLsb' 8 4 ∧
    b.extractLsb' 0 8 = low.extractLsb' 0 8 := by
  simp (disch := decide) [blockBody, extract_cat_low, extract_cat_high, bit_cat_low, bit_cat_high,
    -BitVec.getLsbD_eq_getElem]

theorem coprocessorBody_get (opc1 crn crd cp : BitVec 4) (opc2 : BitVec 3) (x : Bool) (crm : BitVec 4) :
    let b := coprocessorBody opc1 crn crd cp opc2 x crm
    b.getLsbD 27 = true ∧ b.getLsbD 26 = true ∧ b.getLsbD 25 = true ∧ b.getLsbD 24 = false ∧ b.extractLsb' 20 4 = opc1 ∧
    b.extractLsb' 21 3 = opc1.extractLsb' 1 3 ∧ b.getLsbD 20 = opc1.getLsbD 0 ∧ b.extractLsb' 16 4 = crn ∧
    b.extractLsb' 12 4 = crd ∧ b.extractLsb' 8 4 = cp ∧ b.extractLsb' 5 3 = opc2 ∧ b.getLsbD 4 = x ∧
    b.extractLsb' 0 4 = crm := by
  simp (disch := decide) [coprocessorBody, extract_cat_low, extract_cat_high, bit_cat_low, bit_cat_high,
    -BitVec.getLsbD_eq_getElem]

theorem statusBody_get (r toStatus : Bool) (f19 f15 f11 f3 : BitVec 4) :
    let b := statusBody r toStatus f19 f15 f11 f3
    b.getLsbD 27 = false ∧ b.getLsbD 26 = false ∧ b.getLsbD 25 = false ∧ b.extractLsb' 23 2 = 0b10#2 ∧
    b.getLsbD 22 = r ∧ b.getLsbD 21 = toStatus ∧ b.getLsbD 20 = false ∧ b.extractLsb' 16 4 = f19 ∧
    b.extractLsb' 12 4 = f15 ∧ b.extractLsb' 8 4 = f11 ∧ b.getLsbD 7 = false ∧ b.extractLsb' 4 4 = 0b0000#4 ∧
    b.extractLsb' 0 4 = f3 := by
  simp (disch := decide) [statusBody, extract_cat_low, extract_cat_high, bit_cat_low, bit_cat_high,
    -BitVec.getLsbD_eq_getElem]

theorem statusImmBody_get (r : Bool) (fieldMask sbo rot : BitVec 4) (imm8 : BitVec 8) :
    let b := statusImmBody r fieldMask sbo rot imm8
    b.getLsbD 27 = false ∧ b.getLsbD 26 = false ∧ b.getLsbD 25 = true ∧ b.extractLsb' 23 2 = 0b10#2 ∧
    b.getLsbD 22 = r ∧ b.getLsbD 21 = true ∧ b.getLsbD 20 = false ∧ b.extractLsb' 16 4 = fieldMask ∧
    b.extractLsb' 12 4 = sbo ∧ b.extractLsb' 8 4 = rot ∧ b.extractLsb' 0 8 = imm8 := by
  simp (disch := decide) [statusImmBody, extract_cat_low, extract_cat_high, bit_cat_low, bit_cat_high,
    -BitVec.getLsbD_eq_getElem]

end Read
end Sys2Proof

/-! Decoding what the encoder writes, format by format (30_encoding.md R100). -/

namespace Sys2Proof

section Decode

open Machine (amountSrc2)

variable {bit4 : Bool} {c : Cond}

/-! ## Data processing -/

theorem decodeSrc2_dataProcessingBody (cmd : BitVec 4) (s : Bool) (rn rd : Reg) (op2 : Src2) :
    decodeSrc2 (dataProcessingBody op2.isImm cmd s rn rd op2.bits) = op2 := by
  cases op2 with
  | imm rot imm8 =>
    simp [decodeSrc2, dataProcessingBody_get, Src2.isImm, Src2.bits, extract_cat_low, extract_cat_high]
  | shiftImm sh n rm =>
    simp [decodeSrc2, dataProcessingBody_get, Src2.isImm, Src2.bits, shiftImmBits_get, ShiftType.ofBits_bits,
      -BitVec.getLsbD_eq_getElem]
  | shiftReg sh rs rm =>
    simp [decodeSrc2, dataProcessingBody_get, Src2.isImm, Src2.bits, shiftRegBits_get, ShiftType.ofBits_bits,
      -BitVec.getLsbD_eq_getElem]

/-- No Src2 looks like a multiply or an extra access: an immediate has bit 25, a constant shift no bit 4, a register
shift no bit 7 (R85 to R88). -/
theorem Src2.not_bits_7_4 (op2 : Src2) : (!op2.isImm && op2.bits.getLsbD 7 && op2.bits.getLsbD 4) = false := by
  cases op2 with
  | imm => rfl
  | shiftImm => simp [Src2.bits, shiftImmBits_get, -BitVec.getLsbD_eq_getElem]
  | shiftReg => simp [Src2.bits, shiftRegBits_get, -BitVec.getLsbD_eq_getElem]

/-- A body of the data-processing format goes to the cmd map, but for cmd 10xx with S = 0 (R100). -/
theorem decodeBody_dataProcessingBody {cmd : BitVec 4} {s : Bool} (h : cmd.extractLsb' 2 2 ≠ 0b10#2 ∨ s = true)
    (rn rd : Reg) (op2 : Src2) :
    let b := dataProcessingBody op2.isImm cmd s rn rd op2.bits
    decodeBody bit4 c b = decodeDataProcessing c b := by
  have hcmp : (decide (cmd.extractLsb' 2 2 = 0b10#2) && !s) = false := by
    obtain h | h := h <;> simp [h]
  simp [decodeBody, dataProcessingBody_get, op2.not_bits_7_4, hcmp, -BitVec.getLsbD_eq_getElem]

/-- The instruction that the sub-map of cmd 1101 gives a Src2 (R103). -/
def moveInstr (c : Cond) (s : Bool) (sbz : BitVec 4) (rd : Reg) : Src2 → Instr
  | .imm rot imm8 => .mov c s sbz rd (.imm rot imm8)
  | .shiftImm .lsl n rm => if n = 0#5 then .mov c s sbz rd (.reg rm) else .lsl c s sbz rd (.imm n) rm
  | .shiftImm .lsr n rm => .lsr c s sbz rd (.imm n) rm
  | .shiftImm .asr n rm => .asr c s sbz rd (.imm n) rm
  | .shiftImm .ror n rm => if n = 0#5 then .rrx c s sbz rd rm else .ror c s sbz rd (.imm n) rm
  | .shiftReg .lsl rs rm => .lsl c s sbz rd (.reg rs) rm
  | .shiftReg .lsr rs rm => .lsr c s sbz rd (.reg rs) rm
  | .shiftReg .asr rs rm => .asr c s sbz rd (.reg rs) rm
  | .shiftReg .ror rs rm => .ror c s sbz rd (.reg rs) rm

/-- The sub-map of cmd 1101 by the Src2 of the body, NOP apart (R103, R113). -/
theorem decodeMove_eq {b : BitVec 28} (h : b ≠ 0x1A00000#28) :
    decodeMove c b = moveInstr c (b.getLsbD 20) (b.extractLsb' 16 4) (b.extractLsb' 12 4) (decodeSrc2 b) := by
  rw [decodeMove, if_neg h, decodeSrc2]
  split
  · rfl
  · split <;> split <;> next hsh => rw [hsh]; rfl

/-- The one body of the data-processing format that is NOP's (R113). -/
theorem eq_nop_of_body {s : Bool} {sbz : BitVec 4} {rd : Reg} {op2 : Src2}
    (h : dataProcessingBody op2.isImm 0b1101#4 s sbz rd op2.bits = 0x1A00000#28) :
    s = false ∧ sbz = 0#4 ∧ rd = 0#4 ∧ op2 = .shiftImm .lsl 0#5 0#4 := by
  have hget := dataProcessingBody_get op2.isImm 0b1101#4 s sbz rd op2.bits
  have hsrc := decodeSrc2_dataProcessingBody 0b1101#4 s sbz rd op2
  simp only [h] at hget hsrc
  obtain ⟨-, -, -, hs, hsbz, hrd, -⟩ := hget
  exact ⟨hs.symm, hsbz.symm, hrd.symm, hsrc.symm⟩

theorem decodeBody_move {s : Bool} {sbz : BitVec 4} {rd : Reg} {op2 : Src2}
    (h : ¬(s = false ∧ sbz = 0#4 ∧ rd = 0#4 ∧ op2 = .shiftImm .lsl 0#5 0#4)) :
    decodeBody bit4 c (dataProcessingBody op2.isImm 0b1101#4 s sbz rd op2.bits) = moveInstr c s sbz rd op2 := by
  have hnop := mt eq_nop_of_body h
  simp [decodeBody_dataProcessingBody, decodeDataProcessing, dataProcessingBody_get, decodeMove_eq hnop,
    decodeSrc2_dataProcessingBody, -BitVec.getLsbD_eq_getElem]

/-- A shift decodes by its amount, where it does not spell NOP (R103, R113). -/
theorem decodeBody_shift {s : Bool} {sbz : BitVec 4} {rd : Reg} {sh : ShiftType} {amt : ShiftAmount} {rm : Reg}
    (h : sh ≠ .lsl ∨ amt.nonzero = true) :
    decodeBody bit4 c (dataProcessingBody false 0b1101#4 s sbz rd (amt.bits sh rm)) =
      moveInstr c s sbz rd (amountSrc2 sh rm amt) := by
  cases amt with
  | imm n =>
    refine decodeBody_move (op2 := .shiftImm sh n rm) ?_
    obtain h | h := h
    · simp [h]
    · have hn : n ≠ 0#5 := by simpa [ShiftAmount.nonzero] using h
      simp [hn]
  | reg rs => exact decodeBody_move (op2 := .shiftReg sh rs rm) (by simp)

theorem moveInstr_lsl {s : Bool} {sbz : BitVec 4} {rd : Reg} {amt : ShiftAmount} {rm : Reg} (h : amt.nonzero = true) :
    moveInstr c s sbz rd (amountSrc2 .lsl rm amt) = .lsl c s sbz rd amt rm := by
  cases amt with
  | imm n => exact if_neg (by simpa [ShiftAmount.nonzero] using h)
  | reg rs => rfl

theorem moveInstr_ror {s : Bool} {sbz : BitVec 4} {rd : Reg} {amt : ShiftAmount} {rm : Reg} (h : amt.nonzero = true) :
    moveInstr c s sbz rd (amountSrc2 .ror rm amt) = .ror c s sbz rd amt rm := by
  cases amt with
  | imm n => exact if_neg (by simpa [ShiftAmount.nonzero] using h)
  | reg rs => rfl

/-! ## Multiplies and swaps -/

theorem decodeBody_format1001Body {top : BitVec 8} (h7 : top.getLsbD 7 = false) (h6 : top.getLsbD 6 = false)
    (h5 : top.getLsbD 5 = false) (f19 f15 f11 f3 : BitVec 4) :
    let b := format1001Body top f19 f15 f11 f3
    decodeBody bit4 c b = decode1001 c b := by
  simp [decodeBody, format1001Body_get, h7, h6, h5, -BitVec.getLsbD_eq_getElem]

/-! ## Extra memory -/

/-- The P and W bits of an extra memory body, as a mode (R221, R223). -/
def extraIndexOf (b : BitVec 28) : ExtraIndex :=
  if b.getLsbD 24 then (if b.getLsbD 21 then .mode .pre else .mode .offset)
  else (if b.getLsbD 21 then .p0w1 else .mode .post)

/-- The offset of an extra memory body (R94). -/
def extraOffsetOf (b : BitVec 28) : ExtraOffset :=
  if b.getLsbD 22 then .imm (cat (b.extractLsb' 8 4) (b.extractLsb' 0 4))
  else .reg (b.extractLsb' 8 4) (b.extractLsb' 0 4)

theorem decodeExtra_eq (c : Cond) (b : BitVec 28) :
    decodeExtra c b =
      if b.getLsbD 20 then
        if b.extractLsb' 5 2 = 0b01#2 then
          .ldrh c (extraIndexOf b) (b.getLsbD 23) (b.extractLsb' 16 4) (b.extractLsb' 12 4) (extraOffsetOf b)
        else if b.extractLsb' 5 2 = 0b10#2 then
          .ldrsb c (extraIndexOf b) (b.getLsbD 23) (b.extractLsb' 16 4) (b.extractLsb' 12 4) (extraOffsetOf b)
        else .ldrsh c (extraIndexOf b) (b.getLsbD 23) (b.extractLsb' 16 4) (b.extractLsb' 12 4) (extraOffsetOf b)
      else if b.extractLsb' 5 2 = 0b01#2 then
        .strh c (extraIndexOf b) (b.getLsbD 23) (b.extractLsb' 16 4) (b.extractLsb' 12 4) (extraOffsetOf b)
      else .reservedExtraStoreSigned c b := rfl

@[simp] theorem extraIndexOf_extraBody (idx : ExtraIndex) (u l : Bool) (op2 : BitVec 2) (rn rd : Reg)
    (off : ExtraOffset) : extraIndexOf (extraBody idx u l op2 rn rd off) = idx := by
  simp only [extraIndexOf, extraBody_get]
  cases idx with
  | mode idx => cases idx <;> rfl
  | p0w1 => rfl

@[simp] theorem extraOffsetOf_extraBody (idx : ExtraIndex) (u l : Bool) (op2 : BitVec 2) (rn rd : Reg)
    (off : ExtraOffset) : extraOffsetOf (extraBody idx u l op2 rn rd off) = off := by
  simp only [extraOffsetOf, extraBody_get]
  cases off with
  | imm imm8 => exact congrArg ExtraOffset.imm (cat_extract 4 4 imm8 rfl)
  | reg sbz rm => rfl

theorem decodeBody_extraBody {op2 : BitVec 2} (h : op2 ≠ 0b00#2) (idx : ExtraIndex) (u l : Bool) (rn rd : Reg)
    (off : ExtraOffset) :
    let b := extraBody idx u l op2 rn rd off
    decodeBody bit4 c b = decodeExtra c b := by
  simp [decodeBody, extraBody_get, h, -BitVec.getLsbD_eq_getElem]

/-! ## Memory -/

/-- The P and W bits of a memory body, as a mode (R223). -/
def memIndexOf (b : BitVec 28) : Index :=
  if b.getLsbD 24 then (if b.getLsbD 21 then .pre else .offset) else .post

/-- The offset of a memory body (R91, R92). -/
def memOffsetOf (b : BitVec 28) : MemOffset :=
  if b.getLsbD 25 then .reg (.ofBits (b.extractLsb' 5 2)) (b.extractLsb' 7 5) (b.extractLsb' 0 4)
  else .imm (b.extractLsb' 0 12)

theorem decodeMemory_eq (bit4 : Bool) (c : Cond) (b : BitVec 28) :
    let u := b.getLsbD 23
    let rn := b.extractLsb' 16 4
    let rd := b.extractLsb' 12 4
    let off := memOffsetOf b
    let idx := memIndexOf b
    decodeMemory bit4 c b =
      if b.getLsbD 25 && b.getLsbD 4 != bit4 then .reservedUndefinedSpace c b
      else if !b.getLsbD 24 && b.getLsbD 21 then
        if b.getLsbD 22 then (if b.getLsbD 20 then .ldrbt c u rn rd off else .strbt c u rn rd off)
        else (if b.getLsbD 20 then .ldrt c u rn rd off else .strt c u rn rd off)
      else
        if b.getLsbD 22 then (if b.getLsbD 20 then .ldrb c idx u rn rd off else .strb c idx u rn rd off)
        else (if b.getLsbD 20 then .ldr c idx u rn rd off else .str c idx u rn rd off) := rfl

@[simp] theorem memIndexOf_memoryBody (bit4 : Bool) (idx : Index) (u b l : Bool) (rn rd : Reg) (off : MemOffset) :
    memIndexOf (memoryBody bit4 idx.p idx.w u b l rn rd off) = idx := by
  simp only [memIndexOf, memoryBody_get]
  cases idx <;> rfl

@[simp] theorem memOffsetOf_memoryBody (bit4 p w u b l : Bool) (rn rd : Reg) (off : MemOffset) :
    memOffsetOf (memoryBody bit4 p w u b l rn rd off) = off := by
  simp only [memOffsetOf, memoryBody_get]
  cases off with
  | imm imm12 => rfl
  | reg sh n rm => simp [MemOffset.isReg, MemOffset.bits, shiftImmBits_get, ShiftType.ofBits_bits]

/-- No mode is P = 0 with W = 1, which spells the T variants (R97, R223). -/
theorem Index.not_translated (idx : Index) : (!idx.p && idx.w) = false := by cases idx <;> rfl

/-- A register offset the encoder writes has `MEM_REG_BIT4` in bit 4 (R92). -/
theorem MemOffset.bit4_bits (bit4 : Bool) (off : MemOffset) :
    (off.isReg && (off.bits bit4).getLsbD 4 != bit4) = false := by
  cases off with
  | imm => rfl
  | reg => simp [MemOffset.bits, shiftImmBits_get, -BitVec.getLsbD_eq_getElem]

theorem decodeBody_memoryBody (p w u b l : Bool) (rn rd : Reg) (off : MemOffset) :
    let x := memoryBody bit4 p w u b l rn rd off
    decodeBody bit4 c x = decodeMemory bit4 c x := by
  simp [decodeBody, memoryBody_get, -BitVec.getLsbD_eq_getElem]

/-! ## The reserved words -/

theorem decodeBody_multiplyCmd {w : BitVec 28} (h : isMultiplyCmdWord w = true) :
    decodeBody bit4 c w = .reservedMultiplyCmd c w := by
  obtain ⟨h22, h4⟩ : w.extractLsb' 22 6 = 0b000001#6 ∧ w.extractLsb' 4 4 = 0b1001#4 := by
    simpa [isMultiplyCmdWord] using h
  simp_all [decodeBody, decode1001, extract_succ_eq_iff]

/-- Bit 23 or bits 21:20 keep the word apart from the swaps. -/
theorem decodeBody_op001001 {w : BitVec 28} (h : isOp001001Word w = true) :
    decodeBody bit4 c w = .reservedOp001001 c w := by
  obtain ⟨⟨h24, h4⟩, hswap⟩ : (w.extractLsb' 24 4 = 0b0001#4 ∧ w.extractLsb' 4 4 = 0b1001#4) ∧
      (w.getLsbD 23 = false → w.extractLsb' 20 2 ≠ 0b00#2) := by
    simpa [isOp001001Word, ← imp_iff_or_not, or_comm, imp_iff_not_or] using h
  simp_all [decodeBody, decode1001, extract_succ_eq_iff]

theorem decodeBody_extraStoreSigned {w : BitVec 28} (h : isExtraStoreSignedWord w = true) :
    decodeBody bit4 c w = .reservedExtraStoreSigned c w := by
  obtain ⟨⟨⟨h25, h20⟩, h6⟩, h4⟩ : ((w.extractLsb' 25 3 = 0b000#3 ∧ w.getLsbD 20 = false) ∧
      w.extractLsb' 6 2 = 0b11#2) ∧ w.getLsbD 4 = true := by
    simpa [isExtraStoreSignedWord] using h
  simp_all [decodeBody, decodeExtra, extract_succ_eq_iff]

/-- The last conjuncts of the word keep it apart from a multiply, from MRS and from MSR. -/
theorem decodeBody_dpCompareS0 {w : BitVec 28} (h : isDpCompareS0Word w = true) :
    decodeBody bit4 c w = .reservedDpCompareS0 c w := by
  obtain ⟨⟨⟨⟨⟨htop, h23⟩, h20⟩, hsrc⟩, hmrs⟩, hmsr⟩ :
      ((((w.extractLsb' 26 2 = 0b00#2 ∧ w.extractLsb' 23 2 = 0b10#2) ∧ w.getLsbD 20 = false) ∧
      (!w.getLsbD 25 && w.getLsbD 7 && w.getLsbD 4) = false) ∧
      (!w.getLsbD 25 && !w.getLsbD 21 && w.extractLsb' 4 4 = 0b0000#4) = false) ∧
      (w.getLsbD 21 && (w.getLsbD 25 || w.extractLsb' 4 4 = 0b0000#4)) = false := by
    simpa [isDpCompareS0Word, imp_iff_not_or, or_assoc] using h
  obtain ⟨h27, h26⟩ : w.getLsbD 27 = false ∧ w.getLsbD 26 = false := by simpa [extract_succ_eq_iff] using htop
  rw [Bool.and_or_distrib_left, Bool.or_eq_false_iff] at hmsr
  simp only [decodeBody, decodeCompareS0, h27, h26, h23, h20, hsrc, hmrs, hmsr]
  rfl

theorem decodeBody_undefinedSpace {w : BitVec 28} (h : isUndefinedSpaceWord bit4 w = true) :
    decodeBody bit4 c w = .reservedUndefinedSpace c w := by
  obtain ⟨h25, h4⟩ : w.extractLsb' 25 3 = 0b011#3 ∧ w.getLsbD 4 ≠ bit4 := by
    simpa [isUndefinedSpaceWord] using h
  simp_all [decodeBody, decodeMemory, extract_succ_eq_iff]

/-! ## Every instruction -/

/-- The body of a canonical instruction decodes to it under its condition. -/
theorem decodeBody_body {i : Instr} (hcond : i.cond = some c) (h : i.canonical bit4 = true) :
    decodeBody bit4 c (i.body bit4) = i := by
  cases i with
  | reservedCond1111 => cases hcond
  | reservedMultiplyCmd => cases hcond; exact decodeBody_multiplyCmd h
  | reservedOp001001 => cases hcond; exact decodeBody_op001001 h
  | reservedExtraStoreSigned => cases hcond; exact decodeBody_extraStoreSigned h
  | reservedDpCompareS0 => cases hcond; exact decodeBody_dpCompareS0 h
  | reservedUndefinedSpace => cases hcond; exact decodeBody_undefinedSpace h
  | nop => cases hcond; simp [Instr.body, decodeBody, decodeDataProcessing, decodeMove]
  | and | eor | sub | rsb | add | adc | sbc | rsc | tst | teq | cmp | cmn | orr | bic | mvn =>
    cases hcond
    simp [Instr.body, decodeBody_dataProcessingBody, decodeDataProcessing, decodeSrc2_dataProcessingBody,
      dataProcessingBody_get, -BitVec.getLsbD_eq_getElem]
  | mov _ s sbz rd src =>
    cases hcond
    cases src with
    | imm rot imm8 => exact decodeBody_move (op2 := .imm rot imm8) (by simp)
    | reg rm => exact decodeBody_move (op2 := .shiftImm .lsl 0#5 rm) (by rintro ⟨rfl, rfl, rfl, ⟨⟩⟩; cases h)
  | lsl _ s sbz rd amt rm => cases hcond; exact (decodeBody_shift (.inr h)).trans (moveInstr_lsl h)
  | lsr _ s sbz rd amt rm => cases hcond; exact (decodeBody_shift (.inl (by decide))).trans (by cases amt <;> rfl)
  | asr _ s sbz rd amt rm => cases hcond; exact (decodeBody_shift (.inl (by decide))).trans (by cases amt <;> rfl)
  | ror _ s sbz rd amt rm => cases hcond; exact (decodeBody_shift (.inr h)).trans (moveInstr_ror h)
  | rrx _ s sbz rd rm => cases hcond; exact decodeBody_move (op2 := .shiftImm .ror 0#5 rm) (by simp)
  | mul | mla | umull | umlal | smull | smlal =>
    cases hcond
    simp [Instr.body, decodeBody_format1001Body, decode1001, format1001Body_get, multiplyTop_get,
      -BitVec.getLsbD_eq_getElem]
  | swp | swpb =>
    cases hcond
    simp [Instr.body, decodeBody_format1001Body, decode1001, format1001Body_get, -BitVec.getLsbD_eq_getElem]
  | strh | ldrh | ldrsb | ldrsh =>
    cases hcond
    simp [Instr.body, decodeBody_extraBody, decodeExtra_eq, extraBody_get, -BitVec.getLsbD_eq_getElem]
  | str | ldr | strb | ldrb =>
    cases hcond
    simp [Instr.body, decodeBody_memoryBody, decodeMemory_eq, memoryBody_get, MemOffset.bit4_bits,
      Index.not_translated, -BitVec.getLsbD_eq_getElem]
  | strt | ldrt | strbt | ldrbt =>
    cases hcond
    simp [Instr.body, decodeBody_memoryBody, decodeMemory_eq, memoryBody_get, MemOffset.bit4_bits,
      -BitVec.getLsbD_eq_getElem]
  | mrs =>
    cases hcond
    simp [Instr.body, decodeBody, decodeCompareS0, statusBody_get, -BitVec.getLsbD_eq_getElem]
  | msr _ r mask sbo operand =>
    cases hcond
    cases operand with
    | reg sbz rm => simp [Instr.body, decodeBody, decodeCompareS0, statusBody_get, -BitVec.getLsbD_eq_getElem]
    | imm rot imm8 => simp [Instr.body, decodeBody, decodeCompareS0, statusImmBody_get, -BitVec.getLsbD_eq_getElem]
  | stm | ldm =>
    cases hcond
    simp [Instr.body, decodeBody, decodeBranchOrBlock, blockBody_get, -BitVec.getLsbD_eq_getElem]
  | stc | ldc =>
    cases hcond
    simp [Instr.body, decodeBody, decodeOp11, blockBody_get, extract_cat_low, extract_cat_high,
      -BitVec.getLsbD_eq_getElem]
  | cdp =>
    cases hcond
    simp [Instr.body, decodeBody, decodeOp11, coprocessorBody_get, -BitVec.getLsbD_eq_getElem]
  | mcr | mrc =>
    cases hcond
    simp [Instr.body, decodeBody, decodeOp11, coprocessorBody_get, extract_cat_high, bit_cat_low,
      -BitVec.getLsbD_eq_getElem]
  | b | bl =>
    cases hcond
    simp [Instr.body, decodeBody, decodeBranchOrBlock, extract_cat_low, bit_cat_high, -BitVec.getLsbD_eq_getElem]
  | swi =>
    cases hcond
    simp [Instr.body, decodeBody, decodeOp11, extract_cat_low, bit_cat_high, -BitVec.getLsbD_eq_getElem]

theorem decodeWord_of_cond {w : Word} (h : Cond.ofBits (w.extractLsb' 28 4) = some c) :
    decodeWord bit4 w = decodeBody bit4 c (w.extractLsb' 0 28) := by
  simp [decodeWord, h]

theorem decodeWord_of_no_cond {w : Word} (h : Cond.ofBits (w.extractLsb' 28 4) = none) :
    decodeWord bit4 w = .reservedCond1111 (w.extractLsb' 0 28) := by
  simp [decodeWord, h]

theorem encodeWord_body (bit4 : Bool) (i : Instr) : (encodeWord bit4 i).extractLsb' 0 28 = i.body bit4 := by
  rw [encodeWord, extract_cat_low _ _ _ (by decide), extract_full]

theorem Instr.condBits_of_some {i : Instr} (h : i.cond = some c) : i.condBits = c.bits := by
  simp [Instr.condBits, h]

/-- Only a word with cond = 1111 carries no condition (R112). -/
theorem Instr.cond_eq_none {i : Instr} (h : i.cond = none) : ∃ w, i = .reservedCond1111 w := by
  cases i with
  | reservedCond1111 w => exact ⟨w, rfl⟩
  | _ => cases h

/-- A word of the encoder decodes to the instruction it was written from, if that is canonical (R100). -/
theorem decodeWord_encodeWord {i : Instr} (h : i.canonical bit4 = true) : decodeWord bit4 (encodeWord bit4 i) = i := by
  have hbits := Laws.CondField.of_encode i bit4
  cases hcond : i.cond with
  | some c =>
    have hc : Cond.ofBits ((encodeWord bit4 i).extractLsb' 28 4) = some c := by
      rw [hbits, Instr.condBits_of_some hcond, Cond.ofBits_bits]
    rw [decodeWord_of_cond hc, encodeWord_body, decodeBody_body hcond h]
  | none =>
    obtain ⟨w, rfl⟩ := Instr.cond_eq_none hcond
    rw [decodeWord_of_no_cond (hbits ▸ rfl), encodeWord_body, Instr.body]

/-- Settles O1: the bytes are those of the instruction's word, whose body decodes by its format. -/
theorem encodeThenDecode : Obligations.EncodeThenDecode := by
  intro bit4 i rest h
  rw [encode, decode_bytesOfWord, decodeWord_encodeWord h]

end Decode

end Sys2Proof

/-! The formats of 30_encoding.md, written: a body of a format is its fields put together. -/

namespace Sys2Proof

section Write

variable {b : BitVec 28}

theorem dataProcessingBody_eq {i : Bool} {cmd : BitVec 4} {s : Bool} {rn rd : Reg} {src2 : BitVec 12}
    (htop : b.extractLsb' 26 2 = 0b00#2) (hi : b.getLsbD 25 = i) (hcmd : b.extractLsb' 21 4 = cmd)
    (hs : b.getLsbD 20 = s) (hrn : b.extractLsb' 16 4 = rn) (hrd : b.extractLsb' 12 4 = rd)
    (hsrc : b.extractLsb' 0 12 = src2) : dataProcessingBody i cmd s rn rd src2 = b := by
  subst hi hcmd hs hrn hrd hsrc
  simp (disch := decide) only [dataProcessingBody, ← htop, ofBool_getLsbD, cat_extract_adjacent, extract_full]

theorem shiftImmBits_eq {sh : ShiftType} {n : BitVec 5} {bit4 : Bool} (hn : b.extractLsb' 7 5 = n)
    (hsh : b.extractLsb' 5 2 = sh.bits) (h4 : b.getLsbD 4 = bit4) :
    shiftImmBits sh n bit4 (b.extractLsb' 0 4) = b.extractLsb' 0 12 := by
  subst hn h4
  simp (disch := decide) only [shiftImmBits, ← hsh, ofBool_getLsbD, cat_extract_adjacent]

theorem shiftRegBits_eq {sh : ShiftType} (h7 : b.extractLsb' 7 1 = 0b0#1)
    (hsh : b.extractLsb' 5 2 = sh.bits) (h4 : b.extractLsb' 4 1 = 0b1#1) :
    shiftRegBits sh (b.extractLsb' 8 4) (b.extractLsb' 0 4) = b.extractLsb' 0 12 := by
  simp (disch := decide) only [shiftRegBits, ← h7, ← hsh, ← h4, cat_extract_adjacent]

theorem format1001Body_eq {top : BitVec 8} (htop : b.extractLsb' 20 8 = top) (h7 : b.extractLsb' 4 4 = 0b1001#4) :
    format1001Body top (b.extractLsb' 16 4) (b.extractLsb' 12 4) (b.extractLsb' 8 4) (b.extractLsb' 0 4) = b := by
  subst htop
  simp (disch := decide) only [format1001Body, ← h7, cat_extract_adjacent, extract_full]

theorem multiplyTop_eq {cmd : BitVec 3} (htop : b.extractLsb' 24 4 = 0b0000#4) (hcmd : b.extractLsb' 21 3 = cmd) :
    b.extractLsb' 20 8 = multiplyTop cmd (b.getLsbD 20) := by
  subst hcmd
  simp (disch := decide) only [multiplyTop, ← htop, ofBool_getLsbD, cat_extract_adjacent]

theorem extraBody_eq {idx : ExtraIndex} {l : Bool} {op2 : BitVec 2} {off : ExtraOffset}
    (htop : b.extractLsb' 25 3 = 0b000#3) (hp : b.getLsbD 24 = idx.p) (hi : b.getLsbD 22 = off.isImm)
    (hw : b.getLsbD 21 = idx.w) (hl : b.getLsbD 20 = l) (hhi : b.extractLsb' 8 4 = off.hi)
    (h7 : b.extractLsb' 7 1 = 0b1#1) (hop2 : b.extractLsb' 5 2 = op2) (h4 : b.extractLsb' 4 1 = 0b1#1)
    (hlo : b.extractLsb' 0 4 = off.lo) :
    extraBody idx (b.getLsbD 23) l op2 (b.extractLsb' 16 4) (b.extractLsb' 12 4) off = b := by
  subst hl hop2
  rw [extraBody, ← htop, ← hp, ← hi, ← hw, ← hhi, ← hlo]
  nth_rewrite 1 [← h7]
  rw [← h4]
  simp (disch := decide) only [ofBool_getLsbD, cat_extract_adjacent, extract_full]

theorem memoryBody_eq {bit4 p w x l : Bool} {off : MemOffset} (htop : b.extractLsb' 26 2 = 0b01#2)
    (hi : b.getLsbD 25 = off.isReg) (hp : b.getLsbD 24 = p) (hx : b.getLsbD 22 = x) (hw : b.getLsbD 21 = w)
    (hl : b.getLsbD 20 = l) (hoff : b.extractLsb' 0 12 = off.bits bit4) :
    memoryBody bit4 p w (b.getLsbD 23) x l (b.extractLsb' 16 4) (b.extractLsb' 12 4) off = b := by
  subst hp hx hw hl
  simp (disch := decide) only [memoryBody, ← htop, ← hi, ← hoff, ofBool_getLsbD, cat_extract_adjacent, extract_full]

theorem blockBody_eq {top : BitVec 3} {l : Bool} {low : BitVec 16} (htop : b.extractLsb' 25 3 = top)
    (hl : b.getLsbD 20 = l) (hlow : b.extractLsb' 0 16 = low) :
    blockBody top (b.getLsbD 24) (b.getLsbD 23) (b.getLsbD 22) (b.getLsbD 21) l (b.extractLsb' 16 4) low = b := by
  subst htop hl hlow
  simp (disch := decide) only [blockBody, ofBool_getLsbD, cat_extract_adjacent, extract_full]

theorem coprocessorBody_eq {opc1 : BitVec 4} {x : Bool} (htop : b.extractLsb' 24 4 = 0b1110#4)
    (hopc1 : b.extractLsb' 20 4 = opc1) (hx : b.getLsbD 4 = x) :
    coprocessorBody opc1 (b.extractLsb' 16 4) (b.extractLsb' 12 4) (b.extractLsb' 8 4) (b.extractLsb' 5 3) x
      (b.extractLsb' 0 4) = b := by
  subst hopc1 hx
  simp (disch := decide) only [coprocessorBody, ← htop, ofBool_getLsbD, cat_extract_adjacent, extract_full]

theorem statusBody_eq {w : Bool} (htop : b.extractLsb' 23 5 = 0b00010#5) (hw : b.getLsbD 21 = w)
    (h20 : b.extractLsb' 20 1 = 0b0#1) (h7 : b.extractLsb' 4 4 = 0b0000#4) :
    statusBody (b.getLsbD 22) w (b.extractLsb' 16 4) (b.extractLsb' 12 4) (b.extractLsb' 8 4)
      (b.extractLsb' 0 4) = b := by
  subst hw
  simp (disch := decide) only [statusBody, ← htop, ← h20, ← h7, ofBool_getLsbD, cat_extract_adjacent, extract_full]

theorem statusImmBody_eq (htop : b.extractLsb' 23 5 = 0b00110#5) (h21 : b.extractLsb' 20 2 = 0b10#2) :
    statusImmBody (b.getLsbD 22) (b.extractLsb' 16 4) (b.extractLsb' 12 4) (b.extractLsb' 8 4)
      (b.extractLsb' 0 8) = b := by
  simp (disch := decide) only [statusImmBody, ← htop, ← h21, ofBool_getLsbD, cat_extract_adjacent, extract_full]

end Write
end Sys2Proof

/-! Encoding what the decoder gives: each format's decoder names its body (30_encoding.md R100, R103, R110). -/

namespace Sys2Proof

/-- `i` is the name of body `b` under condition `c`: canonical, and written as `b`. -/
structure Instr.Names (bit4 : Bool) (c : Cond) (b : BitVec 28) (i : Instr) : Prop where
  cond : i.cond = some c
  body : i.body bit4 = b
  canonical : i.canonical bit4 = true

section Encode

variable {bit4 : Bool} {c : Cond} {b : BitVec 28}

theorem Instr.Names.ite {p : Prop} [Decidable p] {i j : Instr} (hi : p → i.Names bit4 c b)
    (hj : ¬p → j.Names bit4 c b) : (if p then i else j).Names bit4 c b := by
  split
  · next h => exact hi h
  · next h => exact hj h

theorem Instr.Names.iteBool {x : Bool} {i j : Instr} (hi : x = true → i.Names bit4 c b)
    (hj : x = false → j.Names bit4 c b) : (if x then i else j).Names bit4 c b :=
  .ite hi fun h => hj (eq_false_of_ne_true h)

/-! ## Data processing -/

theorem decodeSrc2_isImm (b : BitVec 28) : b.getLsbD 25 = (decodeSrc2 b).isImm := by
  unfold decodeSrc2
  split_ifs with h25
  · exact h25
  · exact eq_false_of_ne_true h25
  · exact eq_false_of_ne_true h25

theorem decodeSrc2_bits (h : ¬(!b.getLsbD 25 && b.getLsbD 7 && b.getLsbD 4) = true) :
    b.extractLsb' 0 12 = (decodeSrc2 b).bits := by
  unfold decodeSrc2
  have hsh := ShiftType.bits_eq (v := b.extractLsb' 5 2) rfl
  split_ifs with h25 h4
  · exact (cat_extract_adjacent _ rfl).symm
  · exact (shiftRegBits_eq (by simp_all [extract_succ_eq_iff]) hsh (by simp_all [extract_succ_eq_iff])).symm
  · exact (shiftImmBits_eq rfl hsh (eq_false_of_ne_true h4)).symm

theorem moveInstr_body {s : Bool} {sbz : BitVec 4} {rd : Reg} {op2 : Src2} :
    (moveInstr c s sbz rd op2).body bit4 = dataProcessingBody op2.isImm 0b1101#4 s sbz rd op2.bits := by
  cases op2 with
  | imm rot imm8 => rfl
  | shiftReg sh rs rm => cases sh <;> rfl
  | shiftImm sh n rm =>
    cases sh with
    | lsl | ror => by_cases hn : n = 0#5 <;> simp [moveInstr, hn] <;> rfl
    | lsr | asr => rfl

theorem moveInstr_canonical {s : Bool} {sbz : BitVec 4} {rd : Reg} {op2 : Src2}
    (h : ¬(s = false ∧ sbz = 0#4 ∧ rd = 0#4 ∧ op2 = .shiftImm .lsl 0#5 0#4)) :
    (moveInstr c s sbz rd op2).canonical bit4 = true := by
  cases op2 with
  | imm rot imm8 => simp [moveInstr, Instr.canonical]
  | shiftReg sh rs rm => cases sh <;> rfl
  | shiftImm sh n rm =>
    cases sh with
    | lsl =>
      by_cases hn : n = 0#5
      · subst hn
        simpa [moveInstr, Instr.canonical, imp_iff_not_or, or_assoc] using h
      · simp [moveInstr, hn, Instr.canonical, ShiftAmount.nonzero]
    | ror => by_cases hn : n = 0#5 <;> simp [moveInstr, hn, Instr.canonical, ShiftAmount.nonzero]
    | lsr | asr => rfl

theorem moveInstr_cond {s : Bool} {sbz : BitVec 4} {rd : Reg} {op2 : Src2} :
    (moveInstr c s sbz rd op2).cond = some c := by
  unfold moveInstr; split <;> first | rfl | (split <;> rfl)

theorem decodeMove_names (hbody : dataProcessingBody (decodeSrc2 b).isImm 0b1101#4 (b.getLsbD 20) (b.extractLsb' 16 4)
      (b.extractLsb' 12 4) (decodeSrc2 b).bits = b) : (decodeMove c b).Names bit4 c b := by
  by_cases hnop : b = 0x1A00000#28
  · rw [decodeMove, if_pos hnop]; exact ⟨rfl, hnop.symm, rfl⟩
  · rw [decodeMove_eq hnop]
    refine ⟨moveInstr_cond, moveInstr_body.trans hbody, moveInstr_canonical ?_⟩
    rintro ⟨hs, hsbz, hrd, hsrc⟩
    rw [hs, hsbz, hrd, hsrc] at hbody
    exact hnop hbody.symm

/-- Outside the space of MRS and MSR a comparison has S = 1 (R100, R110 row 2). -/
theorem getLsbD_20_of_compare {cmd : BitVec 4} (hcmp : ¬(b.extractLsb' 23 2 = 0b10#2 && !b.getLsbD 20) = true)
    (hcmd : b.extractLsb' 21 4 = cmd) (h : cmd.extractLsb' 2 2 = 0b10#2) : b.getLsbD 20 = true := by
  have h23 : b.extractLsb' 23 2 = 0b10#2 := by
    rw [← h, ← hcmd]
    refine BitVec.eq_of_getLsbD_eq fun k hk => ?_
    simp [hk, ← Nat.add_assoc, show 2 + k < 4 by omega]
  simpa [h23] using hcmp

theorem dataProcessingBody_of_cmd {cmd : BitVec 4} {s : Bool} (htop : b.extractLsb' 26 2 = 0b00#2)
    (hsrc : ¬(!b.getLsbD 25 && b.getLsbD 7 && b.getLsbD 4) = true) (hcmd : b.extractLsb' 21 4 = cmd)
    (hs : b.getLsbD 20 = s) :
    dataProcessingBody (decodeSrc2 b).isImm cmd s (b.extractLsb' 16 4) (b.extractLsb' 12 4) (decodeSrc2 b).bits = b :=
  dataProcessingBody_eq htop (decodeSrc2_isImm b) hcmd hs rfl rfl (decodeSrc2_bits hsrc)

/-- Each row of the cmd map, in its order; the last is what the others leave (R102). -/
theorem decodeDataProcessing_names (htop : b.extractLsb' 26 2 = 0b00#2)
    (hsrc : ¬(!b.getLsbD 25 && b.getLsbD 7 && b.getLsbD 4) = true)
    (hcmpS : ¬(b.extractLsb' 23 2 = 0b10#2 && !b.getLsbD 20) = true) :
    (decodeDataProcessing c b).Names bit4 c b := by
  have hbody {cmd : BitVec 4} {s : Bool} := dataProcessingBody_of_cmd (cmd := cmd) (s := s) htop hsrc
  refine .ite (fun h => ⟨rfl, hbody h rfl, rfl⟩) fun hand => ?_
  refine .ite (fun h => ⟨rfl, hbody h rfl, rfl⟩) fun heor => ?_
  refine .ite (fun h => ⟨rfl, hbody h rfl, rfl⟩) fun hsub => ?_
  refine .ite (fun h => ⟨rfl, hbody h rfl, rfl⟩) fun hrsb => ?_
  refine .ite (fun h => ⟨rfl, hbody h rfl, rfl⟩) fun hadd => ?_
  refine .ite (fun h => ⟨rfl, hbody h rfl, rfl⟩) fun hadc => ?_
  refine .ite (fun h => ⟨rfl, hbody h rfl, rfl⟩) fun hsbc => ?_
  refine .ite (fun h => ⟨rfl, hbody h rfl, rfl⟩) fun hrsc => ?_
  refine .ite (fun h => ⟨rfl, hbody h (getLsbD_20_of_compare hcmpS h rfl), rfl⟩) fun htst => ?_
  refine .ite (fun h => ⟨rfl, hbody h (getLsbD_20_of_compare hcmpS h rfl), rfl⟩) fun hteq => ?_
  refine .ite (fun h => ⟨rfl, hbody h (getLsbD_20_of_compare hcmpS h rfl), rfl⟩) fun hcmp => ?_
  refine .ite (fun h => ⟨rfl, hbody h (getLsbD_20_of_compare hcmpS h rfl), rfl⟩) fun hcmn => ?_
  refine .ite (fun h => ⟨rfl, hbody h rfl, rfl⟩) fun horr => ?_
  refine .ite (fun h => decodeMove_names (hbody h rfl)) fun hmov => ?_
  refine .ite (fun h => ⟨rfl, hbody h rfl, rfl⟩) fun hbic => ?_
  exact ⟨rfl, hbody (by bv_omega) rfl, rfl⟩

/-! ## Status register moves and the reserved comparisons -/

theorem decodeCompareS0_names (htop : b.extractLsb' 26 2 = 0b00#2)
    (hsrc : ¬(!b.getLsbD 25 && b.getLsbD 7 && b.getLsbD 4) = true)
    (hcmp : (b.extractLsb' 23 2 = 0b10#2 && !b.getLsbD 20) = true) : (decodeCompareS0 c b).Names bit4 c b := by
  obtain ⟨h23, h20⟩ : b.extractLsb' 23 2 = 0b10#2 ∧ b.getLsbD 20 = false := by simpa using hcmp
  have hs : b.extractLsb' 20 1 = 0b0#1 := by rw [← ofBool_getLsbD, h20]; rfl
  refine .ite (fun hmrs => ?mrs) fun hmrs => .ite (fun himm => ?imm) fun himm =>
    .ite (fun hreg => ?reg) fun hreg => ?reserved
  case mrs =>
    exact ⟨rfl, statusBody_eq (by simp_all [extract_succ_eq_iff]) (by simp_all) hs (by simp_all), rfl⟩
  case imm =>
    exact ⟨rfl, statusImmBody_eq (by simp_all [extract_succ_eq_iff]) (by simp_all [extract_succ_eq_iff]), rfl⟩
  case reg =>
    exact ⟨rfl, statusBody_eq (by simp_all [extract_succ_eq_iff]) (by simp_all) hs (by simp_all), rfl⟩
  case reserved =>
    have hnot1001 : (b.getLsbD 25 || !b.getLsbD 7 || !b.getLsbD 4) = true := by
      simpa [imp_iff_not_or, or_assoc] using hsrc
    have hnotMsr : (b.getLsbD 21 && (b.getLsbD 25 || b.extractLsb' 4 4 = 0b0000#4)) = false := by
      rw [Bool.and_or_distrib_left, eq_false_of_ne_true himm, eq_false_of_ne_true hreg]; rfl
    refine ⟨rfl, rfl, ?_⟩
    simp only [Instr.canonical, isDpCompareS0Word, htop, h23, h20, hnot1001, eq_false_of_ne_true hmrs, hnotMsr]
    rfl

/-! ## Multiplies and swaps -/

theorem decode1001_names (htop : b.extractLsb' 25 3 = 0b000#3) (h4 : b.extractLsb' 4 4 = 0b1001#4) :
    (decode1001 c b).Names bit4 c b := by
  refine .ite (fun h24 => ?multiply) fun h24 =>
    .ite (fun hswap => ?swap) fun hswap => ?reserved
  case multiply =>
    have htop4 : b.extractLsb' 24 4 = 0b0000#4 := by simp_all [extract_succ_eq_iff]
    have hbody {cmd : BitVec 3} (hcmd : b.extractLsb' 21 3 = cmd) := format1001Body_eq (multiplyTop_eq htop4 hcmd) h4
    refine .ite (fun h => ⟨rfl, hbody h, rfl⟩) fun hmul => ?_
    refine .ite (fun h => ⟨rfl, hbody h, rfl⟩) fun hmla => ?_
    refine .ite (fun h => ⟨rfl, hbody h, rfl⟩) fun humull => ?_
    refine .ite (fun h => ⟨rfl, hbody h, rfl⟩) fun humlal => ?_
    refine .ite (fun h => ⟨rfl, hbody h, rfl⟩) fun hsmull => ?_
    refine .ite (fun h => ⟨rfl, hbody h, rfl⟩) fun hsmlal => ?_
    have hcmd : b.extractLsb' 22 2 = 0b01#2 := by
      obtain hcmd | hcmd : b.extractLsb' 21 3 = 0b010#3 ∨ b.extractLsb' 21 3 = 0b011#3 := by bv_omega
      all_goals simp_all [extract_succ_eq_iff]
    exact ⟨rfl, rfl, by simp_all [Instr.canonical, isMultiplyCmdWord, extract_succ_eq_iff]⟩
  case swap =>
    have hbody {top : BitVec 8} (h : b.extractLsb' 20 8 = top) := format1001Body_eq h h4
    exact .ite (fun h22 => ⟨rfl, hbody (by simp_all [extract_succ_eq_iff]), rfl⟩)
      fun h22 => ⟨rfl, hbody (by simp_all [extract_succ_eq_iff]), rfl⟩
  case reserved =>
    have htop4 : b.extractLsb' 24 4 = 0b0001#4 := by simp_all [extract_succ_eq_iff]
    have hnotSwap : (b.getLsbD 23 || b.extractLsb' 20 2 ≠ 0b00#2) = true := by
      simpa [-not_and, not_and_or] using hswap
    refine ⟨rfl, rfl, ?_⟩
    simp only [Instr.canonical, isOp001001Word, htop4, h4, hnotSwap]
    rfl

/-! ## Loads and stores -/

theorem extraIndexOf_bits (b : BitVec 28) : b.getLsbD 24 = (extraIndexOf b).p ∧ b.getLsbD 21 = (extraIndexOf b).w := by
  unfold extraIndexOf
  split <;> split <;> simp_all [ExtraIndex.p, ExtraIndex.w]

theorem extraOffsetOf_fields (b : BitVec 28) :
    b.getLsbD 22 = (extraOffsetOf b).isImm ∧ b.extractLsb' 8 4 = (extraOffsetOf b).hi ∧
    b.extractLsb' 0 4 = (extraOffsetOf b).lo := by
  unfold extraOffsetOf
  split
  · simp_all [ExtraOffset.isImm, ExtraOffset.hi, ExtraOffset.lo, extract_cat_low, extract_cat_high]
  · simp_all [ExtraOffset.isImm, ExtraOffset.hi, ExtraOffset.lo]

theorem decodeExtra_names (htop : b.extractLsb' 25 3 = 0b000#3) (h7 : b.extractLsb' 7 1 = 0b1#1)
    (h4 : b.extractLsb' 4 1 = 0b1#1) (hop2 : b.extractLsb' 5 2 ≠ 0b00#2) : (decodeExtra c b).Names bit4 c b := by
  obtain ⟨hp, hw⟩ := extraIndexOf_bits b
  obtain ⟨hi, hhi, hlo⟩ := extraOffsetOf_fields b
  have hbody {l : Bool} {op2 : BitVec 2} (hl : b.getLsbD 20 = l) (hop2 : b.extractLsb' 5 2 = op2) :=
    extraBody_eq htop hp hi hw hl hhi h7 hop2 h4 hlo
  rw [decodeExtra_eq]
  refine .iteBool (fun hload => ?load) fun hload => ?store
  case load =>
    exact .ite (fun h => ⟨rfl, hbody hload h, rfl⟩) fun hldrh =>
      .ite (fun h => ⟨rfl, hbody hload h, rfl⟩) fun hldrsb => ⟨rfl, hbody hload (by bv_omega), rfl⟩
  case store =>
    refine .ite (fun h => ⟨rfl, hbody hload h, rfl⟩) fun hstrh => ⟨rfl, rfl, ?_⟩
    have h6 : b.getLsbD 6 = true := by
      obtain hop2 | hop2 : b.extractLsb' 5 2 = 0b10#2 ∨ b.extractLsb' 5 2 = 0b11#2 := by bv_omega
      all_goals simp_all [extract_succ_eq_iff]
    simp_all [Instr.canonical, isExtraStoreSignedWord, extract_succ_eq_iff]

theorem memIndexOf_bits (h : ¬(!b.getLsbD 24 && b.getLsbD 21) = true) :
    b.getLsbD 24 = (memIndexOf b).p ∧ b.getLsbD 21 = (memIndexOf b).w := by
  unfold memIndexOf
  split
  · split <;> simp_all [Index.p, Index.w]
  · simp_all [Index.p, Index.w]

theorem memOffsetOf_fields (h : ¬(b.getLsbD 25 && b.getLsbD 4 != bit4) = true) :
    b.getLsbD 25 = (memOffsetOf b).isReg ∧ b.extractLsb' 0 12 = (memOffsetOf b).bits bit4 := by
  unfold memOffsetOf
  split
  · next h25 =>
    have h4 : b.getLsbD 4 = bit4 := by simpa [h25] using h
    exact ⟨h25, (shiftImmBits_eq rfl (ShiftType.bits_eq rfl) h4).symm⟩
  · next h25 => exact ⟨eq_false_of_ne_true h25, rfl⟩

theorem decodeMemory_names (htop : b.extractLsb' 26 2 = 0b01#2) : (decodeMemory bit4 c b).Names bit4 c b := by
  rw [decodeMemory_eq]
  refine .ite (fun hundef => ?undefined) fun hdef => ?_
  case undefined =>
    obtain ⟨h25, h4⟩ : b.getLsbD 25 = true ∧ b.getLsbD 4 ≠ bit4 := by simpa using hundef
    exact ⟨rfl, rfl, by simp_all [Instr.canonical, isUndefinedSpaceWord, extract_succ_eq_iff]⟩
  obtain ⟨hi, hoff⟩ := memOffsetOf_fields hdef
  have hbody {p w x l : Bool} (hp : b.getLsbD 24 = p) (hw : b.getLsbD 21 = w) (hx : b.getLsbD 22 = x)
      (hl : b.getLsbD 20 = l) := memoryBody_eq htop hi hp hx hw hl hoff
  refine .ite (fun htrans => ?translated) fun hidx => ?indexed
  case translated =>
    obtain ⟨hp, hw⟩ : b.getLsbD 24 = false ∧ b.getLsbD 21 = true := by simpa using htrans
    exact .iteBool
      (fun hx => .iteBool (fun hl => ⟨rfl, hbody hp hw hx hl, rfl⟩) fun hl => ⟨rfl, hbody hp hw hx hl, rfl⟩)
      fun hx => .iteBool (fun hl => ⟨rfl, hbody hp hw hx hl, rfl⟩) fun hl => ⟨rfl, hbody hp hw hx hl, rfl⟩
  case indexed =>
    obtain ⟨hp, hw⟩ := memIndexOf_bits hidx
    exact .iteBool
      (fun hx => .iteBool (fun hl => ⟨rfl, hbody hp hw hx hl, rfl⟩) fun hl => ⟨rfl, hbody hp hw hx hl, rfl⟩)
      fun hx => .iteBool (fun hl => ⟨rfl, hbody hp hw hx hl, rfl⟩) fun hl => ⟨rfl, hbody hp hw hx hl, rfl⟩

/-! ## Branches, block transfers, SWI and the coprocessor -/

theorem cat_body_eq {top : BitVec 4} (h : b.extractLsb' 24 4 = top) : cat top (b.extractLsb' 0 24) = b := by
  rw [← h, cat_extract]

theorem decodeBranchOrBlock_names (htop : b.extractLsb' 26 2 = 0b10#2) :
    (decodeBranchOrBlock c b).Names bit4 c b := by
  refine .iteBool (fun h25 => .iteBool (fun h24 => ?bl) fun h24 => ?b) fun h25 =>
    .iteBool (fun hl => ?ldm) fun hl => ?stm
  case bl => exact ⟨rfl, cat_body_eq (by simp_all [extract_succ_eq_iff]), rfl⟩
  case b => exact ⟨rfl, cat_body_eq (by simp_all [extract_succ_eq_iff]), rfl⟩
  case ldm => exact ⟨rfl, blockBody_eq (by simp_all [extract_succ_eq_iff]) hl rfl, rfl⟩
  case stm => exact ⟨rfl, blockBody_eq (by simp_all [extract_succ_eq_iff]) hl rfl, rfl⟩

theorem low_fields (b : BitVec 28) :
    b.extractLsb' 0 16 = cat (b.extractLsb' 12 4) (cat (b.extractLsb' 8 4) (b.extractLsb' 0 8) : BitVec 12) := by
  simp (disch := decide) only [cat_extract_adjacent]

theorem opc1_eq {l : Bool} (hl : b.getLsbD 20 = l) :
    b.extractLsb' 20 4 = cat (b.extractLsb' 21 3) (BitVec.ofBool l) := by
  rw [← hl, ofBool_getLsbD, cat_extract_adjacent _ rfl]

theorem decodeOp11_names (htop : b.extractLsb' 26 2 = 0b11#2) : (decodeOp11 c b).Names bit4 c b := by
  refine .iteBool
    (fun h25 => .iteBool (fun h24 => ?swi) fun h24 => .ite (fun h4 => ?cdp) fun h4 => ?transfer)
    fun h25 => .iteBool (fun hl => ?ldc) fun hl => ?stc
  case swi => exact ⟨rfl, cat_body_eq (by simp_all [extract_succ_eq_iff]), rfl⟩
  case cdp => exact ⟨rfl, coprocessorBody_eq (by simp_all [extract_succ_eq_iff]) rfl (by simpa using h4), rfl⟩
  case transfer =>
    have htop4 : b.extractLsb' 24 4 = 0b1110#4 := by simp_all [extract_succ_eq_iff]
    have hx : b.getLsbD 4 = true := by simpa using h4
    exact .iteBool (fun hl => ⟨rfl, coprocessorBody_eq htop4 (opc1_eq hl) hx, rfl⟩)
      fun hl => ⟨rfl, coprocessorBody_eq htop4 (opc1_eq hl) hx, rfl⟩
  case ldc => exact ⟨rfl, blockBody_eq (by simp_all [extract_succ_eq_iff]) hl (low_fields b), rfl⟩
  case stc => exact ⟨rfl, blockBody_eq (by simp_all [extract_succ_eq_iff]) hl (low_fields b), rfl⟩

/-! ## Every word -/

/-- Whatever the body, the decoder names it: the branches of R100. -/
theorem decodeBody_names (bit4 : Bool) (c : Cond) (b : BitVec 28) : (decodeBody bit4 c b).Names bit4 c b := by
  refine .iteBool (fun h27 => .iteBool (fun h26 => ?op11) fun h26 => ?op10) fun h27 =>
    .iteBool (fun h26 => ?op01) fun h26 =>
    .ite (fun h74 => .ite (fun hop2 => ?multiply) fun hop2 => ?extra) fun hsrc =>
      .ite (fun hcmp => ?status) fun hcmp => ?dataProcessing
  case op11 => exact decodeOp11_names (by simp_all [extract_succ_eq_iff])
  case op10 => exact decodeBranchOrBlock_names (by simp_all [extract_succ_eq_iff])
  case op01 => exact decodeMemory_names (by simp_all [extract_succ_eq_iff])
  case multiply => exact decode1001_names (by simp_all [extract_succ_eq_iff]) (by simp_all [extract_succ_eq_iff])
  case extra =>
    exact decodeExtra_names (by simp_all [extract_succ_eq_iff]) (by simp_all [extract_succ_eq_iff])
      (by simp_all [extract_succ_eq_iff]) hop2
  case status => exact decodeCompareS0_names (by simp_all [extract_succ_eq_iff]) hsrc hcmp
  case dataProcessing => exact decodeDataProcessing_names (by simp_all [extract_succ_eq_iff]) hsrc hcmp

/-- The one cond field that names no condition (R112, R302). -/
theorem Cond.eq_of_ofBits_none {v : BitVec 4} (h : Cond.ofBits v = none) : v = 0b1111#4 := by
  revert v; decide

theorem encodeWord_eq {i : Instr} {w : Word} (hcond : i.condBits = w.extractLsb' 28 4)
    (hbody : i.body bit4 = w.extractLsb' 0 28) : encodeWord bit4 i = w := by
  rw [encodeWord, hcond, hbody, cat_extract]

/-- Settles O2: the cond field and the body are each given back by the encoder. -/
theorem decodeThenEncode : Obligations.DecodeThenEncode := by
  intro bit4 w
  cases hc : Cond.ofBits (w.extractLsb' 28 4) with
  | some c =>
    obtain ⟨hcond, hbody, hcanonical⟩ := decodeBody_names bit4 c (w.extractLsb' 0 28)
    have hbits := (Instr.condBits_of_some hcond).trans (Cond.bits_ofBits hc)
    rw [decodeWord_of_cond hc]
    exact ⟨encodeWord_eq hbits hbody, hcanonical⟩
  | none =>
    rw [decodeWord_of_no_cond hc]
    exact ⟨encodeWord_eq (Cond.eq_of_ofBits_none hc).symm rfl, rfl⟩

end Encode
end Sys2Proof

/-! What stops a data-processing instruction and a status register move (30_encoding.md R111, 10_state.md R27), and the
words that take the Undefined Instruction exception (R110, R112). -/

namespace Sys2Proof.Machine

section Stops

variable {st : State} {c : Cond}

/-! ## Data processing -/

theorem advance_wrap {s : State} (h : s.pc = 0xFFFFFFFC#32) : advance s = .refused .pcWrap := if_pos h

theorem dpWrite_wrap {sBit : Bool} {rd : Reg} {result : Word} {f : Flags} (hrd : rd ≠ 15#4)
    (h : st.pc = 0xFFFFFFFC#32) : dpWrite sBit rd result f st = .refused .pcWrap := by
  rw [dpWrite, if_neg hrd, advance_wrap (by simpa using h)]

/-- Every data-processing instruction that writes a register is its form's restrictions and then `dpWrite` (R130). -/
theorem exec_of_dpForm {i : Instr} {f : DpForm} (h : dpForm i = some f) (st : State) :
    ∃ result fl, exec i st =
      guarded f.cond st (checks (dpChecks f.unused f.op2 f.named) (dpWrite f.s f.rd result fl st)) := by
  cases i with
  | and | eor | sub | rsb | add | adc | sbc | rsc | orr | bic | mvn | mov | lsl | lsr | asr | rrx | ror =>
    cases h; exact ⟨_, _, rfl⟩
  | _ => cases h

/-- Each comparison is its restrictions and then a write of the flags (R130). -/
theorem exec_of_compare {rn : Reg} {sbz : BitVec 4} {op2 : Src2} {i : Instr}
    (h : i = .tst c rn sbz op2 ∨ i = .teq c rn sbz op2 ∨ i = .cmp c rn sbz op2 ∨ i = .cmn c rn sbz op2) (st : State) :
    ∃ fl, exec i st = guarded c st (checks (dpChecks sbz op2 [rn]) (advance (st.setFlags fl))) := by
  obtain rfl | rfl | rfl | rfl := h
  all_goals exact ⟨_, rfl⟩

theorem dpChecks_unused {unused : BitVec 4} {op2 : Src2} {named : List Reg} {k : Result} (h : unused ≠ 0#4) :
    checks (dpChecks unused op2 named) k = .refused .sbzViolation := by
  simp [dpChecks, checks, h]

theorem dpChecks_r15 {unused : BitVec 4} {op2 : Src2} {named : List Reg} {k : Result} (hu : unused = 0#4)
    (h : r15InShift op2 named = true) : checks (dpChecks unused op2 named) k = .refused .r15InRegisterShift := by
  simp [dpChecks, checks, hu, h]

/-- Settles O33: the restrictions in the order of their table, then the advance. -/
theorem dpStops : Obligations.DpStops := by
  intro c rn sbz op2 i f st
  refine ⟨fun hform hc => ?writes, fun hi hc => ?compares, fun hc hpc => ?nop⟩
  case writes =>
    obtain ⟨result, fl, hexec⟩ := exec_of_dpForm hform st
    rw [hexec, guarded_pass hc]
    exact ⟨dpChecks_unused, dpChecks_r15,
      fun hu hr hrd hpc => (dpChecks_pass hu hr).trans (dpWrite_wrap hrd hpc)⟩
  case compares =>
    obtain ⟨fl, hexec⟩ := exec_of_compare hi st
    rw [hexec, guarded_pass hc]
    exact ⟨dpChecks_unused, dpChecks_r15, fun hu hr hpc => (dpChecks_pass hu hr).trans (advance_wrap hpc)⟩
  case nop => exact (guarded_pass hc).trans (advance_wrap hpc)

/-! ## Status register moves -/

/-- Settles O56: the restrictions of each move in the order of its table, then the SPSR that the mode has not. -/
theorem statusMoveStops : Obligations.StatusMoveStops := by
  intro c r sbo sbzHi sbzLo mask rd operand st hc
  have hmrs : exec (.mrs c r sbo rd sbzHi sbzLo) st = _ := guarded_pass hc
  have hmsr : exec (.msr c r mask sbo operand) st = _ := guarded_pass hc
  dsimp only
  rw [hmrs, hmsr]
  refine ⟨fun h => ?mrsFields, ?mrsRd, ?mrsSpsr, ?msrFields, ?msrRm, ?msrSpsr⟩
  case mrsFields => exact if_pos (by simpa [or_assoc] using h)
  case mrsRd =>
    rintro rfl rfl rfl rfl
    rfl
  case mrsSpsr =>
    rintro rfl rfl rfl hrd rfl hmode
    simp [checks, hrd, State.spsrNow_eq_none.mpr hmode]
  case msrFields =>
    intro h
    exact if_pos (by simpa using h)
  case msrRm =>
    intro hsbo hsbz hrm
    simp [checks, hsbo, hsbz, hrm]
  case msrSpsr =>
    intro hsbo hsbz hrm hr hmode
    simp [checks, hsbo, hsbz, hrm, hr, msrSpsr, State.spsrNow_eq_none.mpr hmode]

end Stops

/-! ## The Undefined Instruction exception -/

section Undefined

variable {st : State}

/-- `o` is the Undefined Instruction exception with information `info`, and leaves the input samples and the caution of
R373 (a) alone. -/
def State.takesUndefined (st : State) (o : Result) (info : Word) : Prop :=
  (st.params.profile = .S → ∃ t, o = .next t ∧ st.entered t .und 0x04#32 (st.pc + 4#32) false ∧
    t.inputs = st.inputs ∧ t.hazard = st.hazard) ∧
  (st.params.profile = .U → o = .fault (.trap .undefinedInstruction info))

theorem raise_takesUndefined (st : State) (info : Word) :
    st.takesUndefined (raise .undefinedInstruction info st) info :=
  ⟨fun h => ⟨_, raise_S h, enterException_entered .undefinedInstruction st, rfl, rfl⟩, raise_U⟩

theorem guarded_raise_takesUndefined {c : Cond} (hc : condPassed c st.cpsr.flags = true) (info : Word) :
    st.takesUndefined (guarded c st (raise .undefinedInstruction info st)) info :=
  (guarded_pass hc).symm ▸ raise_takesUndefined st info

/-- Settles O59: each of these instructions raises the exception with its own word, cond = 1111 under no condition. -/
theorem undefinedInstructionTaken : Obligations.UndefinedInstructionTaken := by
  intro c p u n w a b d cp opc1 opc2 m imm8 body st
  refine ⟨raise_takesUndefined st _, fun hc => ?_⟩
  have h (info : Word) := guarded_raise_takesUndefined hc info
  exact ⟨h _, h _, h _, h _, h _, h _, h _, h _, h _, h _⟩

end Undefined

/-! ## Words of the test vectors -/

/-- Settles O3: the decoder evaluated on each word. -/
theorem specWordsDecode : Obligations.SpecWordsDecode := by
  refine ⟨?_, ?_, ?_, ?_, ?_, ?_, ?_, ?_, ?_⟩
  all_goals decide

end Sys2Proof.Machine

/-! The shifter (40_data_processing.md R86, R132 to R134): each shift as the shift of `BitVec` that it is, whatever the
amount, then bit by bit. -/

namespace Sys2Proof.Machine

section Shifter

variable {m : Word} {c : Bool} {k amount : Nat}

/-! ## The bits of a shifted word -/

/-- A rotation takes each bit from `r` places up, round the word. -/
theorem getLsbD_rotateRight_word (m : Word) (r : Nat) (hk : k < 32) :
    (m.rotateRight r).getLsbD k = m.getLsbD ((k + r) % 32) := by
  rw [BitVec.getLsbD_rotateRight]
  by_cases hwrap : k < 32 - r % 32
  · rw [decide_eq_true hwrap, cond_true]; congr 1; omega
  · rw [decide_eq_false hwrap, cond_false, decide_eq_true hk, Bool.true_and]; congr 1; omega

/-- An arithmetic shift takes each bit from `r` places up, or from bit 31 past the top. -/
theorem getLsbD_sshiftRight_word (m : Word) (r : Nat) (hk : k < 32) :
    (m.sshiftRight r).getLsbD k = m.getLsbD (min (k + r) 31) := by
  rw [BitVec.getLsbD_sshiftRight, BitVec.msb_eq_getLsbD_last, decide_eq_false (Nat.not_le.mpr hk), Bool.not_false,
    Bool.true_and]
  split
  · congr 1; omega
  · congr 1; omega

theorem getLsbD_shiftLeft_word (m : Word) (r : Nat) (hk : k < 32) :
    (m <<< r).getLsbD k = (decide (r ≤ k) && m.getLsbD (k - r)) := by
  rw [BitVec.getLsbD_shiftLeft, decide_eq_true hk, Bool.true_and, ← decide_not, decide_eq_decide.mpr Nat.not_lt]

theorem getLsbD_ushiftRight_word (m : Word) (r : Nat) : (m >>> r).getLsbD k = m.getLsbD (k + r) := by
  rw [BitVec.getLsbD_ushiftRight, Nat.add_comm]

/-- `signFill` is the arithmetic shift by 32 or more. -/
theorem signFill_eq_sshiftRight (m : Word) {r : Nat} (hr : 32 ≤ r) : signFill m = m.sshiftRight r := by
  refine BitVec.eq_of_getLsbD_eq fun k hk => ?_
  have hfill : (signFill m).getLsbD k = m.msb := by
    unfold signFill
    split
    · next h => rw [h]; revert k; decide
    · next h => simp [h]
  rw [hfill, getLsbD_sshiftRight_word m r hk, Nat.min_eq_right (by omega), BitVec.msb_eq_getLsbD_last]

/-! ## `ShiftReg` (R134) -/

theorem shiftByReg_zero (sh : ShiftType) (m : Word) (c : Bool) : shiftByReg sh 0 m c = ⟨m, c⟩ := rfl

theorem shiftByReg_lsl (h : amount ≠ 0) :
    shiftByReg .lsl amount m c = ⟨m <<< amount, decide (amount ≤ 32) && m.getLsbD (32 - amount)⟩ := by
  obtain hlt | rfl | hgt := Nat.lt_trichotomy amount 32
  · simp [shiftByReg, h, hlt, hlt.le]
  · simp [shiftByReg]
  · simp [shiftByReg, h, hgt.not_gt, hgt.ne', hgt.not_ge, BitVec.shiftLeft_eq_zero hgt.le]

theorem shiftByReg_lsr (h : amount ≠ 0) :
    shiftByReg .lsr amount m c = ⟨m >>> amount, m.getLsbD (amount - 1)⟩ := by
  obtain hlt | rfl | hgt := Nat.lt_trichotomy amount 32
  · simp [shiftByReg, h, hlt]
  · simp [shiftByReg, BitVec.msb_eq_getLsbD_last, BitVec.ushiftRight_eq_zero]
  · simp [shiftByReg, h, hgt.not_gt, hgt.ne', BitVec.ushiftRight_eq_zero hgt.le,
      BitVec.getLsbD_of_ge m (amount - 1) (by omega)]

theorem shiftByReg_asr (h : amount ≠ 0) :
    shiftByReg .asr amount m c = ⟨m.sshiftRight amount, m.getLsbD (min (amount - 1) 31)⟩ := by
  obtain hlt | hge := Nat.lt_or_ge amount 32
  · simp [shiftByReg, h, hlt, Nat.min_eq_left (show amount - 1 ≤ 31 by omega)]
  · simp [shiftByReg, h, hge.not_gt, signFill_eq_sshiftRight m hge, BitVec.msb_eq_getLsbD_last,
      Nat.min_eq_right (show 31 ≤ amount - 1 by omega)]

theorem shiftByReg_ror (h : amount ≠ 0) :
    shiftByReg .ror amount m c = ⟨m.rotateRight amount, m.getLsbD ((amount + 31) % 32)⟩ := by
  have hrot : m.rotateRight (amount % 32) = m.rotateRight amount :=
    BitVec.eq_of_getLsbD_eq fun k hk => by
      rw [getLsbD_rotateRight_word m _ hk, getLsbD_rotateRight_word m _ hk, Nat.add_mod_mod]
  by_cases hk : amount % 32 = 0
  · have hself : m.rotateRight 0 = m :=
      BitVec.eq_of_getLsbD_eq fun k hk => by rw [getLsbD_rotateRight_word m 0 hk, Nat.add_zero, Nat.mod_eq_of_lt hk]
    rw [hk, hself] at hrot
    simp [shiftByReg, h, hk, ← hrot, BitVec.msb_eq_getLsbD_last, show (amount + 31) % 32 = 31 by omega]
  · simp [shiftByReg, h, hk, hrot, show (amount + 31) % 32 = amount % 32 - 1 by omega]

/-- The amount is the low byte of Rs. -/
theorem evalSrc2_shiftReg (sh : ShiftType) (rs rm : Reg) (st : State) :
    evalSrc2 (.shiftReg sh rs rm) st = shiftByReg sh ((st.reg rs).toNat % 256) (st.reg rm) st.cpsr.flags.c := by
  simp [evalSrc2, BitVec.extractLsb'_toNat]

/-- Settles O21: each shift is one of `BitVec` and each of those is known bit by bit. -/
theorem shiftByRegister : Obligations.ShiftByRegister := by
  intro sh amount m c rs rm st
  refine ⟨evalSrc2_shiftReg sh rs rm st, ?_, fun hpos _ => ?_⟩
  · rintro rfl
    exact shiftByReg_zero sh m c
  · have h : amount ≠ 0 := by omega
    rw [shiftByReg_lsl h, shiftByReg_lsr h, shiftByReg_asr h, shiftByReg_ror h]
    exact ⟨fun _ hk => getLsbD_shiftLeft_word m amount hk, rfl, fun _ _ => getLsbD_ushiftRight_word m amount, rfl,
      fun _ hk => getLsbD_sshiftRight_word m amount hk, rfl, fun _ hk => getLsbD_rotateRight_word m amount hk, rfl⟩

/-! ## `ShiftImm` (R133) -/

/-- A constant other than 0 shifts as the same amount in a register does. -/
theorem shiftByImm_eq_shiftByReg {n : BitVec 5} (hn : n.toNat ≠ 0) (sh : ShiftType) (m : Word) (c : Bool) :
    shiftByImm sh n m c = shiftByReg sh n.toNat m c := by
  have hlt : n.toNat < 32 := n.isLt
  cases sh <;> simp [shiftByImm, shiftByReg, hn, hlt, Nat.mod_eq_of_lt hlt]

theorem shiftByImm_lsl_zero (m : Word) (c : Bool) : shiftByImm .lsl 0#5 m c = ⟨m, c⟩ := rfl

theorem shiftByImm_lsr_zero (m : Word) (c : Bool) : shiftByImm .lsr 0#5 m c = ⟨0#32, m.getLsbD 31⟩ := by
  simp [shiftByImm, BitVec.msb_eq_getLsbD_last]

theorem shiftByImm_asr_zero (m : Word) (c : Bool) :
    shiftByImm .asr 0#5 m c = ⟨m.sshiftRight 32, m.getLsbD 31⟩ := by
  simp [shiftByImm, BitVec.msb_eq_getLsbD_last, signFill_eq_sshiftRight m le_rfl]

/-- RRX (R174). -/
theorem shiftByImm_ror_zero (m : Word) (c : Bool) :
    shiftByImm .ror 0#5 m c = ⟨cat (BitVec.ofBool c) (m.extractLsb' 1 31), m.getLsbD 0⟩ := rfl

/-- RRX bit by bit: C comes in at the top. -/
theorem getLsbD_rrx (m : Word) (c : Bool) (hk : k < 32) :
    (cat (BitVec.ofBool c) (m.extractLsb' 1 31) : Word).getLsbD k = if k = 31 then c else m.getLsbD (k + 1) := by
  rw [bit_cat]
  by_cases htop : k = 31
  · simp [htop]
  · rw [if_pos (by omega), if_neg htop, BitVec.getLsbD_extractLsb', decide_eq_true (by omega), Bool.true_and,
      Nat.add_comm]

/-- Settles O20: constant 0 has a meaning of its own for each shift; any other constant is an amount below 32. -/
theorem shiftByConstant : Obligations.ShiftByConstant := by
  intro n m c
  have hpos {n : BitVec 5} (h : n ≠ 0#5) : n.toNat ≠ 0 := fun h0 => h (BitVec.eq_of_toNat_eq h0)
  have hlt : n.toNat < 32 := n.isLt
  refine ⟨shiftByImm_lsl_zero m c, fun hn => ?lsl, shiftByImm_lsr_zero m c, fun hn => ?lsr, ?asrZero,
    fun hn => ?asr, ?rorZero, fun hn => ?ror⟩
  case lsl =>
    rw [shiftByImm_eq_shiftByReg (hpos hn), shiftByReg_lsl (hpos hn)]
    exact ⟨fun _ hk => getLsbD_shiftLeft_word m _ hk, by simp [hlt.le]⟩
  case lsr =>
    rw [shiftByImm_eq_shiftByReg (hpos hn), shiftByReg_lsr (hpos hn)]
    exact ⟨fun _ _ => getLsbD_ushiftRight_word m _, rfl⟩
  case asrZero =>
    rw [show shiftByImm .asr 0 m c = _ from shiftByImm_asr_zero m c]
    refine ⟨fun k hk => ?_, rfl⟩
    rw [getLsbD_sshiftRight_word m 32 hk, Nat.min_eq_right (by omega)]
  case asr =>
    rw [shiftByImm_eq_shiftByReg (hpos hn), shiftByReg_asr (hpos hn)]
    exact ⟨fun _ hk => getLsbD_sshiftRight_word m _ hk, by rw [Nat.min_eq_left (by omega)]⟩
  case rorZero =>
    rw [show shiftByImm .ror 0 m c = _ from shiftByImm_ror_zero m c]
    exact ⟨fun _ hk => getLsbD_rrx m c hk, rfl⟩
  case ror =>
    have := hpos hn
    have hout : (n.toNat + 31) % 32 = n.toNat - 1 := by omega
    have htop : (31 + n.toNat) % 32 = n.toNat - 1 := by omega
    rw [shiftByImm_eq_shiftByReg (hpos hn), shiftByReg_ror (hpos hn), hout]
    exact ⟨fun _ hk => getLsbD_rotateRight_word m _ hk, rfl, by rw [getLsbD_rotateRight_word m _ (by decide), htop]⟩

/-! ## Immediates (R86) and the forms of Src2 (R132) -/

/-- An immediate bit by bit: no bit above the low eight comes from `imm8`. -/
theorem getLsbD_rotatedImm (rot : BitVec 4) (imm8 : BitVec 8) (c : Bool) (hk : k < 32) :
    (rotatedImm rot imm8 c).value.getLsbD k = imm8.getLsbD ((k + 2 * rot.toNat) % 32) := by
  rw [rotatedImm, getLsbD_rotateRight_word _ _ hk, bit_cat]
  split
  · rfl
  · next h => rw [BitVec.getLsbD_of_ge imm8 _ (Nat.not_lt.mp h), BitVec.getLsbD_zero]

theorem rotatedImm_carry (rot : BitVec 4) (imm8 : BitVec 8) (c : Bool) :
    (rotatedImm rot imm8 c).carry = if rot = 0#4 then c else (rotatedImm rot imm8 c).value.getLsbD 31 := by
  rw [← BitVec.msb_eq_getLsbD_last]; rfl

/-- Settles O22: the immediate bit by bit, and the two register forms as the shifts they go to. -/
theorem shifterResults : Obligations.ShifterResults := fun rot imm8 sh _ rs rm st =>
  ⟨fun _ hk => getLsbD_rotatedImm rot imm8 _ hk, fun h => (rotatedImm_carry rot imm8 _).trans (if_pos h),
    fun h => (rotatedImm_carry rot imm8 _).trans (if_neg h), rfl, evalSrc2_shiftReg sh rs rm st⟩

end Shifter

end Sys2Proof.Machine

/-! The data-processing instructions (40_data_processing.md R130 to R176): the sums and differences `AddWithCarry` gives, and
what each class of instruction leaves. -/

namespace Sys2Proof.Machine

/-! ## Sums and differences by `AddWithCarry` (R139) -/

theorem addWithCarry_eq (a b : Word) (cin : Bool) :
    addWithCarry a b cin = ⟨a + b + BitVec.ofNat 32 cin.toNat, decide (2 ^ 32 ≤ a.toNat + b.toNat + cin.toNat),
      !fitsSigned (a.toInt + b.toInt + cin.toNat)⟩ := by
  have hfits (z : Int) : (decide (z < -2 ^ 31) || decide (2 ^ 31 - 1 < z)) = !fitsSigned z := by
    rw [fitsSigned, Bool.not_and, ← decide_not, ← decide_not, decide_eq_decide.mpr not_le, decide_eq_decide.mpr not_lt]
    rfl
  rw [← addWithCarry_value, ← hfits]
  rfl

theorem addWithCarry_add (a b : Word) :
    addWithCarry a b false = ⟨a + b, decide (2 ^ 32 ≤ a.toNat + b.toNat), !fitsSigned (a.toInt + b.toInt)⟩ := by
  simp [addWithCarry_eq]

theorem toInt_not_word (b : Word) : (~~~b).toInt = -b.toInt - 1 := by
  rw [BitVec.toInt_eq_toNat_cond, BitVec.toInt_eq_toNat_cond, BitVec.toNat_not]
  have := b.isLt
  split <;> split <;> omega

/-- A subtraction adds the complement; a carry-in of 0 is a borrow, and no borrow is a carry-out (R139, D27). -/
theorem addWithCarry_sub_borrow (a b : Word) (cin : Bool) :
    addWithCarry a (~~~b) cin = ⟨a - b - BitVec.ofNat 32 (1 - cin.toNat), decide (b.toNat + (1 - cin.toNat) ≤ a.toNat),
      !fitsSigned (a.toInt - b.toInt - (1 - cin.toNat : Nat))⟩ := by
  have hb := b.isLt
  have ha := a.isLt
  rw [addWithCarry_eq, AddResult.mk.injEq, toInt_not_word, BitVec.toNat_not]
  refine ⟨?sum, ?borrow, ?signed⟩
  case sum => cases cin <;> simp <;> bv_omega
  case borrow => cases cin <;> simp <;> omega
  case signed =>
    refine congrArg (fun z => !fitsSigned z) ?_
    cases cin <;> simp <;> omega

theorem addWithCarry_sub (a b : Word) :
    addWithCarry a (~~~b) true = ⟨a - b, decide (b.toNat ≤ a.toNat), !fitsSigned (a.toInt - b.toInt)⟩ := by
  simp [addWithCarry_sub_borrow]

section Results

variable {c : Cond} {s : Bool} {unused : BitVec 4} {rd : Reg} {named : List Reg} {op2 : Src2} {st : State} {i : Instr}

/-! ## What an instruction leaves -/

/-- An instruction that runs, with its restrictions met and Rd other than 15, ends in its write (R130). -/
theorem dp_done {result : Word} {f : Flags} (hruns : st.runs c) (hrd : rd ≠ 15#4) (hr : r15InShift op2 named = false)
    (hi : exec i st = guarded c st (checks (dpChecks 0#4 op2 named) (dpWrite s rd result f st))) :
    ∃ t, exec i st = .next t ∧ st.dpDone t s rd result f := by
  obtain ⟨hc, hpc⟩ := hruns
  rw [hi, guarded_pass hc, dpChecks_pass rfl hr]
  exact dpWrite_done hpc hrd

/-- The same for the arithmetic class, whose flags are those of the sum (R139). -/
theorem dpArith_done {p q r : Word} {cin cf vf : Bool} (hruns : st.runs c) (hrd : rd ≠ 15#4)
    (hr : r15InShift op2 named = false) (hsum : addWithCarry p q cin = ⟨r, cf, vf⟩)
    (hi : exec i st = guarded c st (checks (dpChecks 0#4 op2 named) (dpArith s rd p q cin st))) :
    ∃ t, exec i st = .next t ∧ st.dpDone t s rd r ⟨r.msb, decide (r = 0#32), cf, vf⟩ := by
  rw [dpArith, hsum] at hi
  exact dp_done hruns hrd hr hi

/-- Settles O27: each is its operation on Rn and the shifter's value, and then the write of the logical class. -/
theorem logicalResults : Obligations.LogicalResults := by
  intro c s rn rd op2 st hruns hrd hr
  exact ⟨dp_done hruns hrd hr rfl, dp_done hruns hrd hr rfl, dp_done hruns hrd hr rfl, dp_done hruns hrd hr rfl⟩

/-- Settles O28: each is the write of the logical class for the shifter's value, and R103 names the shifter's operand. -/
theorem moveResults : Obligations.MoveResults := by
  intro c s rd rm rs op2 src amt st hruns hrd
  have hmov : r15InShift (movSrc2 src) [rd] = false := by cases src <;> rfl
  refine ⟨fun hr => dp_done hruns hrd hr rfl, dp_done hruns hrd hmov rfl,
    dp_done (op2 := .shiftImm .ror 0#5 rm) (named := [rd]) hruns hrd rfl rfl, fun hr => ?shifts, ?movImm, ?movReg, ?byConstant,
    ?byRegister⟩
  case shifts =>
    have hr (sh : ShiftType) : r15InShift (amountSrc2 sh rm amt) [rd] = false := by cases amt <;> exact hr
    exact ⟨dp_done hruns hrd (hr _) rfl, dp_done hruns hrd (hr _) rfl, dp_done hruns hrd (hr _) rfl,
      dp_done hruns hrd (hr _) rfl⟩
  case movImm =>
    rintro rot imm8 rfl
    exact ⟨fun _ hk => getLsbD_rotatedImm rot imm8 _ hk, rotatedImm_carry rot imm8 _⟩
  case movReg =>
    rintro rfl
    exact shiftByImm_lsl_zero _ _
  case byConstant =>
    rintro sh n rfl
    rfl
  case byRegister =>
    rintro sh rfl
    exact evalSrc2_shiftReg sh rs rm st

/-- Settles O29: each is a sum or a difference by `AddWithCarry`, and then the write of the arithmetic class. -/
theorem arithmeticResults : Obligations.ArithmeticResults := by
  intro c s rn rd op2 st hruns hrd hr
  have done {i : Instr} {p q r : Word} {cin cf vf : Bool} (hsum : addWithCarry p q cin = ⟨r, cf, vf⟩) :=
    dpArith_done (s := s) (i := i) hruns hrd hr hsum
  exact ⟨done (addWithCarry_sub ..) rfl, done (addWithCarry_sub ..) rfl, done (addWithCarry_add ..) rfl,
    done (addWithCarry_eq ..) rfl, done (addWithCarry_sub_borrow ..) rfl, done (addWithCarry_sub_borrow ..) rfl⟩

/-! ## Comparisons and NOP -/

/-- What an instruction leaves that writes the flags `f` and nothing else but the pc. -/
def State.flagsDone (s t : State) (f : Flags) : Prop :=
  t.pc = s.pc + 4#32 ∧ s.wroteRegs t [] ∧ t.cpsr.flags = f ∧ s.keepsSystem t ∧ s.keepsMemory t

theorem flagsDone_setFlags (st : State) (f : Flags) : st.flagsDone ((st.setFlags f).setPc (st.pc + 4#32)) f :=
  ⟨rfl, State.wroteRegs_nil rfl, rfl, ⟨rfl, rfl, rfl, rfl, rfl, rfl, rfl⟩, State.keepsMemory_of_eq rfl rfl⟩

/-- A comparison that runs, with its restrictions met, writes its flags (R130). -/
theorem compare_done {f g : Flags} (hruns : st.runs c) (hr : r15InShift op2 named = false) (hf : f = g)
    (hi : exec i st = guarded c st (checks (dpChecks 0#4 op2 named) (advance (st.setFlags f)))) :
    ∃ t, exec i st = .next t ∧ st.flagsDone t g := by
  subst hf
  obtain ⟨hc, hpc⟩ := hruns
  rw [hi, guarded_pass hc, dpChecks_pass rfl hr]
  exact ⟨_, advance_of_ne hpc, flagsDone_setFlags st f⟩

/-- TEQ finds Z where the operands are equal (R161). -/
theorem logicalFlags_xor (old : Flags) (a b : Word) (sco : Bool) :
    logicalFlags old (a ^^^ b) sco = ⟨(a ^^^ b).msb, decide (a = b), sco, old.v⟩ := by
  simp only [logicalFlags, BitVec.xor_eq_zero_iff]

/-- CMP finds Z where the operands are equal (R162). -/
theorem arithFlags_sub (a b : Word) :
    arithFlags (addWithCarry a (~~~b) true) =
      ⟨(a - b).msb, decide (a = b), decide (b.toNat ≤ a.toNat), !fitsSigned (a.toInt - b.toInt)⟩ := by
  have hzero : a - b = 0#32 ↔ a = b := sub_eq_zero
  simp only [addWithCarry_sub, arithFlags, hzero]

theorem arithFlags_add (a b : Word) :
    arithFlags (addWithCarry a b false) =
      ⟨(a + b).msb, decide (a + b = 0#32), decide (2 ^ 32 ≤ a.toNat + b.toNat), !fitsSigned (a.toInt + b.toInt)⟩ := by
  rw [addWithCarry_add, arithFlags]

theorem nop_done (hruns : st.runs c) : ∃ t, exec (.nop c) st = .next t ∧ st.flagsDone t st.cpsr.flags := by
  obtain ⟨hc, hpc⟩ := hruns
  exact ⟨_, (guarded_pass hc).trans (advance_of_ne hpc), flagsDone_setFlags st st.cpsr.flags⟩

/-- Settles O30: each comparison is a write of the flags of its result. -/
theorem compareAndNopResults : Obligations.CompareAndNopResults := by
  intro c rn op2 st hruns
  exact ⟨fun hr => ⟨compare_done hruns hr rfl rfl, compare_done hruns hr (logicalFlags_xor ..) rfl,
    compare_done hruns hr (arithFlags_sub ..) rfl, compare_done hruns hr (arithFlags_add ..) rfl⟩, nop_done hruns⟩

/-! ## Rd = 15 -/

/-- Every data-processing instruction that writes a register writes its `dpValue`. -/
theorem exec_of_dpForm_value {f : DpForm} (h : dpForm i = some f) (st : State) :
    ∃ result fl, result = dpValue i st ∧ exec i st =
      guarded f.cond st (checks (dpChecks f.unused f.op2 f.named) (dpWrite f.s f.rd result fl st)) := by
  have hcarry (a b : Word) : (addWithCarry a b st.cpsr.flags.c).value = a + b + if st.cpsr.flags.c then 1#32 else 0#32 :=
    (addWithCarryMeaning a b _).1
  have hborrow (a b : Word) : (addWithCarry a (~~~b) st.cpsr.flags.c).value =
      a - b - 1#32 + if st.cpsr.flags.c then 1#32 else 0#32 := by
    rw [hcarry, BitVec.not_eq_neg_add]; ring
  cases i with
  | and | eor | orr | bic | mvn | mov | lsl | lsr | asr | rrx | ror => cases h; exact ⟨_, _, rfl, rfl⟩
  | sub | rsb => cases h; exact ⟨_, _, congrArg AddResult.value (addWithCarry_sub ..), rfl⟩
  | add => cases h; exact ⟨_, _, congrArg AddResult.value (addWithCarry_add ..), rfl⟩
  | adc => cases h; exact ⟨_, _, hcarry .., rfl⟩
  | sbc | rsc => cases h; exact ⟨_, _, hborrow .., rfl⟩
  | _ => cases h

/-- Settles O31: with Rd = 15 and S = 0 the write is a branch to the value. -/
theorem dpWritesPc : Obligations.DpWritesPc := by
  intro i f st hform hc hu hr hrd hs
  obtain ⟨_, fl, rfl, hexec⟩ := exec_of_dpForm_value hform st
  rw [hexec, guarded_pass hc, dpChecks_pass hu hr, hs, hrd, dpWrite_pc]
  exact ⟨fun halign => ⟨_, branchWritePC_eq_next.mpr ⟨halign, rfl⟩, rfl, State.wroteRegs_nil rfl, rfl,
    ⟨rfl, rfl, rfl, rfl, rfl, rfl, rfl⟩, State.keepsMemory_of_eq rfl rfl⟩, fun halign => if_neg halign⟩

end Results

end Sys2Proof.Machine

/-! The multiply instructions (41_multiply.md R200 to R213): what stops them, and what they leave. -/

namespace Sys2Proof.Machine

section Multiply

variable {c : Cond} {s : Bool} {sbz : BitVec 4} {rd ra rm rn : Reg} {st : State} {i : Instr}

/-! ## Restrictions (R212) -/

/-- The restrictions that every multiply has, in their order (R212, entry 13). -/
def multiplyChecks (rd rn : Reg) (named : List Reg) : List (Bool × Refusal) :=
  [(named.any (· = 15#4), .r15InMultiply), (rd = rn, .mulRdEqRn)]

/-- The restriction that only the long forms have (R212). -/
def longOnlyChecks (rd ra rn : Reg) : List (Bool × Refusal) := [(ra = rd || ra = rn, .mullRegs)]

theorem checks_mulChecks (rd rn : Reg) (named : List Reg) (k : Result) :
    checks (mulChecks 0#4 rd rn named) k = checks (multiplyChecks rd rn named) k := rfl

theorem checks_mullChecks (rd ra rm rn : Reg) (k : Result) :
    checks (mullChecks rd ra rm rn) k =
      checks (multiplyChecks rd rn [rd, ra, rm, rn]) (checks (longOnlyChecks rd ra rn) k) := rfl

theorem multiplyChecks_pass {named : List Reg} {k : Result} (hnamed : ∀ r ∈ named, r ≠ 15#4) (hne : rd ≠ rn) :
    checks (multiplyChecks rd rn named) k = k :=
  checks_pass (by simpa [multiplyChecks, hne] using hnamed)

theorem multiplyChecks_r15 {named : List Reg} {k : Result} (h : 15#4 ∈ named) :
    checks (multiplyChecks rd rn named) k = .refused .r15InMultiply := by
  simp [multiplyChecks, checks, h]

theorem multiplyChecks_rdEqRn {named : List Reg} {k : Result} (hnamed : ∀ r ∈ named, r ≠ 15#4) (heq : rd = rn) :
    checks (multiplyChecks rd rn named) k = .refused .mulRdEqRn := by
  have hno : 15#4 ∉ named := fun h => hnamed _ h rfl
  simp [multiplyChecks, checks, hno, heq]

theorem longOnlyChecks_pass {k : Result} (hrd : ra ≠ rd) (hrn : ra ≠ rn) : checks (longOnlyChecks rd ra rn) k = k :=
  checks_pass (by simp [longOnlyChecks, hrd, hrn])

theorem longOnlyChecks_refused {k : Result} (h : ra = rd ∨ ra = rn) :
    checks (longOnlyChecks rd ra rn) k = .refused .mullRegs := by
  simp [longOnlyChecks, checks, h]

/-- The multiplies with an Ra field, their condition passing, begin with the shared restrictions; all but MLA go on with those
of the long forms. -/
theorem exec_of_multiply_ra
    (hi : i = .mla c s rd ra rm rn ∨ i = .umull c s rd ra rm rn ∨ i = .umlal c s rd ra rm rn ∨ i = .smull c s rd ra rm rn ∨
      i = .smlal c s rd ra rm rn)
    (hc : condPassed c st.cpsr.flags = true) :
    ∃ k, exec i st = checks (multiplyChecks rd rn [rd, ra, rm, rn]) k ∧
      (i ≠ .mla c s rd ra rm rn → ∃ l, k = checks (longOnlyChecks rd ra rn) l) := by
  obtain rfl | rfl | rfl | rfl | rfl := hi
  case inl => exact ⟨_, guarded_pass hc, fun h => absurd rfl h⟩
  all_goals exact ⟨_, (guarded_pass hc).trans (checks_mullChecks ..), fun _ => ⟨_, rfl⟩⟩

/-- Settles O36: the shared restrictions in their order, MUL's unused field before them, those of the long forms after. -/
theorem multiplyStops : Obligations.MultiplyStops := by
  intro c s sbz rd ra rm rn st i hc
  have hmul {sbz : BitVec 4} : exec (.mul c s rd sbz rm rn) st = _ := guarded_pass hc
  refine ⟨fun h => ?unused, fun h => ?mulR15, fun hrd hrm heq => ?mulRdEqRn, fun hi => ?withRa⟩
  case unused => simp [hmul, mulChecks, checks, h]
  case mulR15 => exact hmul.trans (multiplyChecks_r15 (by simpa [eq_comm] using h))
  case mulRdEqRn => exact hmul.trans (multiplyChecks_rdEqRn (by simp [hrd, hrm, ← heq]) heq)
  case withRa =>
    obtain ⟨k, hexec, hlong⟩ := exec_of_multiply_ra hi hc
    rw [hexec]
    refine ⟨fun h => multiplyChecks_r15 (by simpa [eq_comm] using h),
      fun hrd hra hrm heq => multiplyChecks_rdEqRn (by simp [hrd, hra, hrm, ← heq]) heq,
      fun hrd hra hrm hrn hne h hi => ?_⟩
    obtain ⟨l, rfl⟩ := hlong hi
    rw [multiplyChecks_pass (by simp [hrd, hra, hrm, hrn]) hne, longOnlyChecks_refused h]

/-! ## What a multiply leaves -/

/-- Drawing a free value changes no field but the counter (R211); the fields that `mulDrawn_others` leaves out. -/
@[simp] theorem mulDrawn_registers_system (b : Bool) (s : State) :
    (mulDrawn b s).regs = s.regs ∧ (mulDrawn b s).params = s.params ∧ (mulDrawn b s).spsr = s.spsr ∧
    (mulDrawn b s).inputs = s.inputs ∧ (mulDrawn b s).hazard = s.hazard := by
  unfold mulDrawn; split
  · simp
  · split <;> simp

/-- What a multiply leaves: `w` in the registers, flags as `left` says if S = 1, the pc four further on, and nothing else
(R210, R211). -/
def State.multiplyDone (s t : State) (sBit : Bool) (w : List (Reg × Word)) (left : Flags → Prop) : Prop :=
  t.pc = s.pc + 4#32 ∧ s.wroteRegs t w ∧ (sBit = true → left t.cpsr.flags) ∧ (sBit = false → s.keepsFlags t) ∧
  s.keepsSystem t ∧ s.keepsMemory t

/-- What R211 says of the flags after MUL and MLA. -/
def State.mulFlagsLeft (s : State) (r : Word) (f : Flags) : Prop :=
  f.n = r.msb ∧ f.z = decide (r = 0#32) ∧ f.v = s.cpsr.flags.v ∧ (s.params.mulCV = .unchanged → f.c = s.cpsr.flags.c)

/-- What R211 says of the flags after a long multiply. -/
def State.mullFlagsLeft (s : State) (p : BitVec 64) (f : Flags) : Prop :=
  f.n = p.msb ∧ f.z = decide (p = 0#64) ∧
  (s.params.mulCV = .unchanged → f.c = s.cpsr.flags.c ∧ f.v = s.cpsr.flags.v)

theorem mulFlags_left (st : State) (r : Word) : st.mulFlagsLeft r (mulFlags false r.msb (r = 0#32) st) := by
  unfold mulFlags State.mulFlagsLeft
  split <;> simp_all

theorem mullFlags_left (st : State) (p : BitVec 64) : st.mullFlagsLeft p (mulFlags true p.msb (p = 0#64) st) := by
  unfold mulFlags State.mullFlagsLeft
  split <;> simp_all

/-- `wroteRegs` does not depend on the order in which the writes are listed. -/
theorem State.wroteRegs_swap {s t : State} {x y : Reg × Word} (h : s.wroteRegs t [x, y]) : s.wroteRegs t [y, x] := by
  obtain ⟨hwritten, hothers⟩ := h
  exact ⟨fun z hz => hwritten z (by simpa [or_comm] using hz),
    fun j hj => hothers j fun z hz => hj z (by simpa [or_comm] using hz)⟩

/-- A register write changes no field but the registers. -/
theorem State.setReg_eq_regs (s : State) (r : Reg) (v : Word) : s.setReg r v = { s with regs := (s.setReg r v).regs } := by
  unfold State.setReg State.setRegIn
  split <;> rfl

/-- The end of every multiply: from the registers written, the flags, the draw and the advance (R210, R211). -/
theorem multiply_completes {u : State} {w : List (Reg × Word)} {left : Flags → Prop} {f : Flags}
    (hi : exec i st = advance (mulDrawn s (u.setFlagsWhen s f))) (hu : u = { st with regs := u.regs })
    (hw : st.wroteRegs u w) (hf : left f) : st.completes i fun t => st.multiplyDone t s w left := by
  obtain ⟨regs, rfl⟩ : ∃ regs, u = { st with regs := regs } := ⟨_, hu⟩
  rw [State.completes, hi]
  refine ⟨fun hpc => ⟨_, advance_of_ne (by simpa using hpc), by simp, State.wroteRegs_congr hw (by simp), ?flags, ?noFlags,
    ?system, State.keepsMemory_of_eq (by simp) (by simp)⟩, fun hpc => advance_wrap (by simpa using hpc)⟩
  case flags => rintro rfl; simpa using hf
  case noFlags => rintro rfl; simp [State.keepsFlags]
  case system => cases s <;> simp [State.keepsSystem]

/-- MUL and MLA, their condition passing and their restrictions met (R200, R201). -/
theorem mul_completes {named : List Reg} {r v : Word} (hc : condPassed c st.cpsr.flags = true)
    (hnamed : ∀ r ∈ named, r ≠ 15#4) (hrd : rd ≠ 15#4) (hne : rd ≠ rn)
    (hi : exec i st = guarded c st (checks (mulChecks 0#4 rd rn named) (mulWrite s rd v st))) (hv : v = r) :
    st.completes i fun t => st.multiplyDone t s [(rd, r)] (st.mulFlagsLeft r) := by
  subst hv
  rw [guarded_pass hc, checks_mulChecks, multiplyChecks_pass hnamed hne] at hi
  exact multiply_completes hi (State.setReg_eq_regs ..) (State.wroteRegs_setReg hrd rfl rfl) (mulFlags_left st v)

/-- A long multiply, its condition passing and its restrictions met (R202 to R205, R213). -/
theorem mull_completes {p v : BitVec 64} (hc : condPassed c st.cpsr.flags = true) (hrd : rd ≠ 15#4) (hra : ra ≠ 15#4)
    (hrm : rm ≠ 15#4) (hrn : rn ≠ 15#4) (hne : rd ≠ rn) (had : ra ≠ rd) (han : ra ≠ rn)
    (hi : exec i st = guarded c st (checks (mullChecks rd ra rm rn) (mullWrite s rd ra v st))) (hv : v = p) :
    st.completes i fun t =>
      st.multiplyDone t s [(rd, p.extractLsb' 32 32), (ra, p.extractLsb' 0 32)] (st.mullFlagsLeft p) := by
  subst hv
  rw [guarded_pass hc, checks_mullChecks, multiplyChecks_pass (by simp [hrd, hra, hrm, hrn]) hne,
    longOnlyChecks_pass had han] at hi
  have hw := State.wroteRegs_cons (v := v.extractLsb' 0 32) hra (State.setReg_bank ..)
    (State.wroteRegs_setReg (s := st) (v := v.extractLsb' 32 32) hrd rfl rfl) (by simp [hrd, had.symm])
  refine multiply_completes hi ?_ (State.wroteRegs_swap hw) (mullFlags_left st v)
  rw [State.setReg_eq_regs, State.setReg_eq_regs st]

/-! ## The products -/

/-- The accumulator as a number: Rd is its high word (R213). -/
theorem accumulator_eq (rd ra : Reg) (st : State) :
    accumulator rd ra st = BitVec.ofNat 64 ((st.reg rd).toNat * 2 ^ 32 + (st.reg ra).toNat) := by
  have hrd := (st.reg rd).isLt
  have hra := (st.reg ra).isLt
  apply BitVec.eq_of_toNat_eq
  rw [accumulator, cat, BitVec.toNat_cast, BitVec.toNat_append, ← Nat.shiftLeft_add_eq_or_of_lt hra, Nat.shiftLeft_eq,
    BitVec.toNat_ofNat, Nat.mod_eq_of_lt (by omega)]

/-- Settles O34: the product of two words is that of their numbers. -/
theorem multiplyResults : Obligations.MultiplyResults := by
  intro c s rd ra rm rn st hc hrd hrm hrn hne
  refine ⟨?mul, fun hra => ?mla⟩
  case mul => exact mul_completes hc (by simp [hrd, hrm, hrn]) hrd hne rfl (by simp [BitVec.ofNat_mul])
  case mla => exact mul_completes hc (by simp [hrd, hra, hrm, hrn]) hrd hne rfl (by simp [BitVec.ofNat_add, BitVec.ofNat_mul])

/-- Settles O35: each is its product, with or without the accumulator, written to two registers. -/
theorem longMultiplyResults : Obligations.LongMultiplyResults := by
  intro c s rd ra rm rn st hc hrd hra hrm hrn hne had han acc
  have done {i : Instr} {p v : BitVec 64} := mull_completes (s := s) (i := i) (p := p) (v := v) hc hrd hra hrm hrn hne had han
  refine ⟨done rfl rfl, done rfl ?umlal, done rfl rfl, done rfl ?smlal⟩
  case umlal => rw [accumulator_eq]; exact (BitVec.ofNat_add ..).symm
  case smlal => rw [accumulator_eq, signedProduct, BitVec.ofInt_add, BitVec.ofInt_natCast]

end Multiply

end Sys2Proof.Machine

/-! The addressing modes of the loads and stores (42_memory_instructions.md R222, R223, 30_encoding.md R94) and the address
ranges of the block transfers (44_miscellaneous.md R273). -/

namespace Sys2Proof.Machine

section Addressing

variable {idx : Index} {u : Bool}

/-- A field put below zeros is its number as a word (R94). -/
theorem cat_zero_eq_ofNat {m n : Nat} (a : BitVec n) (h : m + n = 32) : cat 0#m a h = BitVec.ofNat 32 a.toNat := by
  have ha : a.toNat < 2 ^ 32 := Nat.lt_of_lt_of_le a.isLt (Nat.pow_le_pow_right (by decide) (by omega))
  apply BitVec.eq_of_toNat_eq
  simpa [cat] using (Nat.mod_eq_of_lt ha).symm

theorem memAddressing_imm (idx : Index) (u : Bool) (rn : Reg) (imm12 : BitVec 12) (st : State) :
    memAddressing idx u rn (.imm imm12) st = addressing idx u (st.reg rn) (BitVec.ofNat 32 imm12.toNat) :=
  congrArg (addressing idx u _) (cat_zero_eq_ofNat imm12 rfl)

theorem extraAddressing_imm (idx : Index) (u : Bool) (rn : Reg) (imm8 : BitVec 8) (st : State) :
    extraAddressing (.mode idx) u rn (.imm imm8) st = addressing idx u (st.reg rn) (BitVec.ofNat 32 imm8.toNat) :=
  congrArg (addressing idx u _) (cat_zero_eq_ofNat imm8 rfl)

/-- Offset mode as arithmetic modulo 2^32 (R222). -/
theorem toNat_addressing_offset (u : Bool) (base : Word) {n : Nat} (hn : n < 2 ^ 32) :
    (addressing .offset u base (BitVec.ofNat 32 n)).adr.toNat =
      (if u then base.toNat + n else base.toNat + (2 ^ 32 - n)) % 2 ^ 32 := by
  cases u with
  | true => simp [addressing, BitVec.toNat_add]
  | false =>
    have hmod : n % 4294967296 = n := Nat.mod_eq_of_lt hn
    simp [addressing, BitVec.toNat_sub, hmod, Nat.add_comm]

/-- The size of a register list by the count of its bits (R273). -/
theorem blockSize_eq_countP (list : BitVec 16) :
    blockSize list = BitVec.ofNat 32 (4 * (List.range 16).countP fun k => list.getLsbD k) := by
  rw [blockSize, blockRegs, List.length_map, List.countP_eq_length_filter]

/-- Settles O26: an immediate offset is its number, a register offset its value, and a list's size the count of its bits. -/
theorem addressingModes : Obligations.AddressingModes := by
  intro st idx u rn rm imm12 imm8 sh n sbz base offset list bytes
  have hbytes : blockSize list = bytes := blockSize_eq_countP list
  have hmem := toNat_addressing_offset u (st.reg rn) (Nat.lt_trans imm12.isLt (by decide))
  have hextra := toNat_addressing_offset u (st.reg rn) (Nat.lt_trans imm8.isLt (by decide))
  rw [← memAddressing_imm] at hmem
  rw [← extraAddressing_imm] at hextra
  refine ⟨rfl, rfl, rfl, hmem, rfl, hextra, rfl, memAddressing_imm .., rfl, extraAddressing_imm .., rfl, rfl, rfl, ?_⟩
  simp [blockStart, blockWriteBack, hbytes]

/-- A mode gives a base to write back exactly when it writes one back (R223). -/
theorem addressing_writeBack_isSome (idx : Index) (u : Bool) (base offset : Word) :
    (addressing idx u base offset).writeBack.isSome = writesBack idx := by
  cases idx <;> rfl

/-- The restrictions of R225 keep the write-back from register 15 and from Rd. -/
theorem writeBack_ok_of_baseOk {rn rd : Reg} {rm : Option Reg} {base offset : Word}
    (h : baseOk (writesBack idx) rn rd rm) :
    (addressing idx u base offset).writeBack.isSome → rn ≠ 15#4 ∧ rn ≠ rd := by
  obtain ⟨hwb, -⟩ := h
  intro hsome
  obtain ⟨hpc, hne, -⟩ := hwb (by rwa [addressing_writeBack_isSome] at hsome)
  exact ⟨hpc, hne⟩

end Addressing

/-! ## Restrictions -/

section Stops

variable {c : Cond} {u : Bool} {rn rd : Reg} {st : State} {r : Refusal} {k : Result} {more : List (Bool × Refusal)}

/-- Two tables in a row: the first decides unless none of its cases holds. -/
theorem checks_append (l more : List (Bool × Refusal)) (k : Result) : checks (l ++ more) k = checks l (checks more k) := by
  induction l with
  | nil => rfl
  | cons x l ih => simp [checks, ih]

/-- The table of R225 stops at the first restriction broken. -/
theorem checks_baseChecks (wb : Bool) (rn rd : Reg) (rm : Option Reg) (k : Result) :
    checks (baseChecks wb rn rd rm) k = ((baseBroken wb rn rd rm).map .refused).getD k := by
  simp only [baseChecks, checks, baseBroken, Bool.and_eq_true, decide_eq_true_eq]
  split_ifs <;> rfl

theorem memChecks_broken {idx : Index} {off : MemOffset}
    (h : baseBroken (writesBack idx) rn rd (memOffsetReg off) = some r) :
    checks (memChecks idx rn rd off more) k = .refused r := by
  simp [memChecks, checks_append, checks_baseChecks, h]

theorem memChecks_unbroken {idx : Index} {off : MemOffset}
    (h : baseBroken (writesBack idx) rn rd (memOffsetReg off) = none) :
    checks (memChecks idx rn rd off more) k = checks more k := by
  simp [memChecks, checks_append, checks_baseChecks, h]

/-- Settles O41: the table of R225 and then the restriction of each instruction on Rd. -/
theorem memoryStops : Obligations.MemoryStops := by
  intro c idx u rn rd off st r hc
  have stop {i : Instr} {l : List (Bool × Refusal)} {k : Result} {r : Refusal}
      (hi : exec i st = guarded c st (checks l k)) (hl : checks l k = .refused r) : exec i st = .refused r :=
    hi.trans ((guarded_pass hc).trans hl)
  refine ⟨fun h => stop rfl (memChecks_broken h), fun h => stop rfl (memChecks_broken h),
    fun h => stop rfl (memChecks_broken h), fun h => stop rfl (memChecks_broken h), fun h hrd => ?rdPc, fun h => ?translated,
    fun h hrd => ?translatedRdPc⟩
  case rdPc =>
    exact ⟨stop rfl ((memChecks_unbroken h).trans (if_pos (by simpa using hrd))),
      stop rfl ((memChecks_unbroken h).trans (if_pos (by simpa using hrd))),
      fun hk => stop rfl ((memChecks_unbroken h).trans (if_pos (by simp [hrd, hk])))⟩
  case translated =>
    have hl {more : List (Bool × Refusal)} {k : Result} := memChecks_broken (idx := .post) (more := more) (k := k) h
    exact ⟨stop rfl hl, stop rfl hl, stop rfl hl, stop rfl hl⟩
  case translatedRdPc =>
    have hl {k : Result} : checks (memChecks .post rn rd off [(rd = 15#4, .tRdPc)]) k = .refused .tRdPc :=
      (memChecks_unbroken (idx := .post) h).trans (if_pos (by simpa using hrd))
    exact ⟨stop rfl hl, stop rfl hl, stop rfl hl, stop rfl hl⟩

/-- Each extra memory instruction, its condition passing, begins with the same restrictions. -/
theorem exec_of_extra {idx : ExtraIndex} {off : ExtraOffset} {i : Instr} (hc : condPassed c st.cpsr.flags = true)
    (hi : i = .strh c idx u rn rd off ∨ i = .ldrh c idx u rn rd off ∨ i = .ldrsb c idx u rn rd off ∨
      i = .ldrsh c idx u rn rd off) : ∃ k, exec i st = checks (extraChecks idx rn rd off) k := by
  obtain rfl | rfl | rfl | rfl := hi
  all_goals exact ⟨_, guarded_pass hc⟩

/-- With the fields of the encoding in order, the table of R225 and then the restriction on Rd decide. -/
theorem checks_extraChecks {mode : Index} {off : ExtraOffset} (hsbz : off.sbzOk = true) (k : Result) :
    checks (extraChecks (.mode mode) rn rd off) k =
      checks (baseChecks (writesBack mode) rn rd (extraOffsetReg off)) (checks [(decide (rd = 15#4), .extraRdPc)] k) := by
  rw [extraChecks, checks_append, checks_append]
  simp [checks, hsbz, extraMode]

/-- Settles O42: the fields of the encoding, the table of R225, and Rd = 15 last. -/
theorem extraMemoryStops : Obligations.ExtraMemoryStops := by
  intro c idx mode u rn rd off st r i hc hi
  obtain ⟨k, hexec⟩ := exec_of_extra hc hi
  rw [hexec]
  refine ⟨fun hsbz => ?sbz, fun hsbz hidx => ?p0w1, fun hsbz hidx hb => ?base, fun hsbz hidx hb hrd => ?rdPc⟩
  case sbz => simp [extraChecks, checks, hsbz]
  case p0w1 => simp [extraChecks, checks, hsbz, hidx]
  case base => rw [hidx, checks_extraChecks hsbz, checks_baseChecks, hb]; rfl
  case rdPc => rw [hidx, checks_extraChecks hsbz, checks_baseChecks, hb]; simp [checks, hrd]

end Stops

/-! ## Loads -/

section Loads

variable {c : Cond} {st : State} {i : Instr} {w : Width} {ext : Word → Word} {rn rd : Reg} {m : Addressing}
  {l : List (Bool × Refusal)} {v : Word}

theorem State.completes_mono {P Q : State → Prop} (h : st.completes i P) (hpq : ∀ t, P t → Q t) : st.completes i Q := by
  obtain ⟨hnext, hwrap⟩ := h
  refine ⟨fun hpc => ?_, hwrap⟩
  obtain ⟨t, ht, hleft⟩ := hnext hpc
  exact ⟨t, ht, hpq t hleft⟩

theorem loadReg_of_refuses {r : Refusal} (h : loadValue st w m.adr = .refuses r) :
    loadReg w ext rn rd m st = .refused r := by
  simp [loadReg, h, Access.run]

theorem loadReg_of_ok (h : loadValue st w m.adr = .ok v) :
    loadReg w ext rn rd m st = writeResult rd (ext v) (st.writeBack rn m) := by
  simp [loadReg, h, Access.run]

theorem loadReg_wrap (hpc : st.pc = 0xFFFFFFFC#32) (hrd : rd ≠ 15#4) (h : loadValue st w m.adr = .ok v) :
    loadReg w ext rn rd m st = .refused .pcWrap := by
  rw [loadReg_of_ok h, writeResult, if_neg hrd, advance_wrap (by simpa using hpc)]

/-- Instruction `i` is a load of R224: with an access that raises nothing it completes with the value in Rd, unless a byte of
it was never written (R56). -/
theorem load_completes (hc : condPassed c st.cpsr.flags = true) (hl : ∀ x ∈ l, x.1 = false)
    (hi : exec i st = guarded c st (checks l (loadReg w ext rn rd m st))) (hrd : rd ≠ 15#4)
    (hb : m.writeBack.isSome → rn ≠ 15#4 ∧ rn ≠ rd) (hr : st.reaches w m.adr = true) :
    (∀ v, st.loadBytes w (accessed w m.adr) = some v →
      st.completes i fun t => st.loadDone t rn rd m (ext (rotateLoaded w m.adr v))) ∧
    (st.loadBytes w (accessed w m.adr) = none → exec i st = .refused .readUnwritten) := by
  rw [guarded_checks_pass hc hl] at hi
  refine ⟨fun v hv => ?written, fun hv => ?unwritten⟩
  case written =>
    have hval := loadValue_of_reaches hr hv
    rw [State.completes, hi]
    exact ⟨fun hpc => loadReg_done hpc hrd hb hval, fun hpc => loadReg_wrap hpc hrd hval⟩
  case unwritten => exact hi.trans (loadReg_of_refuses (loadValue_unwritten hr hv))

/-- A byte loaded has nothing above its eight bits (R56). -/
theorem State.loadBytes_byte_high {a : Word} (h : st.loadBytes .byte a = some v) : v.extractLsb' 8 24 = 0#24 := by
  obtain ⟨b, -, rfl⟩ := Option.map_eq_some_iff.mp h
  rw [extract_cat_high _ _ _ (Nat.le_refl 8), extract_full]

/-- A halfword loaded has nothing above its sixteen bits (R56). -/
theorem State.loadBytes_half_high {a : Word} (h : st.loadBytes .half a = some v) : v.extractLsb' 16 16 = 0#16 := by
  simp only [State.loadBytes] at h
  split at h
  · cases h
    rw [extract_cat_high _ _ _ (Nat.le_refl 16), extract_full]
  · cases h

/-- Settles O37: each is the load of R224 with the value as it was read. -/
theorem loadResults : Obligations.LoadResults := by
  intro c idx u rn rd off st hc hrd m p loads
  refine ⟨fun hb => ⟨?ldr, ?ldrb⟩, fun hb => ⟨?ldrt, ?ldrbt⟩, fun a v => State.loadBytes_byte_high⟩
  case ldr =>
    exact load_completes (ext := extendZero) hc (memChecks_pass hb (pcLoadMisaligned_eq_false fun h => absurd h hrd)) rfl hrd
      (writeBack_ok_of_baseOk hb)
  case ldrb => exact load_completes hc (memChecks_pass hb (decide_eq_false hrd)) rfl hrd (writeBack_ok_of_baseOk hb)
  all_goals
    exact load_completes (m := p) (ext := extendZero) hc (memChecks_pass (idx := .post) hb (decide_eq_false hrd)) rfl hrd
      (writeBack_ok_of_baseOk (idx := .post) hb)

/-- The sign extension of the low bits repeats their top bit (R236, R237). -/
theorem getLsbD_signExtend_low (v : Word) {n k : Nat} (hn : 0 < n) (hk : k < 32) :
    ((v.extractLsb' 0 n).signExtend 32).getLsbD k = v.getLsbD (min k (n - 1)) := by
  rw [BitVec.getLsbD_signExtend, decide_eq_true hk, Bool.true_and]
  split
  · next hlt => simp [hlt, Nat.min_eq_left (Nat.le_sub_one_of_lt hlt)]
  · next hge => simp [BitVec.msb_eq_getLsbD_last, hn, Nat.min_eq_right (show n - 1 ≤ k by omega)]

/-- Settles O38: each is the load of R224 with its extension. -/
theorem extraLoadResults : Obligations.ExtraLoadResults := by
  intro c idx u rn rd off st hc hrd hsbz hb m loads
  have hl := extraChecks_pass hb hrd hsbz
  have load {i : Instr} {w : Width} {ext : Word → Word} {x : Word → Word → Prop}
      (hi : exec i st = guarded c st (checks _ (loadReg w ext rn rd m st)))
      (ha : accessed w m.adr = m.adr) (hrot : ∀ v, rotateLoaded w m.adr v = v)
      (hx : ∀ v, st.loadBytes w m.adr = some v → x v (ext v)) : loads i w x := fun hr => by
    obtain ⟨hwritten, hunwritten⟩ := load_completes hc hl hi hrd (writeBack_ok_of_baseOk hb) hr
    rw [ha] at hwritten hunwritten
    refine ⟨fun v hv => State.completes_mono (hwritten v hv) fun t ht => ⟨ext v, hx v hv, ?_⟩, hunwritten⟩
    rwa [hrot] at ht
  refine ⟨load rfl rfl (fun _ => rfl) fun v hv => ⟨rfl, State.loadBytes_half_high hv⟩,
    load rfl rfl (fun _ => rfl) fun v _ k hk => getLsbD_signExtend_low v (by decide) hk,
    load rfl rfl (fun _ => rfl) fun v _ k hk => getLsbD_signExtend_low v (by decide) hk, fun ha hp => ?odd⟩
  have hodd {ext : Word → Word} : loadReg .half ext rn rd m st = .refused .misalignedHalfword :=
    loadReg_of_refuses (loadValue_misalignedHalfword ha hp)
  exact ⟨(guarded_checks_pass hc hl).trans hodd, (guarded_checks_pass hc hl).trans hodd⟩

/-! ## LDR of register 15 -/

/-- A write-back changes no register but the base (R224). -/
theorem State.wroteRegs_writeBack (hb : m.writeBack.isSome → rn ≠ 15#4) :
    st.wroteRegs (st.writeBack rn m) (m.writeBack.map fun b => (rn, b)).toList := by
  unfold State.writeBack
  cases hm : m.writeBack with
  | none => exact State.wroteRegs_nil rfl
  | some b => exact State.wroteRegs_setReg (hb (by simp [hm])) rfl rfl

theorem State.keepsSystem_writeBack (st : State) (rn : Reg) (m : Addressing) : st.keepsSystem (st.writeBack rn m) := by
  unfold State.writeBack
  split <;> simp [State.keepsSystem]

/-- Settles O39: the write of R224 is a branch when Rd is register 15. -/
theorem loadWritesPc : Obligations.LoadWritesPc := by
  intro c idx u rn off st hc hb m i
  refine ⟨fun hca => ?accessible, fun ha hp => ?misaligned⟩
  case accessible =>
    obtain ⟨halign, -⟩ := State.canAccess_iff.mp hca
    have hexec : exec i st = loadReg .word extendZero rn 15#4 m st :=
      guarded_checks_pass hc (memChecks_pass hb (pcLoadMisaligned_eq_false fun _ => .inl halign))
    have hbranch {v : Word} (hv : st.loadBytes .word m.adr = some v) :
        exec i st = branchWritePC v (st.writeBack rn m) :=
      hexec.trans (loadReg_of_ok (loadValue_of_canAccess hca hv))
    refine ⟨fun v hv hv4 => ?branch, fun v hv hv4 => (hbranch hv).trans (if_neg hv4), fun hv => ?unwritten⟩
    case branch =>
      have hwrote : st.wroteRegs (st.writeBack rn m) (m.writeBack.map fun b => (rn, b)).toList :=
        State.wroteRegs_writeBack fun h => (writeBack_ok_of_baseOk hb h).1
      exact ⟨(st.writeBack rn m).setPc v, (hbranch hv).trans (if_pos hv4), rfl, State.wroteRegs_congr hwrote rfl,
        by simp [State.keepsFlags], State.keepsSystem_writeBack st rn m,
        State.keepsMemory_of_eq (by simp) (by simp)⟩
    case unwritten => exact hexec.trans (loadReg_of_refuses (loadValue_unwritten_of_canAccess hca hv))
  case misaligned =>
    have ha : ¬m.adr.extractLsb' 0 2 = 0#2 := by simpa [alignedFor] using ha
    have hpc : pcLoadMisaligned 15#4 m.adr st = true := by simp [pcLoadMisaligned, hp, ha]
    refine (guarded_pass hc).trans ?_
    rw [memChecks, checks_append, checks_pass (baseChecks_pass hb)]
    exact if_pos hpc

end Loads

/-! ## Stores -/

section Stores

variable {c : Cond} {st : State} {i : Instr} {w : Width} {rn rd : Reg} {m : Addressing} {l : List (Bool × Refusal)} {v : Word}

theorem storeValue_wrap (hpc : st.pc = 0xFFFFFFFC#32) (hr : st.reaches w m.adr = true) :
    storeValue w rn v m st = .refused .pcWrap := by
  simp [storeValue, memWrite_of_reaches hr, Access.run, advance_wrap, hpc]

/-- A halfword stored at an odd address has no meaning under `armv4` (R55). -/
theorem storeValue_misalignedHalfword (ha : alignedFor .half m.adr = false) (hp : st.params.misaligned = .armv4) :
    storeValue .half rn v m st = .refused .misalignedHalfword := by
  have hodd : m.adr.getLsbD 0 = true := by simpa [alignedFor] using ha
  simp [storeValue, memWrite, checkAccess, alignedAddress, hodd, hp, Access.bind, Access.run]

/-- Instruction `i` is a store of R224: with an access that raises nothing it completes. -/
theorem store_completes (hc : condPassed c st.cpsr.flags = true) (hl : ∀ x ∈ l, x.1 = false)
    (hi : exec i st = guarded c st (checks l (storeValue w rn v m st)))
    (hb : m.writeBack.isSome → rn ≠ 15#4 ∧ rn ≠ rd) (hr : st.reaches w m.adr = true) :
    st.completes i fun t => st.storeDone t w rn v m := by
  rw [guarded_checks_pass hc hl] at hi
  rw [State.completes, hi]
  exact ⟨fun hpc => storeValue_done hpc (fun h => (hb h).1) hr, fun hpc => storeValue_wrap hpc hr⟩

theorem State.storeReg_of_ne (hrd : rd ≠ 15#4) : st.storeReg rd = st.reg rd := if_neg hrd

theorem State.storeReg_pc (hrd : rd = 15#4) : st.storeReg rd = st.pc + storePcValue st.params.storePc := if_pos hrd

/-- Settles O40: each is the store of R224, STR of register 15 with the value `STORE_PC_OFFSET` gives it. -/
theorem storeResults : Obligations.StoreResults := by
  intro c idx u rn rd off xoff st hc m p x stores
  refine ⟨fun hb => ?plain, fun hrd hb => ?translated, fun hrd hb hsbz => ⟨?strh, fun ha hp => ?odd⟩⟩
  case plain =>
    have str (hpc : rd = 15#4 → st.params.storePc ≠ .none) {v : Word} (hv : st.storeReg rd = v) :
        stores (.str c idx u rn rd off) .word v m := by
      subst hv
      exact store_completes hc (memChecks_pass hb (by simpa using hpc)) rfl (writeBack_ok_of_baseOk hb)
    refine ⟨fun hrd => str (fun h => absurd h hrd) (State.storeReg_of_ne hrd),
      fun hrd hk => str (fun _ => by simp [hk]) ?_, fun hrd hk => str (fun _ => by simp [hk]) ?_,
      fun hrd => store_completes hc (memChecks_pass hb (decide_eq_false hrd)) rfl (writeBack_ok_of_baseOk hb)⟩
    all_goals rw [State.storeReg_pc hrd, hk]; rfl
  case translated =>
    have hl := memChecks_pass (idx := .post) (r := .tRdPc) hb (decide_eq_false hrd)
    have hwb := writeBack_ok_of_baseOk (idx := .post) (u := u) (base := st.reg rn) (offset := memOffset off st) hb
    exact ⟨store_completes hc hl rfl hwb, store_completes hc hl rfl hwb⟩
  case strh => exact store_completes hc (extraChecks_pass hb hrd hsbz) rfl (writeBack_ok_of_baseOk hb)
  case odd =>
    exact (guarded_checks_pass hc (extraChecks_pass hb hrd hsbz)).trans (storeValue_misalignedHalfword ha hp)

end Stores

end Sys2Proof.Machine

/-! The branches (43_branch.md R260 to R264): the target as arithmetic modulo 2^32, the link, and the frame. -/

namespace Sys2Proof.Machine

/-- The offset of a branch is signed, four bytes to the unit (R96, R261). -/
theorem toInt_branchOffset (imm24 : BitVec 24) : (cat imm24 0b00#2 : BitVec 26).toInt = 4 * imm24.toInt :=
  calc (cat imm24 0b00#2 : BitVec 26).toInt
    _ = (imm24 ++ 0#2).toInt := congrArg BitVec.toInt (BitVec.cast_eq rfl _)
    _ = 2 ^ 2 * imm24.toInt := BitVec.toInt_append_zero

/-- The target of a branch as one sum of integers, reduced once (R261). -/
theorem branchTarget_eq_ofInt (imm24 : BitVec 24) (st : State) :
    branchTarget imm24 st = BitVec.ofInt 32 ((st.pc.toNat : Int) + 8 + 4 * imm24.toInt) := by
  have hpc : BitVec.ofInt 32 (st.pc.toNat : Int) = st.pc := by simp
  rw [BitVec.ofInt_add, BitVec.ofInt_add, hpc, ← toInt_branchOffset]
  rfl

/-- Settles O51: the offset is a signed number of words, so its two low zeros keep the target aligned. -/
theorem branchTargetValue : Obligations.BranchTargetValue := fun imm24 st =>
  ⟨branchTarget_eq_ofInt imm24 st, aligned_branchTarget imm24⟩

section Done

variable {c : Cond} {imm24 : BitVec 24} {st u : State} {i : Instr} {w : List (Reg × Word)}

/-- A branch that runs, `u` being the state after its link: the pc goes to the target, and the registers are the only
other field that may differ (R260). -/
theorem branch_done (hc : condPassed c st.cpsr.flags = true) (hu : u = { st with regs := u.regs })
    (hw : st.wroteRegs u w) (hi : exec i st = guarded c st (.next (u.setPc (branchTarget imm24 st)))) :
    ∃ t, exec i st = .next t ∧ t.pc = BitVec.ofInt 32 ((st.pc.toNat : Int) + 8 + 4 * imm24.toInt) ∧
      st.wroteRegs t w ∧ st.keepsFlags t ∧ st.keepsSystem t ∧ st.keepsMemory t := by
  refine ⟨u.setPc (branchTarget imm24 st), hi.trans (guarded_pass hc), branchTarget_eq_ofInt imm24 st,
    State.wroteRegs_congr hw rfl, ?_⟩
  rw [hu]
  exact ⟨rfl, ⟨rfl, rfl, rfl, rfl, rfl, rfl, rfl⟩, State.keepsMemory_of_eq rfl rfl⟩

end Done

/-- Settles O52: B branches from the state itself, BL from the state with the link in R14 (R262, R263). -/
theorem branchResults : Obligations.BranchResults := by
  intro c imm24 st hc target done
  have hlink : st.wroteRegs (st.setReg 14#4 (st.pc + 4#32)) [(14#4, st.pc + 4#32)] :=
    State.wroteRegs_setReg (by decide) rfl rfl
  exact ⟨branch_done hc rfl (State.wroteRegs_nil rfl) rfl, branch_done hc (State.setReg_eq_regs ..) hlink rfl⟩

end Sys2Proof.Machine

/-! What block transfers, swaps and status register moves share: the end in an advance of the pc (R12, R27), and a read of
memory seen from a state with the same memory. -/

namespace Sys2Proof.Machine

section Ends

variable {st t u : State} {i : Instr} {left : State → Prop}

/-- An instruction that ends in the advance of `u` completes (R12, R27). -/
theorem completes_of_advance (hi : exec i st = advance u) (hpc : u.pc = st.pc) (hleft : left (u.setPc (st.pc + 4#32))) :
    st.completes i left := by
  rw [State.completes, hi, ← hpc]
  rw [← hpc] at hleft
  exact ⟨fun h => ⟨_, advance_of_ne h, hleft⟩, advance_wrap⟩

/-- A load reads the memory and no other field. -/
theorem State.loadBytes_eq_of_mem (h : t.mem = u.mem) (w : Width) (a : Word) : t.loadBytes w a = u.loadBytes w a :=
  loadBytes_congr fun b _ => by simp [State.byteAt, h]

end Ends

end Sys2Proof.Machine

/-! LDM and STM (44_miscellaneous.md R271 to R275): what stops them, what their accesses raise, and what they leave. -/

namespace Sys2Proof.Machine

/-! ## Restrictions -/

section BlockStops

variable {s w : Bool} {rn : Reg} {list : BitVec 16} {st : State}

/-- The table of an LDM, in order (R273, R274, R275, R346). -/
theorem checks_ldmChecks (s w : Bool) (rn : Reg) (list : BitVec 16) (st : State) (k : Result) :
    checks (ldmChecks s w rn list st) k =
      if list = 0#16 ∨ rn = 15#4 then .refused .ldmList
      else if s = true ∧ (st.mode = .usr ∨ inList list 15#4 = true ∧ st.mode = .sys) then .refused .ldmSProfileU
      else if s = true ∧ inList list 15#4 = false ∧ w = true then .refused .ldmUserBankWb
      else if w = true ∧ inList list rn = true then .refused .ldmWbBaseInList
      else k := by
  have hpc : list.getLsbD 15 = inList list 15#4 := rfl
  have hrn : list.getLsbD rn.toNat = inList list rn := rfl
  simp only [ldmChecks, checks, hpc, hrn, Bool.and_eq_true, Bool.or_eq_true, decide_eq_true_eq, Bool.not_eq_true',
    and_assoc]

/-- The table of an STM, in order (R273, R274, R275; 93 U13). -/
theorem checks_stmChecks (s w : Bool) (rn : Reg) (list : BitVec 16) (st : State) (k : Result) :
    checks (stmChecks s w rn list st) k =
      if list = 0#16 ∨ rn = 15#4 then .refused .ldmList
      else if s = true ∧ st.mode = .usr then .refused .ldmSProfileU
      else if s = true ∧ w = true then .refused .ldmUserBankWb
      else if w = true ∧ inList list rn = true ∧ blockRank list rn ≠ 0 then .refused .stmWbBaseNotLowest
      else if inList list 15#4 = true ∧ st.params.storePc = .none then .refused .stmPc
      else k := by
  have hlowest : (w = true ∧ inList list rn = true ∧ blockRank list rn ≠ 0) ↔
      (w = true ∧ inList list rn = true) ∧ (blockRegs list).head? ≠ some rn := by
    rw [and_assoc]
    exact and_congr_right fun _ => and_congr_right fun h => not_congr (blockRegs_head_iff h).symm
  simp only [hlowest]
  simp [stmChecks, checks, inList]

theorem checks_ldmChecks_pass {k : Result} (h : st.ldmAllowed s w rn list) : checks (ldmChecks s w rn list st) k = k := by
  obtain ⟨hlist, hrn, hbase, hs⟩ := h
  rw [checks_ldmChecks, if_neg (by simp [hlist, hrn]), if_neg ?mode, if_neg ?userBank, if_neg ?base]
  case mode =>
    rintro ⟨hS, hmode⟩
    obtain ⟨husr, hsys, -⟩ := hs hS
    exact hmode.elim husr fun ⟨hpc, h⟩ => hsys hpc h
  case userBank =>
    rintro ⟨hS, hpc, hw⟩
    obtain ⟨-, -, hbank⟩ := hs hS
    exact ne_true_of_eq_false (hbank hpc) hw
  case base => exact fun ⟨hw, hin⟩ => ne_true_of_eq_false (hbase hw) hin

theorem checks_stmChecks_pass {k : Result} (h : st.stmAllowed s w rn list) : checks (stmChecks s w rn list st) k = k := by
  obtain ⟨hlist, hrn, hs, hbase, hpc⟩ := h
  rw [checks_stmChecks, if_neg (by simp [hlist, hrn]), if_neg ?mode, if_neg ?userBank, if_neg ?base, if_neg ?pc]
  case mode =>
    rintro ⟨hS, hmode⟩
    obtain ⟨husr, -⟩ := hs hS
    exact husr hmode
  case userBank =>
    rintro ⟨hS, hw⟩
    obtain ⟨-, hbank⟩ := hs hS
    exact ne_true_of_eq_false hbank hw
  case base => exact fun ⟨hw, hin, hrank⟩ => hrank (hbase hw hin)
  case pc => exact fun ⟨hin, hk⟩ => hpc hin hk

/-- An LDM that runs and that its restrictions allow is its accesses and then its writes (R271). -/
theorem exec_ldm_of_allowed {c : Cond} {p u : Bool} (hc : condPassed c st.cpsr.flags = true)
    (ha : st.ldmAllowed s w rn list) :
    exec (.ldm c p u s w rn list) st =
      ((checkBlock st (blockPlan p u rn list st)).bind (loadBlock st)).run st fun vals =>
        ldmWrite u s w rn list vals st :=
  (guarded_pass hc).trans (checks_ldmChecks_pass ha)

/-- An STM that runs and that its restrictions allow is its accesses and then its writes (R272). -/
theorem exec_stm_of_allowed {c : Cond} {p u : Bool} (hc : condPassed c st.cpsr.flags = true)
    (ha : st.stmAllowed s w rn list) :
    exec (.stm c p u s w rn list) st =
      (checkBlock st (blockPlan p u rn list st)).run st fun plan =>
        advance (blockBase u w rn list (st.reg rn) (storeBlock (blockValue s st) plan st)) :=
  (guarded_pass hc).trans (checks_stmChecks_pass ha)

/-- Settles O47: the two tables of R273 to R275 in their order. -/
theorem blockStops : Obligations.BlockStops := by
  intro c p u s w rn list st hc l m
  have hl : exec l st = checks (ldmChecks s w rn list st) _ := guarded_pass hc
  have hm : exec m st = checks (stmChecks s w rn list st) _ := guarded_pass hc
  rw [hl, hm, checks_ldmChecks, checks_stmChecks]
  refine ⟨fun h => ⟨if_pos h, if_pos h⟩, fun hlist hrn => ?_⟩
  have hrest : ¬(list = 0#16 ∨ rn = 15#4) := by simp [hlist, hrn]
  rw [if_neg hrest, if_neg hrest]
  refine ⟨fun hs hmode => ?user, fun hs hmode hpc => ?system, fun hs hmode hw => ⟨?stmUserBank, fun hpc => ?ldmUserBank⟩,
    fun hs hw hbase => ?ldmBase, fun hs husr hsys hpc hw hbase => ?returnBase, fun hs hw hbase hrank => ?stmBase,
    fun hs hbase hpc hk => ?stmPc⟩
  case user => exact ⟨if_pos ⟨hs, .inl hmode⟩, if_pos ⟨hs, hmode⟩⟩
  case system => exact if_pos ⟨hs, .inr ⟨hpc, hmode⟩⟩
  case stmUserBank => simp [hs, hmode, hw]
  case ldmUserBank => simp [hs, hmode, hw, hpc]
  case ldmBase => simp [hs, hw, hbase]
  case returnBase => simp [hs, husr, hsys, hpc, hw, hbase]
  case stmBase => simp [hs, hw, hbase, hrank]
  case stmPc =>
    have huser : ¬(s = true ∧ st.mode = .usr) := fun ⟨hS, husr⟩ => (hs hS).1 husr
    have hbank : ¬(s = true ∧ w = true) := fun ⟨hS, hw⟩ => ne_true_of_eq_false (hs hS).2 hw
    have hlowest : ¬(w = true ∧ inList list rn = true ∧ blockRank list rn ≠ 0) := fun ⟨hw, hin, hrank⟩ =>
      hrank (hbase hw hin)
    rw [if_neg huser, if_neg hbank, if_neg hlowest, if_pos ⟨hpc, hk⟩]

end BlockStops

/-! ## Accesses that raise -/

section BlockRaises

variable {p u : Bool} {rn r : Reg} {list : BitVec 16} {st : State} {e : Exc} {info : Word}

/-- The first access that raises decides the whole transfer (R274). -/
theorem checkBlock_append_raises {l m : List (Reg × Word)} {x : Reg × Word}
    (hl : ∀ y ∈ l, st.reaches .word y.2 = true) (hx : checkAccess st .word x.2 = .raises e info) :
    checkBlock st (l ++ x :: m) = .raises e info := by
  induction l with
  | nil => simp [checkBlock, hx, Access.bind]
  | cons y l ih =>
    have hy := checkAccess_of_reaches (hl y (List.mem_cons_self ..))
    simp [checkBlock, hy, Access.bind, ih fun z hz => hl z (List.mem_cons_of_mem _ hz)]

/-- A transfer raises what its first register that raises does (R274). -/
theorem checkBlock_blockPlan_raises (hr : inList list r = true)
    (hx : checkAccess st .word (blockAddress p u (st.reg rn) list r) = .raises e info)
    (hbefore : ∀ q, inList list q = true → q.toNat < r.toNat →
      st.reaches .word (blockAddress p u (st.reg rn) list q) = true) :
    checkBlock st (blockPlan p u rn list st) = .raises e info := by
  obtain ⟨l, m, hlm⟩ := List.append_of_mem (mem_blockRegs.mpr hr)
  have hlow : ∀ q ∈ l, q.toNat < r.toNat := by
    have hsorted := blockRegs_pairwise list
    rw [hlm, List.pairwise_append] at hsorted
    obtain ⟨-, -, hcross⟩ := hsorted
    exact fun q hq => hcross q hq r (List.mem_cons_self ..)
  have hlisted : ∀ q ∈ l, inList list q = true := fun q hq => mem_blockRegs.mp (hlm ▸ List.mem_append_left _ hq)
  rw [blockPlan_eq, hlm, List.map_append, List.map_cons]
  refine checkBlock_append_raises (fun y hy => ?_) hx
  obtain ⟨q, hq, rfl⟩ := List.mem_map.mp hy
  exact hbefore q (hlisted q hq) (hlow q hq)

/-- A list that is not empty has a lowest register, and its word stands at the lowest address (R273). -/
theorem exists_lowest (p u : Bool) (base : Word) (h : list ≠ 0#16) :
    ∃ r, inList list r = true ∧ (∀ q, inList list q = true → ¬q.toNat < r.toNat) ∧
      blockAddress p u base list r = blockStart p u base list := by
  cases hl : blockRegs list with
  | nil =>
    refine absurd (BitVec.eq_of_getLsbD_eq fun k hk => ?_) h
    have hk4 : (BitVec.ofNat 4 k).toNat = k := by simpa using hk
    have hout : BitVec.ofNat 4 k ∉ blockRegs list := by simp [hl]
    simpa [mem_blockRegs, inList, hk4] using hout
  | cons r l =>
    have hr : inList list r = true := mem_blockRegs.mp (hl ▸ List.mem_cons_self ..)
    have hrank : blockRank list r = 0 := (blockRegs_head_iff hr).mp (by rw [hl]; rfl)
    refine ⟨r, hr, fun q hq hlt => ?_, by simp [blockAddress, hrank]⟩
    have := blockRank_lt hq hlt
    omega

/-- Every word of a transfer is as aligned as its base (R273). -/
theorem alignedFor_blockAddress (p u : Bool) (base : Word) (list : BitVec 16) (r : Reg) :
    alignedFor .word (blockAddress p u base list r) = alignedFor .word base := by
  have hmod : (blockAddress p u base list r).toNat % 4 = base.toNat % 4 := by
    cases p <;> cases u <;>
      simp only [blockAddress, blockStart, blockSize, BitVec.toNat_add, BitVec.toNat_sub, BitVec.toNat_ofNat] <;> omega
  simp only [alignedFor, aligned_iff, hmod]

/-- A transfer from a misaligned base raises at its lowest address (R54, R274). -/
theorem checkBlock_misaligned (hlist : list ≠ 0#16) (ha : alignedFor .word (st.reg rn) = false)
    (hp : st.params.misaligned = .fault) :
    checkBlock st (blockPlan p u rn list st) = .raises .alignmentFault (blockStart p u (st.reg rn) list) := by
  obtain ⟨r, hr, hlowest, hadr⟩ := exists_lowest p u (st.reg rn) hlist
  rw [← alignedFor_blockAddress p u _ list r] at ha
  rw [← hadr]
  exact checkBlock_blockPlan_raises hr (checkAccess_misaligned ha hp) fun q hq hlt => absurd hlt (hlowest q hq)

/-- A transfer whose first register outside `MEMMAP` is `r` (R51, R274). -/
theorem checkBlock_outside (ha : alignedFor .word (st.reg rn) = true ∨ st.params.misaligned = .armv4)
    (hr : inList list r = true)
    (hm : allMapped st.params (accessed .word (blockAddress p u (st.reg rn) list r)) 4 = false)
    (hbefore : ∀ q, inList list q = true → q.toNat < r.toNat →
      allMapped st.params (accessed .word (blockAddress p u (st.reg rn) list q)) 4 = true) :
    checkBlock st (blockPlan p u rn list st) =
      .raises .dataAbort (accessed .word (blockAddress p u (st.reg rn) list r)) := by
  have halign (q : Reg) : alignedFor .word (blockAddress p u (st.reg rn) list q) = true ∨
      (Width.word = .word ∧ st.params.misaligned = .armv4) := by
    simpa [alignedFor_blockAddress] using ha
  refine checkBlock_blockPlan_raises hr (checkAccess_outside (halign r) hm) fun q hq hlt => ?_
  simpa [State.reaches, Width.bytes, hbefore q hq hlt] using halign q

/-- An LDM or STM that its restrictions allow raises what its accesses raise. -/
theorem exec_block_of_raises {c : Cond} {s w : Bool} {i : Instr} (hc : condPassed c st.cpsr.flags = true)
    (hi : (i = .ldm c p u s w rn list ∧ st.ldmAllowed s w rn list) ∨
      (i = .stm c p u s w rn list ∧ st.stmAllowed s w rn list))
    (hx : checkBlock st (blockPlan p u rn list st) = .raises e info) : exec i st = raise e info st := by
  obtain ⟨rfl, hallowed⟩ | ⟨rfl, hallowed⟩ := hi
  · rw [exec_ldm_of_allowed hc hallowed, hx]; rfl
  · rw [exec_stm_of_allowed hc hallowed, hx]; rfl

/-- Settles O48: the checks of all accesses come first, and the first that raises decides. -/
theorem blockAccessesRaise : Obligations.BlockAccessesRaise := by
  intro c p u s w rn list st i hc hi adr
  have hlist : list ≠ 0#16 := by
    obtain ⟨-, hlist, -⟩ | ⟨-, hlist, -⟩ := hi
    all_goals exact hlist
  refine ⟨fun ha hp => ?misaligned, fun r ha hr hm hbefore => ?outside⟩
  case misaligned => rw [exec_block_of_raises hc hi (checkBlock_misaligned hlist ha hp)]; exact raise_takes rfl
  case outside => rw [exec_block_of_raises hc hi (checkBlock_outside ha hr hm hbefore)]; exact raise_takes rfl

end BlockRaises

/-! ## What LDM leaves -/

section Ldm

variable {c : Cond} {p u s w : Bool} {rn : Reg} {list : BitVec 16} {st : State} {v : Reg → Word}

/-- An LDM one of whose bytes nothing has written (R56). -/
theorem exec_ldm_unwritten {r : Reg} (hc : condPassed c st.cpsr.flags = true) (ha : st.ldmAllowed s w rn list)
    (hcan : st.canAccessBlock p u (st.reg rn) list) (hr : inList list r = true)
    (hnone : st.loadBytes .word (accessed .word (blockAddress p u (st.reg rn) list r)) = none) :
    exec (.ldm c p u s w rn list) st = .refused .readUnwritten := by
  rw [exec_ldm_of_allowed hc ha, checkBlock_blockPlan hcan, Access.bind,
    loadBlock_unwritten ⟨_, List.mem_map_of_mem (mem_blockRegs.mpr hr), hnone⟩]
  rfl

/-- An LDM all of whose words are in memory writes them (R271). -/
theorem exec_ldm (hc : condPassed c st.cpsr.flags = true) (ha : st.ldmAllowed s w rn list)
    (hcan : st.canAccessBlock p u (st.reg rn) list) (hv : st.blockHolds p u (st.reg rn) list v) :
    exec (.ldm c p u s w rn list) st = ldmWrite u s w rn list ((blockRegs list).map fun r => (r, v r)) st := by
  rw [exec_ldm_of_allowed hc ha, loadBlock_blockPlan hcan hv]
  rfl

/-- The state of an LDM before its pc: the listed registers of bank `b` and then the base. -/
def State.ldmLoaded (st : State) (b : Bank) (u w : Bool) (rn : Reg) (list : BitVec 16) (v : Reg → Word) : State :=
  blockBase u w rn list (st.reg rn) (setRegsIn b ((blockRegs list).map fun r => (r, v r)) st)

@[simp] theorem State.ldmLoaded_others (b : Bank) :
    (st.ldmLoaded b u w rn list v).pc = st.pc ∧ (st.ldmLoaded b u w rn list v).params = st.params ∧
    (st.ldmLoaded b u w rn list v).cpsr = st.cpsr ∧ (st.ldmLoaded b u w rn list v).spsr = st.spsr ∧
    (st.ldmLoaded b u w rn list v).mem = st.mem ∧ (st.ldmLoaded b u w rn list v).stored = st.stored ∧
    (st.ldmLoaded b u w rn list v).inputs = st.inputs ∧ (st.ldmLoaded b u w rn list v).hazard = st.hazard := by
  simp [State.ldmLoaded, blockBase_others]

/-- The loaded registers do not decide which SPSR is the current one (R342). -/
@[simp] theorem State.spsrNow_ldmLoaded (b : Bank) : (st.ldmLoaded b u w rn list v).spsrNow = st.spsrNow := by
  simp [State.spsrNow, State.bank, State.mode]

theorem State.keeps_ldmLoaded (b : Bank) (a : Word) :
    st.keepsFlags ((st.ldmLoaded b u w rn list v).setPc a) ∧ st.keepsSystem ((st.ldmLoaded b u w rn list v).setPc a) ∧
      st.keepsMemory ((st.ldmLoaded b u w rn list v).setPc a) :=
  ⟨by simp [State.keepsFlags], by simp [State.keepsSystem], State.keepsMemory_of_eq (by simp) (by simp)⟩

/-- An LDM of register 15 ends in the exception return with S = 1 and in a branch with S = 0 (R274, R275 (a)). -/
theorem ldmWrite_of_pc (hpc : inList list 15#4 = true) :
    ldmWrite u s w rn list ((blockRegs list).map fun r => (r, v r)) st =
      if s then exceptionReturn .ldmSProfileU (v 15#4) (st.ldmLoaded st.bank u w rn list v)
      else branchWritePC (v 15#4) (st.ldmLoaded st.bank u w rn list v) := by
  rw [← loadedPc_map (v := v) (mem_blockRegs.mpr hpc)]
  exact if_pos hpc

/-- Any other LDM ends in the advance of the pc, with S = 1 from the User registers and the caution of R373 (a)
(R275 (b)). -/
theorem ldmWrite_of_no_pc (hpc : inList list 15#4 = false) :
    ldmWrite u s w rn list ((blockRegs list).map fun r => (r, v r)) st =
      if s then advance { (st.ldmLoaded .usr u false rn list v).drawn with hazard := .fresh }
      else advance (st.ldmLoaded st.bank u w rn list v) :=
  if_neg (ne_true_of_eq_false hpc)

/-- Settles O44: the words go to the registers, and the pc to the next address or to the word of register 15. -/
theorem loadMultipleResults : Obligations.LoadMultipleResults := by
  intro c p u w rn list st v hc ha hcan i left
  refine ⟨fun r hr hnone => exec_ldm_unwritten hc ha hcan hr hnone, fun hv => ?_⟩
  have hexec := exec_ldm hc ha hcan hv
  obtain ⟨-, hrn, hbase, -⟩ := ha
  have hleft (a : Word) : left ((st.ldmLoaded st.bank u w rn list v).setPc a) :=
    ⟨ldmWroteRegs_blockBase hrn hbase fun _ => rfl, State.keeps_ldmLoaded st.bank a⟩
  refine ⟨fun hpc => ?advances, fun hpc halign => ?branches, fun hpc halign => ?unaligned⟩
  case advances => exact completes_of_advance (hexec.trans (ldmWrite_of_no_pc hpc)) (by simp) ⟨rfl, hleft _⟩
  case branches => exact ⟨_, (hexec.trans (ldmWrite_of_pc hpc)).trans (if_pos halign), rfl, hleft _⟩
  case unaligned => exact (hexec.trans (ldmWrite_of_pc hpc)).trans (if_neg halign)

/-- Settles O45: the words go to the registers of the mode and the CPSR comes from the SPSR, or they go to the User
bank. -/
theorem loadMultipleWithSResults : Obligations.LoadMultipleWithSResults := by
  intro c p u w rn list st v hc ha hcan i
  refine ⟨fun r hr hnone => exec_ldm_unwritten hc ha hcan hr hnone, fun hv => ?_⟩
  have hexec := exec_ldm hc ha hcan hv
  obtain ⟨-, hrn, hbase, -⟩ := ha
  refine ⟨fun q hpc hq => ?returns, fun hpc => ?userBank⟩
  case returns =>
    have hreturn : exec i st = exceptionReturn .ldmSProfileU (v 15#4) (st.ldmLoaded st.bank u w rn list v) :=
      hexec.trans (ldmWrite_of_pc hpc)
    rw [hreturn]
    refine ⟨fun halign => ?unaligned, fun halign ht => ?tBit, fun halign ht hm => ?badMode, fun m halign ht hm => ?legal⟩
    case unaligned => simp [exceptionReturn, hq, halign]
    case tBit => simp [exceptionReturn, hq, halign, Psr.toCpsr, ht]
    case badMode => simp [exceptionReturn, hq, halign, Psr.toCpsr, ht, hm]
    case legal =>
      have hcpsr : q.toCpsr = .ok ⟨q.flags, q.i, q.f, m⟩ := Psr.toCpsr_eq_ok.mpr ⟨ht, hm, rfl, rfl, rfl⟩
      exact ⟨_, exceptionReturn_eq_next.mpr ⟨q, _, by simpa using hq, halign, hcpsr, rfl⟩, rfl, rfl,
        ldmWroteRegs_blockBase hrn hbase fun _ => rfl, by simp, by simp, by simp, by simp,
        State.keepsMemory_of_eq (by simp) (by simp)⟩
  case userBank =>
    have hwrote : st.ldmWroteRegs (st.ldmLoaded .usr u false rn list v) .usr false rn list v 0#32 := by
      obtain ⟨hlisted, -, hothers⟩ :=
        ldmWroteRegs_blockBase (u := u) (st := st) (v := v) (b := .usr) (w := false) hrn (by simp) (by simp)
      exact ⟨hlisted, by simp, hothers⟩
    exact completes_of_advance (hexec.trans (ldmWrite_of_no_pc hpc)) (by simp)
      ⟨rfl, hwrote, by simp [State.keepsFlags], by simp, by simp, by simp, by simp, rfl,
        State.keepsMemory_of_eq (by simp) (by simp)⟩

end Ldm

/-! ## What STM leaves -/

section Stm

variable {p u s w : Bool} {rn : Reg} {list : BitVec 16} {st : State}

/-- The state of an STM before its base and its pc: the value of each listed register at its address. -/
def State.stmStored (st : State) (p u s : Bool) (rn : Reg) (list : BitVec 16) : State :=
  storeBlock (blockValue s st)
    ((blockRegs list).map fun r => (r, accessed .word (blockAddress p u (st.reg rn) list r))) st

/-- An STM whose accesses raise nothing writes its words and then the base (R272). -/
theorem exec_stm {c : Cond} (hc : condPassed c st.cpsr.flags = true) (ha : st.stmAllowed s w rn list)
    (hcan : st.canAccessBlock p u (st.reg rn) list) :
    exec (.stm c p u s w rn list) st = advance (blockBase u w rn list (st.reg rn) (st.stmStored p u s rn list)) := by
  rw [exec_stm_of_allowed hc ha, checkBlock_blockPlan hcan]
  rfl

/-- What a register of the list is stored as (R275; 93 U13). -/
theorem blockValue_eq (s : Bool) (st : State) (r : Reg) :
    blockValue s st r =
      if r = 15#4 then st.pc + storePcValue st.params.storePc else if s then st.userReg r else st.reg r := by
  by_cases hr : r = 15#4
  · simp [blockValue, State.storeReg, hr]
  · simp [blockValue, State.storeReg, hr]

/-- Each listed register's value stands at its address (R273). -/
theorem State.loadBytes_stmStored {r : Reg} (hr : inList list r = true) :
    (st.stmStored p u s rn list).loadBytes .word (accessed .word (blockAddress p u (st.reg rn) list r)) =
      some (blockValue s st r) := by
  have h := storeBlock_load (blockValue s st) _ st (blockTransfers_disjoint p u (st.reg rn) list) _
    (List.mem_map_of_mem (mem_blockRegs.mpr hr))
  rwa [narrow_word] at h

/-- The bytes of the words stored count as stored to (R65). -/
theorem State.countsStored_stmStored {r : Reg} (hr : inList list r = true) :
    (st.stmStored p u s rn list).countsStored .word (accessed .word (blockAddress p u (st.reg rn) list r)) := fun _ hb =>
  (mem_stored_storeBlock ..).mpr (.inl ⟨_, List.mem_map_of_mem (mem_blockRegs.mpr hr), hb⟩)

/-- No byte outside the words stored changes (R272). -/
theorem State.stmStored_out {b : Word}
    (h : ∀ r, inList list r = true → inAccess .word (accessed .word (blockAddress p u (st.reg rn) list r)) b = false) :
    (st.stmStored p u s rn list).byteAt b = st.byteAt b ∧
      (b.toNat ∈ (st.stmStored p u s rn list).stored ↔ b.toNat ∈ st.stored) := by
  refine storeBlock_out _ _ st b fun x hx => ?_
  obtain ⟨r, hr, rfl⟩ := List.mem_map.mp hx
  exact h r (mem_blockRegs.mp hr)

@[simp] theorem State.stmStored_others :
    (st.stmStored p u s rn list).pc = st.pc ∧ (st.stmStored p u s rn list).params = st.params ∧
    (st.stmStored p u s rn list).cpsr = st.cpsr ∧ (st.stmStored p u s rn list).spsr = st.spsr ∧
    (st.stmStored p u s rn list).regs = st.regs ∧ (st.stmStored p u s rn list).inputs = st.inputs ∧
    (st.stmStored p u s rn list).hazard = st.hazard := by
  simp [State.stmStored]

/-- The base written back is the one register an STM changes (R273). -/
theorem wroteRegs_blockBase {t : State} {base : Word} (hrn : rn ≠ 15#4) (hregs : t.regs = st.regs)
    (hbank : t.bank = st.bank) :
    st.wroteRegs (blockBase u w rn list base t) (if w then [(rn, blockWriteBack u base list)] else []) := by
  cases w
  · exact State.wroteRegs_nil hregs
  · exact State.wroteRegs_setReg hrn hregs hbank

/-- Settles O46: the words, the bytes noted, the frame of both, and the base. -/
theorem storeMultipleResults : Obligations.StoreMultipleResults := by
  intro c p u s w rn list st hc ha hcan adr
  have hexec := exec_stm (p := p) (u := u) hc ha hcan
  obtain ⟨-, hrn, -⟩ := ha
  refine completes_of_advance hexec (by simp [blockBase_others])
    ⟨rfl, fun r hr => ⟨?word, ?noted⟩, fun _ hb => ?outside, ?base, ?flags, ?system⟩
  case word =>
    rw [← blockValue_eq, ← State.loadBytes_stmStored hr]
    exact State.loadBytes_eq_of_mem (by simp [blockBase_others]) ..
  case noted =>
    intro b hb
    simpa [blockBase_others] using State.countsStored_stmStored hr b hb
  case outside => simpa [State.byteAt, blockBase_others] using State.stmStored_out hb
  case base => exact wroteRegs_blockBase hrn (by simp) (by simp [State.bank, State.mode])
  case flags => simp [State.keepsFlags, blockBase_others]
  case system => simp [State.keepsSystem, blockBase_others]

end Stm

end Sys2Proof.Machine

/-! SWP and SWPB (44_miscellaneous.md R280 to R282): what stops them, what their accesses raise, and what they leave. -/

namespace Sys2Proof.Machine

section Swap

variable {w : Width} {rn rd rm : Reg} {st : State} {i : Instr}

/-! ## Restrictions -/

/-- The table of SWP and SWPB, in order (R282, R111). -/
theorem checks_swapChecks (rn rd : Reg) (sbz : BitVec 4) (rm : Reg) (k : Result) :
    checks (swapChecks rn rd sbz rm) k =
      if rn = 15#4 ∨ rd = 15#4 ∨ rm = 15#4 ∨ rn = rm ∨ rn = rd then .refused .swpRegs
      else if sbz ≠ 0#4 then .refused .sbzViolation
      else k := by
  simp [swapChecks, checks, or_assoc]

theorem checks_swapChecks_pass {k : Result} (hregs : ¬(rn = 15#4 ∨ rd = 15#4 ∨ rm = 15#4 ∨ rn = rm ∨ rn = rd)) :
    checks (swapChecks rn rd 0#4 rm) k = k := by
  rw [checks_swapChecks, if_neg hregs]
  rfl

theorem swap_of_raises {e : Exc} {info : Word} (h : checkAccess st w (st.reg rn) = .raises e info) :
    swap w rn rd rm st = raise e info st := by
  simp [swap, loadValue_of_raises h, Access.run]

/-- Settles O50: the table of R282, and then what the checks of the read raise. -/
theorem swapStops : Obligations.SwapStops := by
  intro c rn rd rm sbz st hc bad
  have hword : exec (.swp c rn rd sbz rm) st = _ := guarded_pass hc
  have hbyte : exec (.swpb c rn rd sbz rm) st = _ := guarded_pass hc
  rw [hword, hbyte, checks_swapChecks, checks_swapChecks]
  refine ⟨fun hbad => ⟨if_pos hbad, if_pos hbad⟩, fun hok hsbz => ?field, fun hok hsbz ha hp => ?misaligned,
    fun hok hsbz ha hm => ?wordOutside, fun hok hsbz hm => ?byteOutside⟩
  case field =>
    rw [if_neg hok, if_neg hok]
    exact ⟨if_pos hsbz, if_pos hsbz⟩
  case misaligned =>
    rw [if_neg hok, if_neg (not_not.mpr hsbz), swap_of_raises (checkAccess_misaligned ha hp)]
    exact raise_takes rfl
  case wordOutside =>
    have ha : alignedFor .word (st.reg rn) = true ∨ (Width.word = .word ∧ st.params.misaligned = .armv4) := by
      simpa using ha
    rw [if_neg hok, if_neg (not_not.mpr hsbz), swap_of_raises (checkAccess_outside ha hm)]
    exact raise_takes rfl
  case byteOutside =>
    rw [if_neg hok, if_neg (not_not.mpr hsbz), swap_of_raises (checkAccess_unmapped (w := .byte) rfl hm)]
    exact raise_takes rfl

/-! ## What a swap leaves -/

/-- A swap whose value was read stores at the same address and then writes Rd (R282). -/
theorem swap_of_reaches {old : Word} (hr : st.reaches w (st.reg rn) = true)
    (hold : st.loadBytes w (accessed w (st.reg rn)) = some old) :
    swap w rn rd rm st =
      advance ((st.storeBytes w (accessed w (st.reg rn)) (st.reg rm)).setReg rd (rotateLoaded w (st.reg rn) old)) := by
  simp [swap, loadValue_of_reaches hr hold, memWrite_of_reaches hr, Access.run]

/-- Instruction `i`, the swap of R282 with its restrictions met, at an address it can access. -/
theorem swap_completes (hi : exec i st = swap w rn rd rm st) (hrd : rd ≠ 15#4) (hr : st.reaches w (st.reg rn) = true) :
    (∀ old, st.loadBytes w (accessed w (st.reg rn)) = some old →
      st.completes i fun t => t.pc = st.pc + 4#32 ∧ st.wroteRegs t [(rd, rotateLoaded w (st.reg rn) old)] ∧
        t.loadBytes w (accessed w (st.reg rn)) = some (narrow w (st.reg rm)) ∧ t.countsStored w (accessed w (st.reg rn)) ∧
        st.keepsMemoryOutside t w (accessed w (st.reg rn)) ∧ st.keepsFlags t ∧ st.keepsSystem t) ∧
    (st.loadBytes w (accessed w (st.reg rn)) = none → exec i st = .refused .readUnwritten) := by
  refine ⟨fun old hold => ?written, fun hnone => ?unwritten⟩
  case written =>
    refine completes_of_advance (hi.trans (swap_of_reaches hr hold)) (by simp)
      ⟨rfl, State.wroteRegs_congr (State.wroteRegs_setReg hrd (by simp) (by simp)) rfl, ?read, fun b hb => ?noted,
        fun b hb => ?outside, by simp [State.keepsFlags], by simp [State.keepsSystem]⟩
    case read =>
      rw [← State.loadBytes_storeBytes st]
      exact State.loadBytes_eq_of_mem (by simp) ..
    case noted => simp [State.mem_stored_storeBytes, hb]
    case outside => simpa [State.byteAt] using State.keepsMemoryOutside_storeBytes st w _ (st.reg rm) b hb
  case unwritten =>
    rw [hi, swap, loadValue_unwritten hr hnone]
    rfl

/-- Settles O49: both are the swap of their width, a word read being rotated. -/
theorem swapResults : Obligations.SwapResults := by
  intro c rn rd rm st hc hrn hrd hrm hnm hnd a done
  have hregs : ¬(rn = 15#4 ∨ rd = 15#4 ∨ rm = 15#4 ∨ rn = rm ∨ rn = rd) := by simp [hrn, hrd, hrm, hnm, hnd]
  have hword : exec (.swp c rn rd 0#4 rm) st = swap .word rn rd rm st :=
    (guarded_pass hc).trans (checks_swapChecks_pass hregs)
  have hbyte : exec (.swpb c rn rd 0#4 rm) st = swap .byte rn rd rm st :=
    (guarded_pass hc).trans (checks_swapChecks_pass hregs)
  exact ⟨swap_completes hword hrd, swap_completes hbyte hrd⟩

end Swap

end Sys2Proof.Machine

/-! MRS (44_miscellaneous.md R295, 60_exceptions.md R340) and SWI (R285). -/

namespace Sys2Proof.Machine

/-! ## The mode numbers -/

theorem Mode.ofBits_eq_some {n : BitVec 5} {m : Mode} : Mode.ofBits n = some m ↔ n = m.bits :=
  ⟨fun h => (Mode.bits_ofBits h).symm, fun h => h ▸ Mode.ofBits_bits m⟩

/-! ## A status register as a word -/

/-- `v` is what R340 reads of the status register `q`. -/
def Psr.readsAs (q : Psr) (v : Word) : Prop :=
  v.getLsbD 31 = q.flags.n ∧ v.getLsbD 30 = q.flags.z ∧ v.getLsbD 29 = q.flags.c ∧ v.getLsbD 28 = q.flags.v ∧
  v.extractLsb' 8 20 = 0#20 ∧ v.getLsbD 7 = q.i ∧ v.getLsbD 6 = q.f ∧ v.getLsbD 5 = q.t ∧ v.extractLsb' 0 5 = q.m

theorem Psr.readsAs_toWord (q : Psr) : q.readsAs q.toWord := by
  refine ⟨?_, ?_, ?_, ?_, ?zeros, ?_, ?_, ?_, ?mode⟩
  case zeros =>
    rw [Psr.toWord, extract_cat_low _ _ _ (by decide), extract_cat_high _ _ _ (by decide)]
    exact extract_full _
  case mode =>
    rw [Psr.toWord, extract_cat_low _ _ _ (by decide), extract_cat_low _ _ _ (by decide),
      extract_cat_low _ _ _ (by decide), extract_cat_low _ _ _ (by decide), extract_cat_low _ _ _ (by decide), extract_full]
  all_goals
    simp only [Psr.toWord, Flags.bits, bit_cat]
    simp

/-- MRS of the status register `q` completes with the word of `q` in Rd and nothing else changed. -/
theorem mrs_completes {c : Cond} {r : Bool} {rd : Reg} {st : State} {q : Psr} (hc : condPassed c st.cpsr.flags = true)
    (hrd : rd ≠ 15#4) (hq : (if r then st.spsrNow else some st.psr) = some q) :
    st.completes (.mrs c r 15#4 rd 0#4 0#4) fun t => ∃ v, t.pc = st.pc + 4#32 ∧ st.wroteRegs t [(rd, v)] ∧ q.readsAs v ∧
      st.keepsFlags t ∧ st.keepsSystem t ∧ st.keepsMemory t := by
  have hexec : exec (.mrs c r 15#4 rd 0#4 0#4) st = advance (st.setReg rd q.toWord) := by
    refine (guarded_checks_pass hc (by simp [hrd])).trans ?_
    cases r with
    | false => cases hq; rfl
    | true => simp [show st.spsrNow = some q from hq]
  exact completes_of_advance hexec (by simp) ⟨q.toWord, rfl,
    State.wroteRegs_congr (State.wroteRegs_setReg hrd rfl rfl) rfl, q.readsAs_toWord, by simp [State.keepsFlags],
    by simp [State.keepsSystem], State.keepsMemory_of_eq (by simp) (by simp)⟩

/-- Settles O53: the mode numbers by their table, and each MRS by the register that it names. -/
theorem statusReadResults : Obligations.StatusReadResults := by
  refine ⟨by decide, fun _ _ => Mode.ofBits_eq_some, ?_⟩
  intro c rd st hc hrd done
  have hdone {r : Bool} {q : Psr} (hq : (if r then st.spsrNow else some st.psr) = some q) : done r q :=
    State.completes_mono (mrs_completes hc hrd hq)
      fun t ⟨v, hpc, hregs, ⟨hn, hz, hcf, hv, hzero, hi, hf, ht, hm⟩, hkeeps⟩ =>
      ⟨v, hpc, hregs, hn, hz, hcf, hv, hzero, hi, hf, ht, hm, hkeeps⟩
  exact ⟨fun hU => hdone (by simp [State.psr, hU, Mode.bits]), fun hS => hdone (by simp [State.psr, hS, Cpsr.toPsr]),
    fun q hq => hdone (r := true) hq⟩

/-! ## Software interrupt -/

/-- Settles O58: the condition passes, and `imm24` with zeros above it is its number. -/
theorem softwareInterruptTaken : Obligations.SoftwareInterruptTaken := by
  intro c imm24 st hc
  rw [← cat_zero_eq_ofNat imm24 rfl, show exec (.swi c imm24) st = _ from guarded_pass hc]
  exact raise_takes rfl

end Sys2Proof.Machine

/-! The statements of 45_condition_flags.md: the condition table (R302), an instruction whose condition fails (R301), and the
flags of a sum and of a difference (R306). -/

namespace Sys2Proof.Machine

/-! ## The condition -/

/-- The one field that names no condition (R112). -/
theorem eq_ones_of_no_cond {v : BitVec 4} (h : Cond.ofBits v = none) : v = 0b1111#4 := by
  revert v; decide

/-- Settles O19: a field that names a condition is that condition's row of the table. -/
theorem conditionTable : Obligations.ConditionTable := by
  intro f v
  cases hv : Cond.ofBits v with
  | none =>
    obtain rfl := eq_ones_of_no_cond hv
    rfl
  | some c =>
    obtain rfl := Cond.bits_ofBits hv
    cases c with
    | ge | lt | gt | le => simp [Cond.bits, condPassed, beq_eq_decide, bne]
    | _ => simp [Cond.bits, condPassed]

/-- Every instruction with a condition runs under it, whatever its fields hold (R301). -/
theorem exec_of_cond {i : Instr} {c : Cond} (h : i.cond = some c) (s : State) : ∃ k, exec i s = guarded c s k := by
  cases i with
  | reservedCond1111 => cases h
  | _ => cases h; exact ⟨_, rfl⟩

/-- Settles O16: the guard answers before anything else of the instruction is looked at. -/
theorem failedConditionAdvances : Obligations.FailedConditionAdvances := by
  intro i c s hcond hfail
  obtain ⟨k, hexec⟩ := exec_of_cond hcond s
  rw [hexec, guarded_fail hfail]
  exact ⟨advance_of_ne, advance_wrap⟩

/-! ## The flags of a sum -/

/-- The value is the exact signed sum, brought back into the range of a word. -/
theorem addWithCarry_toInt (p q : Word) (cin : Bool) :
    (addWithCarry p q cin).value.toInt = (p.toInt + q.toInt + cin.toNat).bmod (2 ^ 32) := by
  cases cin <;> simp [addWithCarry_value, BitVec.toInt_add]

/-- V by signs (R306): two words of unlike sign have a sum that fits, and the narrowing of one that does not fit turns the
sign over. -/
theorem addWithCarry_overflow_msb (p q : Word) (cin : Bool) :
    (addWithCarry p q cin).overflow = (p.msb == q.msb && (addWithCarry p q cin).value.msb != p.msb) := by
  have hp := p.toInt_lt
  have hp' := p.le_toInt
  have hq := q.toInt_lt
  have hq' := q.le_toInt
  have hcin := cin.toNat_le
  rw [Bool.eq_iff_iff, addWithCarry_overflow]
  simp only [BitVec.msb_eq_toInt, addWithCarry_toInt, Int.bmod_def, Bool.and_eq_true, beq_iff_eq, bne_iff_ne, ne_eq,
    decide_eq_decide]
  split <;> omega

/-- Settles O18: V by the signs of the exact sum, and the rest as a subtraction with its borrow. -/
theorem overflowAndBorrow : Obligations.OverflowAndBorrow := by
  intro p q cin
  refine ⟨addWithCarry_overflow_msb p q cin, ?difference, ?noBorrow, ?borrowed⟩
  case difference | noBorrow => rw [addWithCarry_sub]
  case borrowed =>
    rw [addWithCarry_sub_borrow]
    cases cin <;> rfl

end Sys2Proof.Machine

/-! What an instruction can do in User mode: leave everything privileged alone, or enter an exception (R340, R344). -/

namespace Sys2Proof.Machine

/-! ## What User mode may not change -/

/-- What only a privileged mode or an exception entry may change is as before: parameters, I, F, mode, every SPSR, and every
register that is not User mode's. -/
def State.keepsPrivileged (s t : State) : Prop :=
  t.params = s.params ∧ t.cpsr.i = s.cpsr.i ∧ t.cpsr.f = s.cpsr.f ∧ t.cpsr.mode = s.cpsr.mode ∧ t.spsr = s.spsr ∧
  ∀ j, (∀ r, r ≠ 15#4 → j ≠ slot .usr r) → t.regs.get j = s.regs.get j

/-- What an instruction of User mode leaves: everything privileged as it was, or the entry to an exception. -/
def State.staysOrEnters (s t : State) : Prop := s.keepsPrivileged t ∨ ∃ e, t = enterException e s

section Confinement

variable {s t : State}

@[simp] theorem State.keepsPrivileged_refl (s : State) : s.keepsPrivileged s :=
  ⟨rfl, rfl, rfl, rfl, rfl, fun _ _ => rfl⟩

theorem State.keepsPrivileged_congr {u : State} (hp : u.params = t.params) (hc : u.cpsr = t.cpsr) (hs : u.spsr = t.spsr)
    (hr : u.regs = t.regs) : s.keepsPrivileged u ↔ s.keepsPrivileged t := by
  simp only [State.keepsPrivileged, hp, hc, hs, hr]

theorem State.mode_of_keepsPrivileged (h : s.keepsPrivileged t) : t.mode = s.mode := by
  obtain ⟨hparams, -, -, hmode, -⟩ := h
  simp only [State.mode, hparams, hmode]

/-! ## The updates of the state -/

@[simp] theorem State.keepsPrivileged_setPc {v : Word} : s.keepsPrivileged (t.setPc v) ↔ s.keepsPrivileged t := .rfl

@[simp] theorem State.keepsPrivileged_setFlags {f : Flags} : s.keepsPrivileged (t.setFlags f) ↔ s.keepsPrivileged t := .rfl

@[simp] theorem State.keepsPrivileged_setFlagsWhen {b : Bool} {f : Flags} :
    s.keepsPrivileged (t.setFlagsWhen b f) ↔ s.keepsPrivileged t := by
  cases b <;> exact .rfl

@[simp] theorem State.keepsPrivileged_mulDrawn {b : Bool} : s.keepsPrivileged (mulDrawn b t) ↔ s.keepsPrivileged t := by
  unfold mulDrawn; split
  · exact .rfl
  · split <;> exact .rfl

@[simp] theorem State.keepsPrivileged_storeBytes {w : Width} {a v : Word} :
    s.keepsPrivileged (t.storeBytes w a v) ↔ s.keepsPrivileged t :=
  State.keepsPrivileged_congr (by simp) (by simp) (by simp) (by simp)

@[simp] theorem State.keepsPrivileged_storeBlock {f : Reg → Word} {l : List (Reg × Word)} :
    s.keepsPrivileged (storeBlock f l t) ↔ s.keepsPrivileged t :=
  State.keepsPrivileged_congr (by simp) (by simp) (by simp) (by simp)

theorem State.keepsPrivileged_memWrite {w : Width} {a v : Word} (h : memWrite s w a v = .ok t) : s.keepsPrivileged t := by
  obtain ⟨b, -, rfl⟩ := memWrite_eq_ok.mp h
  simp

/-- A write of a User register changes no register of another bank (R341). -/
theorem State.keepsPrivileged_setRegIn {r : Reg} {v : Word} (h : s.keepsPrivileged t) :
    s.keepsPrivileged (t.setRegIn .usr r v) := by
  obtain ⟨hparams, hi, hf, hmode, hspsr, hregs⟩ := h
  refine ⟨by simpa, by simpa, by simpa, by simpa, by simpa, fun j hj => ?_⟩
  rw [State.setRegIn_get, if_neg fun hw => hj r hw.1 hw.2.symm]
  exact hregs j hj

theorem State.keepsPrivileged_setRegsIn {l : List (Reg × Word)} (h : s.keepsPrivileged t) :
    s.keepsPrivileged (setRegsIn .usr l t) := by
  induction l generalizing t with
  | nil => exact h
  | cons x l ih => exact ih (keepsPrivileged_setRegIn h)

/-- In User mode the registers written are User mode's. -/
theorem State.keepsPrivileged_setReg {r : Reg} {v : Word} (hu : s.mode = .usr) (h : s.keepsPrivileged t) :
    s.keepsPrivileged (t.setReg r v) := by
  have hbank : t.bank = .usr := by rw [State.bank, mode_of_keepsPrivileged h, hu]; rfl
  rw [State.setReg, hbank]
  exact keepsPrivileged_setRegIn h

theorem State.keepsPrivileged_writeBack {rn : Reg} {m : Addressing} (hu : s.mode = .usr) (h : s.keepsPrivileged t) :
    s.keepsPrivileged (t.writeBack rn m) := by
  unfold State.writeBack; split
  · exact h
  · exact keepsPrivileged_setReg hu h

theorem State.keepsPrivileged_blockBase {u w : Bool} {rn : Reg} {list : BitVec 16} {base : Word} (hu : s.mode = .usr)
    (h : s.keepsPrivileged t) : s.keepsPrivileged (blockBase u w rn list base t) := by
  unfold blockBase; split
  · exact keepsPrivileged_setReg hu h
  · exact h

/-! ## The end of an instruction -/

theorem State.staysOrEnters_enterException (e : Exc) : s.staysOrEnters (enterException e s) := .inr ⟨e, rfl⟩

theorem advance_stays (h : s.keepsPrivileged t) : Leaves s.staysOrEnters (advance t) := leaves_advance (.inl h)

theorem branchWritePC_stays {v : Word} (h : s.keepsPrivileged t) : Leaves s.staysOrEnters (branchWritePC v t) :=
  leaves_branchWritePC (.inl h)

theorem exceptionReturn_none {r : Refusal} {target : Word} (h : s.spsrNow = none) :
    exceptionReturn r target s = .refused r := by
  simp only [exceptionReturn, h]

/-- User mode has no SPSR to return from an exception with (R342, R346). -/
theorem exceptionReturn_usr {r : Refusal} {target : Word} (hu : s.mode = .usr) :
    exceptionReturn r target s = .refused r :=
  exceptionReturn_none (State.spsrNow_eq_none.mpr (.inl hu))

theorem raise_staysOrEnters {e : Exc} {info : Word} : Leaves s.staysOrEnters (raise e info s) :=
  leaves_raise (State.staysOrEnters_enterException e)

theorem guarded_staysOrEnters {c : Cond} {k : Result} (h : Leaves s.staysOrEnters k) :
    Leaves s.staysOrEnters (guarded c s k) :=
  leaves_guarded (.inl (by simp)) h

/-- An instruction that answers a next state has met its restrictions. -/
theorem guarded_checks_staysOrEnters {c : Cond} {l : List (Bool × Refusal)} {k : Result}
    (h : (∀ x ∈ l, x.1 = false) → Leaves s.staysOrEnters k) : Leaves s.staysOrEnters (guarded c s (checks l k)) :=
  guarded_staysOrEnters fun t ht =>
    have ⟨hl, hk⟩ := checks_eq_next.mp ht
    h hl t hk

theorem run_staysOrEnters {α : Type} {x : Access α} {k : α → Result}
    (h : ∀ v, x = .ok v → Leaves s.staysOrEnters (k v)) : Leaves s.staysOrEnters (x.run s k) :=
  leaves_run State.staysOrEnters_enterException h

/-! ## The shared operations of the families -/

theorem dpWrite_staysOrEnters {sBit : Bool} {rd : Reg} {result : Word} {f : Flags} (hu : s.mode = .usr) :
    Leaves s.staysOrEnters (dpWrite sBit rd result f s) := by
  unfold dpWrite
  split_ifs
  · rw [exceptionReturn_usr hu]; exact leaves_refused _
  · exact branchWritePC_stays s.keepsPrivileged_refl
  · exact advance_stays (by simpa using State.keepsPrivileged_setReg hu s.keepsPrivileged_refl)

theorem mulWrite_staysOrEnters {sBit : Bool} {rd : Reg} {result : Word} (hu : s.mode = .usr) :
    Leaves s.staysOrEnters (mulWrite sBit rd result s) :=
  advance_stays (by simpa using State.keepsPrivileged_setReg hu s.keepsPrivileged_refl)

theorem mullWrite_staysOrEnters {sBit : Bool} {rd ra : Reg} {p : BitVec 64} (hu : s.mode = .usr) :
    Leaves s.staysOrEnters (mullWrite sBit rd ra p s) :=
  advance_stays <| by
    simpa using State.keepsPrivileged_setReg hu (State.keepsPrivileged_setReg hu s.keepsPrivileged_refl)

theorem loadReg_staysOrEnters {w : Width} {ext : Word → Word} {rn rd : Reg} {m : Addressing} (hu : s.mode = .usr) :
    Leaves s.staysOrEnters (loadReg w ext rn rd m s) :=
  run_staysOrEnters fun _ _ =>
    have hbase := State.keepsPrivileged_writeBack hu s.keepsPrivileged_refl
    leaves_writeResult (.inl hbase) (.inl (State.keepsPrivileged_setReg hu hbase))

theorem storeValue_staysOrEnters {w : Width} {rn : Reg} {v : Word} {m : Addressing} (hu : s.mode = .usr) :
    Leaves s.staysOrEnters (storeValue w rn v m s) :=
  run_staysOrEnters fun _ hw => advance_stays (State.keepsPrivileged_writeBack hu (State.keepsPrivileged_memWrite hw))

theorem swap_staysOrEnters {w : Width} {rn rd rm : Reg} (hu : s.mode = .usr) :
    Leaves s.staysOrEnters (swap w rn rd rm s) :=
  run_staysOrEnters fun _ _ => run_staysOrEnters fun _ hw =>
    advance_stays (State.keepsPrivileged_setReg hu (State.keepsPrivileged_memWrite hw))

/-- LDM with S = 0 loads registers of the current mode. -/
theorem ldmWrite_staysOrEnters {u w : Bool} {rn : Reg} {list : BitVec 16} {vals : List (Reg × Word)} (hu : s.mode = .usr) :
    Leaves s.staysOrEnters (ldmWrite u false w rn list vals s) := by
  have hbank : s.bank = .usr := by rw [State.bank, hu]; rfl
  have hloaded : s.keepsPrivileged (blockBase u w rn list (s.reg rn) (setRegsIn s.bank vals s)) := by
    rw [hbank]
    exact State.keepsPrivileged_blockBase hu (State.keepsPrivileged_setRegsIn s.keepsPrivileged_refl)
  by_cases hpc : list.getLsbD 15 = true
  · rw [ldmWrite, if_pos hpc]
    exact branchWritePC_stays hloaded
  · rw [ldmWrite, if_neg hpc]
    exact advance_stays hloaded

/-- LDM with S = 1 is refused in User mode (R275), so neither an exception return nor a User-bank load is made. -/
theorem execLdm_staysOrEnters {c : Cond} {p u sBit w : Bool} {rn : Reg} {list : BitVec 16} (hu : s.mode = .usr) :
    Leaves s.staysOrEnters (execLdm c p u sBit w rn list s) :=
  guarded_checks_staysOrEnters fun hchecks => run_staysOrEnters fun _ _ => by
    cases sBit with
    | true => simp [ldmChecks, hu] at hchecks
    | false => exact ldmWrite_staysOrEnters hu

theorem execStm_staysOrEnters {c : Cond} {p u sBit w : Bool} {rn : Reg} {list : BitVec 16} (hu : s.mode = .usr) :
    Leaves s.staysOrEnters (execStm c p u sBit w rn list s) :=
  guarded_checks_staysOrEnters fun _ => run_staysOrEnters fun _ _ =>
    advance_stays (State.keepsPrivileged_blockBase hu (by simp))

theorem execMrs_staysOrEnters {c : Cond} {r : Bool} {sbo sbzHi sbzLo : BitVec 4} {rd : Reg} (hu : s.mode = .usr) :
    Leaves s.staysOrEnters (execMrs c r sbo rd sbzHi sbzLo s) := by
  have hreg (v : Word) : Leaves s.staysOrEnters (advance (s.setReg rd v)) :=
    advance_stays (State.keepsPrivileged_setReg hu s.keepsPrivileged_refl)
  refine guarded_checks_staysOrEnters fun _ => ?_
  split
  · split
    · exact leaves_refused _
    · exact hreg _
  · exact hreg _

/-- In User mode MSR to the CPSR writes the flags alone (R347). -/
theorem msrCpsr_usr {mask : BitVec 4} {v : Word} (hu : s.mode = .usr) : msrCpsr mask v s = advance (msrFlags mask v s) := by
  simp [msrCpsr, hu]

/-- User mode has no SPSR for MSR to write (R342). -/
theorem msrSpsr_usr {mask : BitVec 4} {v : Word} (hu : s.mode = .usr) : msrSpsr mask v s = .refused .spsrInUserMode := by
  simp [msrSpsr, State.spsrNow_eq_none.mpr (.inl hu)]

theorem execMsr_staysOrEnters {c : Cond} {r : Bool} {mask sbo : BitVec 4} {operand : MsrOperand} (hu : s.mode = .usr) :
    Leaves s.staysOrEnters (execMsr c r mask sbo operand s) := by
  refine guarded_checks_staysOrEnters fun _ => ?_
  rw [msrCpsr_usr hu, msrSpsr_usr hu]
  split
  · exact leaves_refused _
  · exact advance_stays (by simp [msrFlags])

/-! ## Every instruction, every step -/

/-- Whatever the instruction, in User mode it leaves everything privileged alone or enters an exception. -/
theorem exec_staysOrEnters (i : Instr) (hu : s.mode = .usr) : Leaves s.staysOrEnters (exec i s) := by
  cases i with
  | and | eor | orr | bic | mvn | sub | rsb | add | adc | sbc | rsc | mov | lsl | lsr | asr | rrx | ror =>
    exact guarded_checks_staysOrEnters fun _ => dpWrite_staysOrEnters hu
  | tst | teq | cmp | cmn => exact guarded_checks_staysOrEnters fun _ => advance_stays (by simp)
  | nop => exact guarded_staysOrEnters (advance_stays s.keepsPrivileged_refl)
  | mul | mla => exact guarded_checks_staysOrEnters fun _ => mulWrite_staysOrEnters hu
  | umull | umlal | smull | smlal => exact guarded_checks_staysOrEnters fun _ => mullWrite_staysOrEnters hu
  | ldr | ldrb | ldrt | ldrbt | ldrh | ldrsb | ldrsh =>
    exact guarded_checks_staysOrEnters fun _ => loadReg_staysOrEnters hu
  | str | strb | strt | strbt | strh => exact guarded_checks_staysOrEnters fun _ => storeValue_staysOrEnters hu
  | swp | swpb => exact guarded_checks_staysOrEnters fun _ => swap_staysOrEnters hu
  | ldm => exact execLdm_staysOrEnters hu
  | stm => exact execStm_staysOrEnters hu
  | b => exact guarded_staysOrEnters (leaves_next (.inl s.keepsPrivileged_refl))
  | bl => exact guarded_staysOrEnters (leaves_next (.inl (State.keepsPrivileged_setReg hu s.keepsPrivileged_refl)))
  | mrs => exact execMrs_staysOrEnters hu
  | msr => exact execMsr_staysOrEnters hu
  | reservedCond1111 => exact raise_staysOrEnters
  | swi | cdp | ldc | stc | mcr | mrc | reservedMultiplyCmd | reservedOp001001 | reservedExtraStoreSigned
  | reservedDpCompareS0 | reservedUndefinedSpace => exact guarded_staysOrEnters raise_staysOrEnters

end Confinement

/-! ## Events -/

/-- Every event but Reset is the plain entry to its exception. -/
theorem takeEvent_of_ne_reset {e : Exc} (h : e ≠ .reset) (s : State) : takeEvent e s = enterException e s := by
  cases e with
  | reset => exact absurd rfl h
  | fiq | irq | undefinedInstruction | swi | prefetchAbort | dataAbort | alignmentFault => rfl

theorem takeReset_cpsr (s : State) :
    (takeReset s).cpsr.mode = .svc ∧ (takeReset s).cpsr.i = true ∧ (takeReset s).cpsr.f = true :=
  ⟨rfl, rfl, Bool.or_true _⟩

theorem enterException_spsr_get (e : Exc) (s : State) :
    (enterException e s).spsr.get e.mode.bank = some s.cpsr.toPsr := by
  obtain ⟨-, -, -, hspsr, -⟩ := enterException_entered e s
  exact hspsr

/-- Settles O13: an event and a raised fetch enter an exception, and an instruction does so or leaves everything privileged
alone. -/
theorem userModeIsConfined : Obligations.UserModeIsConfined := by
  intro s t hS husr hstep
  obtain ⟨e, -, rfl⟩ | ⟨w, -, -, hexec⟩ | ⟨e, _, -, -, -, rfl⟩ := step_eq_next.mp hstep
  · refine .inr ⟨e, ?_⟩
    by_cases he : e = .reset
    · subst he
      obtain ⟨hmode, hi, -⟩ := takeReset_cpsr s.sampled
      exact ⟨takeReset_pc _, hmode, hi, fun h => absurd rfl h⟩
    · rw [takeEvent_of_ne_reset he]
      exact ⟨rfl, rfl, rfl, fun _ => enterException_spsr_get e s.sampled⟩
  · have hu : s.sampled.ticked.mode = .usr := by simpa [State.mode_S hS] using husr
    obtain ⟨-, hi, hf, hmode, hspsr, hregs⟩ | ⟨e, rfl⟩ := exec_staysOrEnters _ hu t hexec
    · exact .inl ⟨hmode.trans husr, hi, hf, hspsr, hregs⟩
    · exact .inr ⟨e, rfl, rfl, rfl, fun _ => enterException_spsr_get e s.sampled.ticked⟩
  · exact .inr ⟨e, rfl, rfl, rfl, fun _ => enterException_spsr_get e s.sampled⟩

end Sys2Proof.Machine

/-! The statements of 60_exceptions.md about events, entry and return: interrupts and Reset (R335, R345, R348), the entry
(R344), the return (R346) and a system call (R349). -/

namespace Sys2Proof.Machine

variable {s : State}

/-! ## Events -/

/-- The event of profile S, by the next sample of the inputs (R335, R345, R348). -/
theorem event_of_sample {x : Inputs} {rest : List Inputs} (hS : s.params.profile = .S) (hx : s.inputs = x :: rest) :
    event s =
      if x.reset then some .reset
      else if x.fiq && !s.cpsr.f then some .fiq
      else if x.irq && !s.cpsr.i then some .irq
      else none := by
  have hsample : s.sample = x := by simp [State.sample, hx]
  simp only [event, hS, hsample]

theorem event_U (hU : s.params.profile = .U) : event s = none := by simp only [event, hU]

theorem step_of_event {e : Exc} (he : event s = some e) : step s = .next (takeEvent e s.sampled) := by
  simp only [step, he]

/-- A step that takes an interrupt is the plain entry, the sample used up. -/
theorem step_of_interrupt {e : Exc} {x : Inputs} {rest : List Inputs} (hx : s.inputs = x :: rest)
    (he : event s = some e) (hne : e ≠ .reset) :
    ∃ t, step s = .next t ∧ s.sampled.entered t e.mode e.vector (e.link s.sampled) e.masksFiq ∧ t.inputs = rest ∧
      t.hazard = s.hazard := by
  refine ⟨_, step_of_event he, ?_⟩
  rw [takeEvent_of_ne_reset hne]
  exact ⟨enterException_entered e s.sampled, by simp [hx], rfl⟩

/-- An input not asserted, or masked, is no event (R335). -/
theorem input_masked {asserted mask : Bool} (h : asserted = false ∨ mask = true) : (asserted && !mask) = false := by
  obtain rfl | rfl := h
  · rfl
  · exact Bool.and_false asserted

/-- Settles O7: the masks decide which event the sample gives, and the step takes it. -/
theorem interruptEntry : Obligations.InterruptEntry := by
  intro s
  refine ⟨event_U, fun fiq irq rest hS hx => ?_⟩
  have hevent := event_of_sample hS hx
  refine ⟨fun hfiq hf => ?fiq, fun hmasked hirq hi => ?irq, fun hmasked hmasked' => ?masked⟩
  case fiq => exact step_of_interrupt hx (by simpa [hfiq, hf] using hevent) (by decide)
  case irq => exact step_of_interrupt hx (by simpa [input_masked hmasked, hirq, hi] using hevent) (by decide)
  case masked => simpa [input_masked hmasked, input_masked hmasked'] using hevent

/-- Settles O8: an asserted reset input comes before every other event. -/
theorem resetEntry : Obligations.ResetEntry := by
  intro s x rest hS hx hreset
  have hevent : event s = some .reset := (event_of_sample hS hx).trans (if_pos hreset)
  obtain ⟨hmode, hi, hf⟩ := takeReset_cpsr s.sampled
  exact ⟨takeReset s.sampled, step_of_event hevent, takeReset_pc _, hmode, hi, hf,
    State.keepsMemory_of_eq (by simp) (by simp), by simp, by simp [hx]⟩

/-! ## Entry -/

/-- Settles O57: each exception by its row of R343. -/
theorem exceptionEntry : Obligations.ExceptionEntry := fun s =>
  ⟨enterException_entered .undefinedInstruction s, enterException_entered .swi s, enterException_entered .prefetchAbort s,
    enterException_entered .dataAbort s, enterException_entered .alignmentFault s, enterException_entered .irq s,
    enterException_entered .fiq s, _, enterException_entered .reset s⟩

/-! ## Return -/

section Return

variable {p : Psr} {r : Refusal} {target : Word}

theorem exceptionReturn_unaligned (hp : s.spsrNow = some p) (h : target.extractLsb' 0 2 ≠ 0#2) :
    exceptionReturn r target s = .refused .pcUnaligned := by
  simp only [exceptionReturn, hp, if_neg h]

/-- A status register that is no CPSR is not restored (R346, R30). -/
theorem exceptionReturn_illegal {q : Refusal} (hp : s.spsrNow = some p) (h : target.extractLsb' 0 2 = 0#2)
    (hq : p.toCpsr = .error q) : exceptionReturn r target s = .refused q := by
  simp only [exceptionReturn, hp, if_pos h, hq]

theorem exceptionReturn_legal {m : Mode} (hp : s.spsrNow = some p) (h : target.extractLsb' 0 2 = 0#2) (ht : p.t = false)
    (hm : Mode.ofBits p.m = some m) :
    exceptionReturn r target s = .next ((s.setCpsr ⟨p.flags, p.i, p.f, m⟩).setPc target) :=
  exceptionReturn_eq_next.mpr ⟨p, _, hp, h, Psr.toCpsr_eq_ok.mpr ⟨ht, hm, rfl, rfl, rfl⟩, rfl⟩

theorem Psr.toCpsr_tBit (ht : p.t = true) : p.toCpsr = .error .tBit := if_pos ht

theorem Psr.toCpsr_badMode (ht : p.t = false) (hm : Mode.ofBits p.m = none) : p.toCpsr = .error .badMode := by
  simp [Psr.toCpsr, ht, hm]

end Return

/-- Settles O32: with Rd = 15 and S = 1 the write is an exception return to the value. -/
theorem dpReturnsFromException : Obligations.DpReturnsFromException := by
  intro i f st hform hc hu hr hrd hs
  obtain ⟨_, fl, rfl, hexec⟩ := exec_of_dpForm_value hform st
  rw [hexec, guarded_pass hc, dpChecks_pass hu hr, hs, hrd, dpWrite_return]
  exact ⟨fun hmode => exceptionReturn_none (State.spsrNow_eq_none.mpr hmode), fun p hp =>
    ⟨exceptionReturn_unaligned hp, fun ha ht => exceptionReturn_illegal hp ha (Psr.toCpsr_tBit ht),
      fun ha ht hm => exceptionReturn_illegal hp ha (Psr.toCpsr_badMode ht hm),
      fun m ha ht hm => ⟨_, exceptionReturn_legal hp ha ht hm, rfl, rfl, fun _ => rfl, rfl, rfl,
        State.keepsMemory_of_eq rfl rfl⟩⟩⟩

/-! ## A system call -/

/-- The operand of `MOVS PC, R14` is R14 of the current mode. -/
theorem dpValue_mov_reg (c : Cond) (b : Bool) (sbz : BitVec 4) (rd rm : Reg) (st : State) :
    dpValue (.mov c b sbz rd (.reg rm)) st = st.reg rm := rfl

/-- In the state SWI enters, R14 holds the return address (R344), unless the caution of R373 (a) is on. -/
theorem reg14_enterException_swi (hS : s.params.profile = .S) (hlive : s.hazard ≠ .live) :
    (enterException .swi s).reg 14#4 = s.pc + 4#32 := by
  have hbank : (enterException .swi s).bank = .svc := by simp [State.bank, State.mode, hS, Exc.mode, Mode.bank]
  obtain ⟨-, hlink, -⟩ := enterException_entered .swi s
  rw [State.reg_of_not_live (enterException .swi s) (by decide) hlive, State.regIn, hbank]
  exact hlink

theorem spsrNow_enterException (hS : s.params.profile = .S) (e : Exc) :
    (enterException e s).spsrNow = some s.cpsr.toPsr := by
  have hbank : (enterException e s).bank = e.mode.bank := by simp [State.bank, State.mode, hS]
  rw [State.spsrNow, hbank]
  exact enterException_spsr_get e s

/-- Settles O60: SWI saves the CPSR and the return address, and the exception return of O32 takes both back. -/
theorem systemCallReturns : Obligations.SystemCallReturns := by
  intro s imm24 hS halign hlive
  have hcall : exec (.swi .al imm24) s = .next (enterException .swi s) :=
    (guarded_pass (c := .al) (s := s) rfl).trans (raise_S hS)
  obtain ⟨-, -, hregs, -, -, -, -, hmem, hstored⟩ := enterException_entered .swi s
  have htarget : dpValue (.mov .al true 0#4 15#4 (.reg 14#4)) (enterException .swi s) = s.pc + 4#32 :=
    (dpValue_mov_reg ..).trans (reg14_enterException_swi hS hlive)
  obtain ⟨-, hreturn⟩ :=
    dpReturnsFromException (.mov .al true 0#4 15#4 (.reg 14#4)) _ (enterException .swi s) rfl rfl rfl rfl rfl rfl
  obtain ⟨-, -, -, hlegal⟩ := hreturn _ (spsrNow_enterException hS .swi)
  obtain ⟨r, hr, hpc, hcpsr, hregs', -, -, hmem', hstored'⟩ :=
    hlegal s.cpsr.mode (by rw [htarget]; exact aligned_add halign rfl) rfl (Mode.ofBits_bits _)
  exact ⟨_, r, hcall, hr, hcpsr, hpc.trans htarget, fun j hj => (hregs' j).trans (hregs j hj),
    fun a => (hmem' a).trans (hmem a), hstored'.trans hstored⟩

end Sys2Proof.Machine

/-! The registers of a mode (R341, R342) and MSR (R296, R347). -/

namespace Sys2Proof.Machine

/-! ## Banks -/

theorem Bank.eq_iff_index (b d : Bank) : b = d ↔ b.index.val = d.index.val := by
  cases b <;> cases d <;> decide

/-- The place of a register as a number: the groups of R341 one after the other. -/
theorem slot_val (b : Bank) (r : Reg) :
    (slot b r).val =
      if r.toNat < 8 then r.toNat
      else if r.toNat < 13 then (if b = .fiq then r.toNat + 5 else r.toNat)
      else if r.toNat = 13 then 18 + b.index.val else 24 + b.index.val := by
  have hindex := b.index.isLt
  unfold slot
  split_ifs
  all_goals exact Nat.mod_eq_of_lt (by omega)

/-- Two registers below 15 stand in one place when they are one register of R341's table. -/
theorem slot_eq_iff (b d : Bank) {r q : Reg} (hr : r ≠ 15#4) (hq : q ≠ 15#4) :
    slot b r = slot d q ↔ r = q ∧ (r.toNat < 8 ∨ (r.toNat < 13 ∧ (b = .fiq ↔ d = .fiq)) ∨ b = d) := by
  have hr15 : r.toNat < 15 := by bv_omega
  have hq15 : q.toNat < 15 := by bv_omega
  have hb := b.index.isLt
  have hd := d.index.isLt
  rw [Fin.ext_iff, slot_val, slot_val, ← BitVec.toNat_inj]
  simp only [Bank.eq_iff_index, show Bank.fiq.index.val = 1 from rfl]
  split_ifs <;> omega

theorem Mode.bank_eq_iff (m n : Mode) :
    m.bank = n.bank ↔ m = n ∨ ((m = .usr ∨ m = .sys) ∧ (n = .usr ∨ n = .sys)) := by
  cases m <;> cases n <;> decide

theorem Mode.bank_eq_fiq (m : Mode) : m.bank = .fiq ↔ m = .fiq := by cases m <;> decide

/-- User's bank alone has no SPSR (R342). -/
theorem SpsrFile.get_eq_none {f : SpsrFile} {b : Bank} : f.get b = none ↔ b = .usr := by
  cases b <;> simp [SpsrFile.get]

section Read

variable {st : State} {r : Reg}

/-- The caution of R373 (a) is of no account: it is off, or the register has no copy of the current mode's own. -/
theorem State.not_cautioned (h : st.hazard ≠ .live ∨ slot st.bank r = slot .usr r) :
    (decide (st.hazard = .live) && isBanked st.bank r) = false := by
  obtain h | h := h
  · simp [h]
  · simp [isBanked, h]

theorem State.reg_eq_regs (hr : r ≠ 15#4) (h : st.hazard ≠ .live ∨ slot st.bank r = slot .usr r) :
    st.reg r = st.regs.get (slot st.bank r) := by
  simp only [State.reg, if_neg hr, State.not_cautioned h, State.regIn, Bool.false_eq_true, if_false]

theorem State.userReg_eq_regs (h : st.hazard ≠ .live ∨ slot st.bank r = slot .usr r) :
    st.userReg r = st.regs.get (slot .usr r) := by
  simp only [State.userReg, State.not_cautioned h, State.regIn, Bool.false_eq_true, if_false]

end Read

/-- Settles O25: the places as numbers, then the modes through their banks, then the reads. -/
theorem registerBanks : Obligations.RegisterBanks := by
  refine ⟨fun b d r q => slot_eq_iff b d, fun m n r q hr hq => ?modes, by decide, fun st r => ?reads⟩
  case modes => rw [slot_eq_iff _ _ hr hq, Mode.bank_eq_iff, Mode.bank_eq_fiq, Mode.bank_eq_fiq]
  case reads =>
    exact ⟨State.mode_S, State.mode_U, rfl, State.reg_pc st,
      fun hr h => ⟨State.reg_eq_regs hr h, State.userReg_eq_regs h⟩, rfl, SpsrFile.get_eq_none⟩

/-! ## MSR -/

section Msr

variable {c : Cond} {mask : BitVec 4} {operand : MsrOperand} {st : State} {v : Word}

/-- MSR with its restrictions met moves its value (R296). -/
theorem exec_msr {r : Bool} (hc : condPassed c st.cpsr.flags = true) (hsbz : operand.sbzOk = true)
    (hrm : msrRmIsPc operand = false) :
    exec (.msr c r mask 15#4 operand) st =
      if r then msrSpsr mask (msrValue operand st) st else msrCpsr mask (msrValue operand st) st :=
  guarded_checks_pass hc (by simp [hsbz, hrm])

theorem msrFlags_eq_setCpsr (mask : BitVec 4) (v : Word) (st : State) :
    msrFlags mask v st =
      st.setCpsr { st.cpsr with flags := if mask.getLsbD 3 then Flags.ofWord v else st.cpsr.flags } := by
  unfold msrFlags State.setFlagsWhen
  split <;> rfl

/-- At user level, or with the control byte not selected, MSR writes the flags alone (R347). -/
theorem msrCpsr_flags (h : mask.getLsbD 0 = false ∨ st.mode = .usr) :
    msrCpsr mask v st = advance (msrFlags mask v st) := by
  obtain h | h := h
  · simp only [msrCpsr, h, Bool.false_and, Bool.false_eq_true, if_false]
  · exact msrCpsr_usr h

/-- In a privileged mode a control byte that no CPSR has is refused (R347). -/
theorem msrCpsr_refused {r : Refusal} (hm : mask.getLsbD 0 = true) (hpriv : st.mode ≠ .usr)
    (hv : (Psr.ofWord v).toCpsr = .error r) : msrCpsr mask v st = .refused r := by
  simp [msrCpsr, hm, hpriv, hv]

/-- In a privileged mode any other control byte is written, and the flags if they are selected (R347). -/
theorem msrCpsr_control {new : Cpsr} (hm : mask.getLsbD 0 = true) (hpriv : st.mode ≠ .usr)
    (hv : (Psr.ofWord v).toCpsr = .ok new) :
    msrCpsr mask v st = advance (st.setCpsr { new with flags := (msrFlags mask v st).cpsr.flags }) := by
  simp [msrCpsr, hm, hpriv, hv]

/-- Settles O54: every MSR to the CPSR that is not refused is the advance of a state with another CPSR. -/
theorem statusWriteResults : Obligations.StatusWriteResults := by
  intro c mask operand st hc hsbz hrm v i newFlags rest
  have hexec : exec i st = msrCpsr mask v st := exec_msr hc hsbz hrm
  have done {new : Cpsr} (h : msrCpsr mask v st = advance (st.setCpsr new)) :
      st.completes i fun t => t.cpsr = new ∧ rest t :=
    completes_of_advance (hexec.trans h) rfl
      ⟨rfl, rfl, State.wroteRegs_nil rfl, rfl, rfl, rfl, rfl, State.keepsMemory_of_eq rfl rfl⟩
  refine ⟨?_, ?_, fun h => ?flags, fun hm hpriv => ?control⟩
  · rintro sbz rm rfl
    rfl
  · rintro rot imm8 rfl k hk
    exact getLsbD_rotatedImm rot imm8 false hk
  case flags => exact done ((msrCpsr_flags h).trans (congrArg advance (msrFlags_eq_setCpsr mask v st)))
  case control =>
    refine ⟨fun ht => ?tBit, fun ht hbad => ?badMode, fun m ht hlegal => ?legal⟩
    case tBit => exact hexec.trans (msrCpsr_refused hm hpriv (Psr.toCpsr_tBit ht))
    case badMode => exact hexec.trans (msrCpsr_refused hm hpriv (Psr.toCpsr_badMode ht hbad))
    case legal =>
      have hcpsr : (Psr.ofWord v).toCpsr = .ok ⟨Flags.ofWord v, v.getLsbD 7, v.getLsbD 6, m⟩ :=
        Psr.toCpsr_eq_ok.mpr ⟨ht, hlegal, rfl, rfl, rfl⟩
      refine done ((msrCpsr_control hm hpriv hcpsr).trans ?_)
      rw [msrFlags_eq_setCpsr]
      rfl

/-! ## The fields of an SPSR -/

/-- Bit `k` of a word is selected when the byte it stands in is (R296). -/
theorem getLsbD_fieldMaskWord (mask : BitVec 4) {k : Nat} (hk : k < 32) :
    (fieldMaskWord mask).getLsbD k = mask.getLsbD (k / 8) := by
  have hbyte (b : Bool) (j : Nat) : (if b then 0xFF else 0 : Byte).getLsbD j = (b && decide (j < 8)) := by
    cases b
    · simp
    · exact BitVec.getLsbD_allOnes
  simp only [fieldMaskWord, bit_cat, hbyte]
  split_ifs
  · simp [show k / 8 = 0 by omega, show k < 8 by omega]
  · simp [show k / 8 = 1 by omega, show k - 8 < 8 by omega]
  · simp [show k / 8 = 2 by omega, show k - 16 < 8 by omega]
  · simp [show k / 8 = 3 by omega, show k - 24 < 8 by omega]

/-- Each bit comes from the word moved where it is selected, and else stays (R347). -/
theorem getLsbD_select (old new m : Word) {k : Nat} (hk : k < 32) :
    ((old &&& ~~~m) ||| (new &&& m)).getLsbD k = if m.getLsbD k then new.getLsbD k else old.getLsbD k := by
  rw [BitVec.getLsbD_or, BitVec.getLsbD_and, BitVec.getLsbD_and, BitVec.getLsbD_not, decide_eq_true hk]
  cases m.getLsbD k <;> simp

theorem Psr.writeFields_eq (q : Psr) (mask : BitVec 4) (v : Word) :
    q.writeFields mask v =
      { flags := if mask.getLsbD 3 then Flags.ofWord v else q.flags
        i := if mask.getLsbD 0 then v.getLsbD 7 else q.i
        f := if mask.getLsbD 0 then v.getLsbD 6 else q.f
        t := if mask.getLsbD 0 then v.getLsbD 5 else q.t
        m := if mask.getLsbD 0 then v.extractLsb' 0 5 else q.m } := by
  obtain ⟨hn, hz, hc, hv, -, hi, hf, ht, hm⟩ := q.readsAs_toWord
  have hbit {k : Nat} (hk : k < 32) :
      ((q.toWord &&& ~~~fieldMaskWord mask) ||| (v &&& fieldMaskWord mask)).getLsbD k =
        if mask.getLsbD (k / 8) then v.getLsbD k else q.toWord.getLsbD k := by
    rw [getLsbD_select _ _ _ hk, getLsbD_fieldMaskWord mask hk]
  have hmode : ((q.toWord &&& ~~~fieldMaskWord mask) ||| (v &&& fieldMaskWord mask)).extractLsb' 0 5 =
      if mask.getLsbD 0 then v.extractLsb' 0 5 else q.m := by
    rw [← hm]
    refine BitVec.eq_of_getLsbD_eq fun k hk => ?_
    rw [BitVec.getLsbD_extractLsb', hbit (by omega), Nat.zero_add, Nat.div_eq_of_lt (by omega)]
    split <;> simp [hk]
  simp (disch := decide) only [Psr.writeFields, Psr.ofWord, Flags.ofWord, hmode, hbit, Nat.reduceDiv, hn, hz, hc, hv, hi,
    hf, ht]
  cases mask.getLsbD 3 <;> rfl

/-- A write of an SPSR changes that one alone, and none at all for User's bank (R342). -/
theorem SpsrFile.get_set (f : SpsrFile) (p : Psr) (b d : Bank) :
    (f.set p b).get d = if d = b ∧ b ≠ .usr then some p else f.get d := by
  cases b <;> cases d <;> rfl

theorem msrSpsr_some {q : Psr} (hq : st.spsrNow = some q) :
    msrSpsr mask v st = advance (st.setSpsr st.bank (q.writeFields mask v)) := by
  simp only [msrSpsr, hq]

/-- Settles O55: the SPSR is written field by field, and every other one stays. -/
theorem savedStatusWriteResults : Obligations.SavedStatusWriteResults := by
  intro c mask operand st q hc hsbz hrm hq v
  have hbank : st.bank ≠ .usr := fun h => by simp [State.spsrNow, h, SpsrFile.get] at hq
  have hwritten := q.writeFields_eq mask v
  exact completes_of_advance ((exec_msr hc hsbz hrm).trans (msrSpsr_some hq)) rfl
    ⟨q.writeFields mask v, (SpsrFile.get_set ..).trans (if_pos ⟨rfl, hbank⟩), congrArg Psr.flags hwritten,
      congrArg Psr.i hwritten, congrArg Psr.f hwritten, congrArg Psr.t hwritten, congrArg Psr.m hwritten,
      fun _ hd => (SpsrFile.get_set ..).trans (if_neg fun h => hd h.1), rfl, State.wroteRegs_nil rfl, rfl, rfl, rfl, rfl,
      State.keepsMemory_of_eq rfl rfl⟩

end Msr

end Sys2Proof.Machine
